-- ==== Sys2Proof/Word.lean ====
section
/-! DEFINITION. The machine's words: the widths rule R5 fixes. -/

namespace Sys2Proof

/-- One byte of a statement's text. Memory has no bytes (R66). -/
abbrev Byte := BitVec 8

/-- A DAG register, an address, a normal word of memory, a control register (R5, R20, R62). -/
abbrev Word := BitVec 32

/-- A data register of PEx or PEy (R33). -/
abbrev DataWord := BitVec 40

/-- A long word, the width of the DM and PM data buses (R5, R67). -/
abbrev LongWord := BitVec 64

/-- The text of a name, upper case (R91). -/
abbrev Ident := List Byte

end Sys2Proof
end

