-- ==== Sys2Proof/Syntax.lean ====
section
/-! DEFINITION. The statements of the spec (rules R92 to R95): operands, the one inductive `Instr` with one constructor
for each row of spec/opcode_table.json, and the shapes the rows share. -/

namespace Sys2Proof

/-- The bus of a data move (R60). DAG1 serves `dm`, DAG2 serves `pm` (R61). -/
inductive Bus where
  | dm
  | pm
  deriving DecidableEq, Repr

/-- Access width: `nw` a 32-bit normal word, `lw` a long word forced by `(LW)` (R63, R71). -/
inductive Width where
  | nw
  | lw
  deriving DecidableEq, Repr

/-- The four types of DAG register: index, modify, length, base (R20). -/
inductive DagType where
  | i
  | m
  | l
  | b
  deriving DecidableEq, Repr

/-- The number of a DAG register: 0 to 7 belong to DAG1, 8 to 15 to DAG2 (R20). -/
abbrev RegNum := Fin 16

/-- The register of DAG1 with number `a` (R11). -/
def dag1 (a : Fin 8) : RegNum := ⟨a.val, by omega⟩

/-- The register of DAG2 with number `8 + c` (R11). -/
def dag2 (c : Fin 8) : RegNum := ⟨8 + c.val, by omega⟩

/-- The two processing elements (R12). -/
inductive Pe where
  | x
  | y
  deriving DecidableEq, Repr

/-- A data register: R0-R15 of PEx (also spelled F0-F15) or S0-S15 of PEy (R33, R102). -/
structure Dreg where
  pe : Pe
  num : Fin 16
  deriving DecidableEq, Repr

/-- The control registers the spec gives a state: MODE1 (R28), STKYX (R29) and MMASK (R31). -/
inductive SystemReg where
  | mode1
  | stkyx
  | mmask
  deriving DecidableEq, Repr

/-- A universal register (R32): a DAG register, a data register, a control register (R241, log 30), or any other name. -/
inductive Ureg where
  | dag (t : DagType) (n : RegNum)
  | data (d : Dreg)
  | system (r : SystemReg)
  | other (name : Ident)
  deriving DecidableEq, Repr

/-- The instructions: one constructor for each row of spec/opcode_table.json, in the table's order. `a`, `b` are DAG1 numbers;
`c`, `d` are DAG2 numbers less 8; `w` is the optional `(LW)`; `k` is a Data6 and `n` a Data32. -/
inductive Instr where
  | stDmPostm (a b : Fin 8) (u : Ureg) (w : Width)
  | stPmPostm (c d : Fin 8) (u : Ureg) (w : Width)
  | ldDmPostm (u : Ureg) (a b : Fin 8) (w : Width)
  | ldPmPostm (u : Ureg) (c d : Fin 8) (w : Width)
  | stiDmPostm (a b : Fin 8) (n : Word)
  | stiPmPostm (c d : Fin 8) (n : Word)
  | stDmPost6 (a : Fin 8) (k : BitVec 6) (r : Dreg)
  | stPmPost6 (c : Fin 8) (k : BitVec 6) (r : Dreg)
  | ldDmPost6 (r : Dreg) (a : Fin 8) (k : BitVec 6)
  | ldPmPost6 (r : Dreg) (c : Fin 8) (k : BitVec 6)
  | stDmPrem (b a : Fin 8) (u : Ureg) (w : Width)
  | stPmPrem (d c : Fin 8) (u : Ureg) (w : Width)
  | ldDmPrem (u : Ureg) (b a : Fin 8) (w : Width)
  | ldPmPrem (u : Ureg) (d c : Fin 8) (w : Width)
  | stDmPre6 (k : BitVec 6) (a : Fin 8) (r : Dreg)
  | stPmPre6 (k : BitVec 6) (c : Fin 8) (r : Dreg)
  | ldDmPre6 (r : Dreg) (k : BitVec 6) (a : Fin 8)
  | ldPmPre6 (r : Dreg) (k : BitVec 6) (c : Fin 8)
  | ldDmPre32 (u : Ureg) (n : Word) (a : Fin 8) (w : Width)
  | ldPmPre32 (u : Ureg) (n : Word) (c : Fin 8) (w : Width)
  | stDmPre32 (n : Word) (a : Fin 8) (u : Ureg) (w : Width)
  | stPmPre32 (n : Word) (c : Fin 8) (u : Ureg) (w : Width)
  | modifyMDag1 (a b : Fin 8)
  | modifyMDag2 (c d : Fin 8)
  | modifyIDag1 (a : Fin 8) (n : Word)
  | modifyIDag2 (c : Fin 8) (n : Word)
  | bitrevDag1 (a : Fin 8) (n : Word)
  | bitrevDag2 (c : Fin 8) (n : Word)
  | ldDual (r1 : Dreg) (a b : Fin 8) (r2 : Dreg) (c d : Fin 8)
  | ldiUreg (u : Ureg) (n : Word)
  | movUreg (u1 u2 : Ureg)
  | bitsetMode1 (n : Word)
  | nop
  | bittstStkyx (n : Word)
  | pushSts
  | doUntil (n : Word) (l : Ident)
  deriving DecidableEq, Repr

/-- A modifier as written: a modify register, a Data6 or a Data32 (R111). -/
inductive Modifier where
  | reg (k : RegNum)
  | imm6 (k : BitVec 6)
  | imm32 (n : Word)
  deriving DecidableEq, Repr

/-- The position of the modifier: after the index register (`post`) or before it (`pre`) (R93). -/
inductive Order where
  | post
  | pre
  deriving DecidableEq, Repr

/-- What an access moves: a register to memory, an immediate to memory, memory to a register. -/
inductive Transfer where
  | store (u : Ureg) (w : Width)
  | storeImm (n : Word)
  | load (u : Ureg) (w : Width)
  deriving DecidableEq, Repr

/-- One memory access of a statement (R94 rows 1 to 22). -/
structure Access where
  bus : Bus
  idx : RegNum
  order : Order
  mod : Modifier
  xfer : Transfer
  deriving DecidableEq, Repr

/-- A statement with its operands in the one form the rows share. -/
inductive Shape where
  | access (x : Access)
  | dual (r1 : Dreg) (a b : RegNum) (r2 : Dreg) (c d : RegNum)
  | modify (i : RegNum) (m : Modifier)
  | bitrev (i : RegNum) (n : Word)
  | ldi (u : Ureg) (n : Word)
  | mov (u1 u2 : Ureg)
  | bitset (n : Word)
  | nop
  | bittst (n : Word)
  | pushSts
  | doUntil (n : Word) (l : Ident)
  deriving DecidableEq, Repr

/-- The shape of each row (R94, R95). -/
def Instr.shape : Instr → Shape
  | .stDmPostm a b u w => .access ⟨.dm, dag1 a, .post, .reg (dag1 b), .store u w⟩
  | .stPmPostm c d u w => .access ⟨.pm, dag2 c, .post, .reg (dag2 d), .store u w⟩
  | .ldDmPostm u a b w => .access ⟨.dm, dag1 a, .post, .reg (dag1 b), .load u w⟩
  | .ldPmPostm u c d w => .access ⟨.pm, dag2 c, .post, .reg (dag2 d), .load u w⟩
  | .stiDmPostm a b n => .access ⟨.dm, dag1 a, .post, .reg (dag1 b), .storeImm n⟩
  | .stiPmPostm c d n => .access ⟨.pm, dag2 c, .post, .reg (dag2 d), .storeImm n⟩
  | .stDmPost6 a k r => .access ⟨.dm, dag1 a, .post, .imm6 k, .store (.data r) .nw⟩
  | .stPmPost6 c k r => .access ⟨.pm, dag2 c, .post, .imm6 k, .store (.data r) .nw⟩
  | .ldDmPost6 r a k => .access ⟨.dm, dag1 a, .post, .imm6 k, .load (.data r) .nw⟩
  | .ldPmPost6 r c k => .access ⟨.pm, dag2 c, .post, .imm6 k, .load (.data r) .nw⟩
  | .stDmPrem b a u w => .access ⟨.dm, dag1 a, .pre, .reg (dag1 b), .store u w⟩
  | .stPmPrem d c u w => .access ⟨.pm, dag2 c, .pre, .reg (dag2 d), .store u w⟩
  | .ldDmPrem u b a w => .access ⟨.dm, dag1 a, .pre, .reg (dag1 b), .load u w⟩
  | .ldPmPrem u d c w => .access ⟨.pm, dag2 c, .pre, .reg (dag2 d), .load u w⟩
  | .stDmPre6 k a r => .access ⟨.dm, dag1 a, .pre, .imm6 k, .store (.data r) .nw⟩
  | .stPmPre6 k c r => .access ⟨.pm, dag2 c, .pre, .imm6 k, .store (.data r) .nw⟩
  | .ldDmPre6 r k a => .access ⟨.dm, dag1 a, .pre, .imm6 k, .load (.data r) .nw⟩
  | .ldPmPre6 r k c => .access ⟨.pm, dag2 c, .pre, .imm6 k, .load (.data r) .nw⟩
  | .ldDmPre32 u n a w => .access ⟨.dm, dag1 a, .pre, .imm32 n, .load u w⟩
  | .ldPmPre32 u n c w => .access ⟨.pm, dag2 c, .pre, .imm32 n, .load u w⟩
  | .stDmPre32 n a u w => .access ⟨.dm, dag1 a, .pre, .imm32 n, .store u w⟩
  | .stPmPre32 n c u w => .access ⟨.pm, dag2 c, .pre, .imm32 n, .store u w⟩
  | .modifyMDag1 a b => .modify (dag1 a) (.reg (dag1 b))
  | .modifyMDag2 c d => .modify (dag2 c) (.reg (dag2 d))
  | .modifyIDag1 a n => .modify (dag1 a) (.imm32 n)
  | .modifyIDag2 c n => .modify (dag2 c) (.imm32 n)
  | .bitrevDag1 a n => .bitrev (dag1 a) n
  | .bitrevDag2 c n => .bitrev (dag2 c) n
  | .ldDual r1 a b r2 c d => .dual r1 (dag1 a) (dag1 b) r2 (dag2 c) (dag2 d)
  | .ldiUreg u n => .ldi u n
  | .movUreg u1 u2 => .mov u1 u2
  | .bitsetMode1 n => .bitset n
  | .nop => .nop
  | .bittstStkyx n => .bittst n
  | .pushSts => .pushSts
  | .doUntil n l => .doUntil n l

/-- Why a text is no statement of the spec. -/
inductive DecodeError where
  /-- A character no token of R91 begins with, or a malformed number. -/
  | badCharacter
  /-- The text ends inside a comment or a number. -/
  | unfinished
  /-- The text matches no row of R94 and R95 (R98, R101, R141). -/
  | noSuchForm
  /-- The index and modify registers are of different DAGs, or the bus is not the DAG's (R98). -/
  | mixedDags
  deriving DecidableEq, Repr

end Sys2Proof
end

