-- ==== Sys2Proof/Config.lean ====
section
/-! DEFINITION. What the platform fixes and the spec leaves open (rule R6): the parameters as plain data, which `State.plat`
holds, and the free values. The rest of `UregSet` and `Core` are data of the state too (`State.others`, `State.core`). -/

namespace Sys2Proof

/-- A range of addresses to which the platform's memory admits accesses of one width over one bus (`Admit`, R64). -/
structure Region where
  bus : Bus
  width : Width
  first : Nat
  last : Nat
  deriving DecidableEq, Repr

/-- A range of addresses that belongs to the memory space with number `space` (`SameSpace`, R69). -/
structure SpaceRange where
  first : Nat
  last : Nat
  space : Nat
  deriving DecidableEq, Repr

/-- A range of addresses and the cells of their long words (`LongWordCells`, R67): bits 31-0 at `(a and mask) + lo`, bits 63-32 at
`(a and mask) + hi`. A range of one address can name any two cells, so a list of ranges can be any function. -/
structure LongWordRange where
  first : Nat
  last : Nat
  mask : Word
  lo : Word
  hi : Word
  deriving DecidableEq, Repr

/-- The platform's parameters (R6). An address in no range of `spaces` is in space 0; one in no range of `longWords` has the long
word R67 recommends. `stkyCb7s` and `stkyCb15s` are `StkyPos` (R29). `systemUregs` are the control registers in `UregSet` (R32,
R241), log 30. No step changes them; log 7, 8, 9. -/
structure Platform where
  admits : List Region
  spaces : List SpaceRange
  longWords : List LongWordRange
  data6Signed : Bool
  stkyCb7s : Fin 32
  stkyCb15s : Fin 32
  systemUregs : List SystemReg
  deriving DecidableEq, Repr

/-- The platform State.reset stands on: every address admitted, one memory space, the defaults of R67, R96 and R29,
and all three control registers in `UregSet`. DESIGN CHOICE, DEDUCED and PRESUMED (unsafe), log 7, 8, 9, 30. -/
def Platform.default : Platform where
  admits :=
    [⟨.dm, .nw, 0, 0xFFFFFFFF⟩, ⟨.dm, .lw, 0, 0xFFFFFFFF⟩, ⟨.pm, .nw, 0, 0xFFFFFFFF⟩, ⟨.pm, .lw, 0, 0xFFFFFFFF⟩]
  spaces := []
  longWords := []
  data6Signed := true
  stkyCb7s := 17
  stkyCb15s := 18
  systemUregs := [.mode1, .stkyx, .mmask]

namespace Config

/-- The free value of rules R120 (`ModifySetsOverflow`) and R121: whether the k-th event the spec leaves open sets the overflow
flag and raises the request. It has no body (safe), log 10. -/
opaque overflowDraw : Nat → Bool

/-- The bit of ASTAT in which BIT TST leaves its result; 32 or more means nowhere in ASTAT. R190 does not say.
It has no body, log 11. -/
opaque bitTestPlace : Nat

end Config

end Sys2Proof
end

