-- ==== Sys2Proof/WellFormed.lean ====
section
/-! DEFINITION. The static part of `Check` (rule R187, items 2 to 5): the statements the assembler flags or the spec refuses.
Item 1 holds by construction: `Instr` has no term that mixes the DAGs. -/

namespace Sys2Proof

/-- Why a statement is not well formed. -/
inductive IllFormed where
  /-- R185: a store of a DAG register through its own DAG. -/
  | sameDagStore
  /-- R186: a post-modify load of a DAG register through its own DAG. -/
  | sameDagLoad
  /-- R179: `(LW)` with a register that is not a DAG register. -/
  | longWordNonDag
  /-- R140: the two loads of LD.DUAL name one data register. -/
  | dualSameDestination
  /-- R172: a register move in which neither register is a DAG register. -/
  | moveWithoutDag
  /-- R192: the loop statement. -/
  | loopStatement
  deriving DecidableEq, Repr

/-- The DAG that drives `bus` holds the registers with number `n` (R61). -/
def Bus.owns (bus : Bus) (n : RegNum) : Bool :=
  match bus with
  | .dm => n.val < 8
  | .pm => 8 ≤ n.val

/-- `u` is a DAG register of the DAG that drives `bus`. -/
def Bus.ownsUreg (bus : Bus) (u : Ureg) : Bool :=
  match u with
  | .dag _ n => bus.owns n
  | _ => false

/-- `u` is a DAG register. -/
def Ureg.isDag (u : Ureg) : Bool :=
  match u with
  | .dag _ _ => true
  | _ => false

/-- `u` is a data register (a Dreg). -/
def Ureg.isData (u : Ureg) : Bool :=
  match u with
  | .data _ => true
  | _ => false

/-- R187 items 2 to 4 for one access. -/
def Access.illFormed (x : Access) : Option IllFormed :=
  match x.xfer with
  | .store u w =>
    if x.bus.ownsUreg u then some .sameDagStore
    else if w = .lw ∧ u.isDag = false then some .longWordNonDag
    else none
  | .load u w =>
    if x.order = .post ∧ x.bus.ownsUreg u = true then some .sameDagLoad
    else if w = .lw ∧ u.isDag = false then some .longWordNonDag
    else none
  | .storeImm _ => none

/-- R187 items 2 to 5. -/
def Shape.illFormed : Shape → Option IllFormed
  | .access x => x.illFormed
  | .dual r1 _ _ r2 _ _ => if r1 = r2 then some .dualSameDestination else none
  | .mov u1 u2 => if u1.isDag || u2.isDag then none else some .moveWithoutDag
  | .doUntil _ _ => some .loopStatement
  | .modify _ _ => none
  | .bitrev _ _ => none
  | .ldi _ _ => none
  | .bitset _ => none
  | .nop => none
  | .bittst _ => none
  | .pushSts => none

/-- Why the instruction is refused before it runs; `none` for a well-formed one. -/
def Instr.illFormed (i : Instr) : Option IllFormed := i.shape.illFormed

/-- The instruction passes the static part of `Check`. -/
abbrev Instr.WellFormed (i : Instr) : Prop := i.illFormed = none

end Sys2Proof
end

