-- ==== Sys2Proof/Decode.lean ====
section
/-! DEFINITION. From a statement's text to an instruction, and back. The spec has no binary encoding (R90): the encoding of a
statement is its assembly text (R91, R103), one byte a character. `decode` is total on any bytes and rejects by name;
`encode` writes one text for each instruction. -/

namespace Sys2Proof

/-! ### The bit names of MODE1 (R28) and STKYX (R29) -/

/-- MODE1 bit 24 (R28). -/
def bitCbufen : Nat := 24
/-- MODE1 bit 23 (R28). -/
def bitBdcst1 : Nat := 23
/-- MODE1 bit 22 (R28). -/
def bitBdcst9 : Nat := 22
/-- MODE1 bit 21 (R28). -/
def bitPeyen : Nat := 21
/-- MODE1 bit 6 (R28). -/
def bitSrd2l : Nat := 6
/-- MODE1 bit 5 (R28). -/
def bitSrd2h : Nat := 5
/-- MODE1 bit 4 (R28). -/
def bitSrd1l : Nat := 4
/-- MODE1 bit 3 (R28). -/
def bitSrd1h : Nat := 3
/-- MODE1 bit 1 (R28). -/
def bitBr0 : Nat := 1
/-- MODE1 bit 0 (R28). -/
def bitBr8 : Nat := 0

/-- The 32-bit mask with one bit set. -/
def bitMask (k : Nat) : Word := 1#32 <<< k

/-! ### Characters -/

/-- The byte of a character. -/
def ch (c : Char) : Byte := BitVec.ofNat 8 c.toNat

/-- The bytes of a text. -/
def txt (cs : List Char) : Ident := cs.map ch

/-- Space, tab, line feed, carriage return. -/
def isSpace (c : Byte) : Bool := c.toNat == 32 || c.toNat == 9 || c.toNat == 10 || c.toNat == 13

/-- `0` to `9`. -/
def isDigit (c : Byte) : Bool := 48 ≤ c.toNat && c.toNat ≤ 57

/-- A letter of either case. -/
def isLetter (c : Byte) : Bool := (65 ≤ c.toNat && c.toNat ≤ 90) || (97 ≤ c.toNat && c.toNat ≤ 122)

/-- A character of a name after its first: letter, digit or underscore. -/
def isNameChar (c : Byte) : Bool := isLetter c || isDigit c || c.toNat == 95

/-- Upper case: letter case is not significant (R91). -/
def upper (c : Byte) : Byte := if 97 ≤ c.toNat ∧ c.toNat ≤ 122 then c - 32#8 else c

/-- The value of a hexadecimal digit of either case. -/
def hexValue (c : Byte) : Option Nat :=
  if isDigit c then some (c.toNat - 48)
  else if 65 ≤ c.toNat ∧ c.toNat ≤ 70 then some (c.toNat - 55)
  else if 97 ≤ c.toNat ∧ c.toNat ≤ 102 then some (c.toNat - 87)
  else none

/-! ### Tokens -/

/-- The tokens of a statement (R91). -/
inductive Token where
  | word (w : Ident)
  | num (n : Nat)
  | lpar
  | rpar
  | comma
  | semi
  | eq
  | minus
  | bar
  | colon
  | plus
  deriving DecidableEq, Repr

/-- What the reader of characters is inside of. -/
inductive LexMode where
  | idle
  | word (w : Ident)
  | zero
  | dec (n : Nat)
  | hexStart
  | hex (n : Nat)
  | slash
  | comment
  | star
  deriving DecidableEq, Repr

/-- The one-character tokens. -/
def punctuation (c : Byte) : Option Token :=
  if c = ch '(' then some .lpar
  else if c = ch ')' then some .rpar
  else if c = ch ',' then some .comma
  else if c = ch ';' then some .semi
  else if c = ch '=' then some .eq
  else if c = ch '-' then some .minus
  else if c = ch '|' then some .bar
  else if c = ch ':' then some .colon
  else if c = ch '+' then some .plus
  else none

/-- Reads the first character of a token, after the token `done` has ended. -/
def lexStart (done : List Token) (c : Byte) : Except DecodeError (List Token × LexMode) :=
  if isSpace c then .ok (done, .idle)
  else if isLetter c then .ok (done, .word [upper c])
  else if c = ch '0' then .ok (done, .zero)
  else if isDigit c then .ok (done, .dec (c.toNat - 48))
  else if c = ch '/' then .ok (done, .slash)
  else match punctuation c with
    | some t => .ok (done ++ [t], .idle)
    | none => .error .badCharacter

/-- Reads one character: the tokens it ends, and what the reader is inside of next. -/
def lexStep (mode : LexMode) (c : Byte) : Except DecodeError (List Token × LexMode) :=
  match mode with
  | .idle => lexStart [] c
  | .word w => if isNameChar c then .ok ([], .word (w ++ [upper c])) else lexStart [.word w] c
  | .zero =>
    if c = ch 'x' ∨ c = ch 'X' then .ok ([], .hexStart)
    else if isDigit c then .ok ([], .dec (c.toNat - 48))
    else if isNameChar c then .error .badCharacter
    else lexStart [.num 0] c
  | .dec n =>
    if isDigit c then .ok ([], .dec (10 * n + (c.toNat - 48)))
    else if isNameChar c then .error .badCharacter
    else lexStart [.num n] c
  | .hexStart =>
    match hexValue c with
    | some v => .ok ([], .hex v)
    | none => .error .badCharacter
  | .hex n =>
    match hexValue c with
    | some v => .ok ([], .hex (16 * n + v))
    | none => if isNameChar c then .error .badCharacter else lexStart [.num n] c
  | .slash => if c = ch '*' then .ok ([], .comment) else .error .badCharacter
  | .comment => if c = ch '*' then .ok ([], .star) else .ok ([], .comment)
  | .star =>
    if c = ch '/' then .ok ([], .idle)
    else if c = ch '*' then .ok ([], .star)
    else .ok ([], .comment)

/-- The tokens that the end of the text ends. -/
def lexFinish (mode : LexMode) : Except DecodeError (List Token) :=
  match mode with
  | .idle => .ok []
  | .word w => .ok [.word w]
  | .zero => .ok [.num 0]
  | .dec n => .ok [.num n]
  | .hex n => .ok [.num n]
  | .hexStart => .error .unfinished
  | .slash => .error .unfinished
  | .comment => .error .unfinished
  | .star => .error .unfinished

/-- The tokens of a text. -/
def lex (mode : LexMode) (text : List Byte) : Except DecodeError (List Token) :=
  match text with
  | [] => lexFinish mode
  | c :: rest =>
    match lexStep mode c with
    | .error e => .error e
    | .ok (ts, mode') =>
      match lex mode' rest with
      | .error e => .error e
      | .ok ts' => .ok (ts ++ ts')

/-! ### Words: keywords, registers, other names -/

/-- The words with a place in the grammar; no universal register has such a name. -/
inductive Keyword where
  | dm
  | pm
  | lw
  | modify
  | bitrev
  | nop
  | bit
  | set
  | tst
  | push
  | sts
  | lcntr
  | doWord
  | untilWord
  | lce
  | ifWord
  deriving DecidableEq, Repr

/-- The spellings of the keywords. -/
def keywords : List (Ident × Keyword) :=
  [(txt ['D', 'M'], .dm), (txt ['P', 'M'], .pm), (txt ['L', 'W'], .lw),
   (txt ['M', 'O', 'D', 'I', 'F', 'Y'], .modify), (txt ['B', 'I', 'T', 'R', 'E', 'V'], .bitrev),
   (txt ['N', 'O', 'P'], .nop), (txt ['B', 'I', 'T'], .bit), (txt ['S', 'E', 'T'], .set), (txt ['T', 'S', 'T'], .tst),
   (txt ['P', 'U', 'S', 'H'], .push), (txt ['S', 'T', 'S'], .sts), (txt ['L', 'C', 'N', 'T', 'R'], .lcntr),
   (txt ['D', 'O'], .doWord), (txt ['U', 'N', 'T', 'I', 'L'], .untilWord), (txt ['L', 'C', 'E'], .lce),
   (txt ['I', 'F'], .ifWord)]

/-- The keyword a word spells. -/
def keywordOf (w : Ident) : Option Keyword := keywords.lookup w

/-- The register number 0 to 15 that digits spell, without leading zeros. -/
def regNumOf (ds : Ident) : Option (Fin 16) :=
  match ds with
  | [d] => if isDigit d then some (Fin.ofNat 16 (d.toNat - 48)) else none
  | [d, e] => if d = ch '1' ∧ 48 ≤ e.toNat ∧ e.toNat ≤ 53 then some (Fin.ofNat 16 (e.toNat - 38)) else none
  | _ => none

/-- The spellings of the control registers; R29 gives STKYX a second one. -/
def systemNames : List (Ident × SystemReg) :=
  [(txt ['M', 'O', 'D', 'E', '1'], .mode1), (txt ['S', 'T', 'K', 'Y', 'X'], .stkyx), (txt ['S', 'T', 'K', 'Y'], .stkyx),
   (txt ['M', 'M', 'A', 'S', 'K'], .mmask)]

/-- The DAG or data register a word spells (R20, R33); Fx is Rx (R102). -/
def fileRegisterOf (w : Ident) : Option Ureg :=
  match w with
  | [] => none
  | c :: ds =>
    match regNumOf ds with
    | none => none
    | some n =>
      if c = ch 'I' then some (.dag .i n)
      else if c = ch 'M' then some (.dag .m n)
      else if c = ch 'L' then some (.dag .l n)
      else if c = ch 'B' then some (.dag .b n)
      else if c = ch 'R' then some (.data ⟨.x, n⟩)
      else if c = ch 'F' then some (.data ⟨.x, n⟩)
      else if c = ch 'S' then some (.data ⟨.y, n⟩)
      else none

/-- The DAG, data or control register a word spells. -/
def registerOf (w : Ident) : Option Ureg := (systemNames.lookup w).elim (fileRegisterOf w) (some ∘ .system)

/-- A token with its word read. A word that is no keyword and no register is `.ureg (.other w)`: another universal register,
a label or a bit name. -/
inductive Item where
  | kw (k : Keyword)
  | ureg (u : Ureg)
  | num (n : Nat)
  | lpar
  | rpar
  | comma
  | semi
  | eq
  | minus
  | bar
  | colon
  | plus
  deriving DecidableEq, Repr

/-- Reads a token's word. -/
def itemOf (t : Token) : Item :=
  match t with
  | .word w =>
    match keywordOf w with
    | some k => .kw k
    | none =>
      match registerOf w with
      | some u => .ureg u
      | none => .ureg (.other w)
  | .num n => .num n
  | .lpar => .lpar
  | .rpar => .rpar
  | .comma => .comma
  | .semi => .semi
  | .eq => .eq
  | .minus => .minus
  | .bar => .bar
  | .colon => .colon
  | .plus => .plus

/-! ### Literals -/

/-- A number with an optional minus sign. -/
def literal (its : List Item) : Option (Int × List Item) :=
  match its with
  | .minus :: .num n :: rest => some (-(n : Int), rest)
  | .num n :: rest => some ((n : Int), rest)
  | _ => none

/-- A Data32 (R92, R97): any value a 32-bit word has as a signed or as an unsigned number. -/
def data32 (v : Int) : Option Word :=
  if -2147483648 ≤ v ∧ v ≤ 4294967295 then some (BitVec.ofInt 32 v) else none

/-- A Data6 (R92, R96): any value six bits have as the platform reads them, or as an unsigned number (log 25). -/
def data6 (p : Platform) (v : Int) : Option (BitVec 6) :=
  if (if p.data6Signed then -32 else 0) ≤ v ∧ v ≤ 63 then some (BitVec.ofInt 6 v) else none

/-- The value a Data6 has (R96): -32 to 31 if the platform reads it as signed, else 0 to 63. -/
def inData6 (p : Platform) (v : Int) : Bool :=
  if p.data6Signed then decide (-32 ≤ v ∧ v ≤ 31) else decide (0 ≤ v ∧ v ≤ 63)

/-! ### Addresses -/

/-- One of the two operands between the parentheses. -/
inductive AddrOp where
  | idx (n : RegNum)
  | mod (n : RegNum)
  | lit (v : Int)
  deriving DecidableEq, Repr

/-- Reads an index register, a modify register or a literal. -/
def addrOp (its : List Item) : Option (AddrOp × List Item) :=
  match its with
  | .ureg (.dag .i n) :: rest => some (.idx n, rest)
  | .ureg (.dag .m n) :: rest => some (.mod n, rest)
  | _ => (literal its).map fun p => (.lit p.1, p.2)

/-- Reads `( operand , operand )`. -/
def addrPair (its : List Item) : Option (AddrOp × AddrOp × List Item) :=
  match its with
  | .lpar :: rest =>
    match addrOp rest with
    | some (x, .comma :: rest') =>
      match addrOp rest' with
      | some (y, .rpar :: rest'') => some (x, y, rest'')
      | _ => none
    | _ => none
  | _ => none

/-- The end of a statement, with or without `(LW)`. -/
def widthEnd (its : List Item) : Option Width :=
  match its with
  | [.semi] => some .nw
  | [.lpar, .kw .lw, .rpar, .semi] => some .lw
  | _ => none

/-- The register an access moves is a data register in a normal word: Tables 4-3 and 4-5 allow it a Data6. -/
def Transfer.takesData6 (t : Transfer) : Bool :=
  match t with
  | .store (.data _) .nw => true
  | .load (.data _) .nw => true
  | _ => false

/-- The access a bus, two operands and a transfer spell (R93). A literal is a Data6 after an index register (Table 4-3). Before
one it is a Data6 if the transfer allows it and the value is one a Data6 has (Table 4-5), else a Data32 (Table 4-6), log 25. -/
def mkAccess (p : Platform) (bus : Bus) (x y : AddrOp) (t : Transfer) : Option Access :=
  match x, y with
  | .idx i, .mod m => some ⟨bus, i, .post, .reg m, t⟩
  | .mod m, .idx i => some ⟨bus, i, .pre, .reg m, t⟩
  | .idx i, .lit v => (data6 p v).map fun k => ⟨bus, i, .post, .imm6 k, t⟩
  | .lit v, .idx i =>
    if t.takesData6 && inData6 p v then some ⟨bus, i, .pre, .imm6 (BitVec.ofInt 6 v), t⟩
    else (data32 v).map fun n => ⟨bus, i, .pre, .imm32 n, t⟩
  | _, _ => none

/-! ### Statements -/

/-- `… = source;` after an address (Tables 4-2 to 4-6). -/
def parseStore (p : Platform) (bus : Bus) (its : List Item) : Option Shape :=
  match addrPair its with
  | some (x, y, .eq :: .ureg u :: rest) =>
    (widthEnd rest).bind fun w => (mkAccess p bus x y (.store u w)).map .access
  | some (x, y, .eq :: rest) =>
    match literal rest with
    | some (v, [.semi]) => (data32 v).bind fun n => (mkAccess p bus x y (.storeImm n)).map .access
    | _ => none
  | _ => none

/-- The second half of the dual move: `r2 = PM(Ic, Md);` (R140). -/
def parseDual (u1 : Ureg) (x y : AddrOp) (its : List Item) : Option Shape :=
  match u1, x, y, its with
  | .data r1, .idx a, .mod b, .ureg (.data r2) :: .eq :: .kw .pm :: rest =>
    match addrPair rest with
    | some (.idx c, .mod d, [.semi]) => some (.dual r1 a b r2 c d)
    | _ => none
  | _, _, _, _ => none

/-- `u = bus(…) …;`. -/
def parseLoad (p : Platform) (u : Ureg) (bus : Bus) (its : List Item) : Option Shape :=
  match addrPair its with
  | some (x, y, .comma :: rest) =>
    match bus with
    | .dm => parseDual u x y rest
    | .pm => none
  | some (x, y, rest) => (widthEnd rest).bind fun w => (mkAccess p bus x y (.load u w)).map .access
  | none => none

/-- `u = …;`: a load, a register move (R172) or an immediate load (R171). -/
def parseAssign (p : Platform) (u : Ureg) (its : List Item) : Option Shape :=
  match its with
  | .kw .dm :: rest => parseLoad p u .dm rest
  | .kw .pm :: rest => parseLoad p u .pm rest
  | [.ureg u2, .semi] => some (.mov u u2)
  | _ =>
    match literal its with
    | some (v, [.semi]) => (data32 v).map fun n => .ldi u n
    | _ => none

/-- `Modify(I, mod);` (R161 to R164). -/
def parseModify (its : List Item) : Option Shape :=
  match addrPair its with
  | some (.idx i, .mod m, [.semi]) => some (.modify i (.reg m))
  | some (.idx i, .lit v, [.semi]) => (data32 v).map fun n => .modify i (.imm32 n)
  | _ => none

/-- `Bitrev(I, Data32);` (R165, R166). -/
def parseBitrev (its : List Item) : Option Shape :=
  match addrPair its with
  | some (.idx i, .lit v, [.semi]) => (data32 v).map fun n => .bitrev i n
  | _ => none

/-- The bit names of MODE1 (R28, R188). -/
def mode1Names : List (Ident × Word) :=
  [(txt ['C', 'B', 'U', 'F', 'E', 'N'], bitMask bitCbufen), (txt ['B', 'D', 'C', 'S', 'T', '1'], bitMask bitBdcst1),
   (txt ['B', 'D', 'C', 'S', 'T', '9'], bitMask bitBdcst9), (txt ['P', 'E', 'Y', 'E', 'N'], bitMask bitPeyen),
   (txt ['S', 'R', 'D', '2', 'L'], bitMask bitSrd2l), (txt ['S', 'R', 'D', '2', 'H'], bitMask bitSrd2h),
   (txt ['S', 'R', 'D', '1', 'L'], bitMask bitSrd1l), (txt ['S', 'R', 'D', '1', 'H'], bitMask bitSrd1h),
   (txt ['B', 'R', '0'], bitMask bitBr0), (txt ['B', 'R', '8'], bitMask bitBr8)]

/-- The bit names of STKYX, at the platform's positions (R29). -/
def stkyxNames (p : Platform) : List (Ident × Word) :=
  [(txt ['C', 'B', '7', 'S'], bitMask p.stkyCb7s), (txt ['C', 'B', '1', '5', 'S'], bitMask p.stkyCb15s)]

/-- A mask: bit names and numbers combined by `|`, up to the end of the statement (R188). DESIGN CHOICE: a number may have a minus
sign, as any other Data32 (log 25). -/
def parseMask (names : List (Ident × Word)) (acc : Word) (its : List Item) : Option Word :=
  match its with
  | [.ureg (.other w), .semi] => (names.lookup w).map fun v => acc ||| v
  | [.num n, .semi] => (data32 n).map fun v => acc ||| v
  | [.minus, .num n, .semi] => (data32 (-(n : Int))).map fun v => acc ||| v
  | .ureg (.other w) :: .bar :: rest =>
    match names.lookup w with
    | some v => parseMask names (acc ||| v) rest
    | none => none
  | .num n :: .bar :: rest =>
    match data32 n with
    | some v => parseMask names (acc ||| v) rest
    | none => none
  | .minus :: .num n :: .bar :: rest =>
    match data32 (-(n : Int)) with
    | some v => parseMask names (acc ||| v) rest
    | none => none
  | _ => none

/-- `LCNTR = n, DO l UNTIL LCE;` after its first word (R192). -/
def parseDo (its : List Item) : Option Shape :=
  match its with
  | .eq :: rest =>
    match literal rest with
    | some (v, [.comma, .kw .doWord, .ureg (.other l), .kw .untilWord, .kw .lce, .semi]) => (data32 v).map fun n => .doUntil n l
    | _ => none
  | _ => none

/-- A statement without its label. -/
def parseBody (p : Platform) (its : List Item) : Option Shape :=
  match its with
  | .kw .dm :: rest => parseStore p .dm rest
  | .kw .pm :: rest => parseStore p .pm rest
  | .kw .modify :: rest => parseModify rest
  | .kw .bitrev :: rest => parseBitrev rest
  | .kw .bit :: .kw .set :: .ureg (.system .mode1) :: rest => (parseMask mode1Names 0#32 rest).map .bitset
  | .kw .bit :: .kw .tst :: .ureg (.system .stkyx) :: rest => (parseMask (stkyxNames p) 0#32 rest).map .bittst
  | [.kw .nop, .semi] => some .nop
  | [.kw .push, .kw .sts, .semi] => some .pushSts
  | .kw .lcntr :: rest => parseDo rest
  | .ureg u :: .eq :: rest => parseAssign p u rest
  | _ => none

/-- A statement, with or without a label before it (R91). DESIGN CHOICE: a label begins with a letter and is spelled like no register
and no word of the grammar (log 25). -/
def parseStatement (p : Platform) (its : List Item) : Option Shape :=
  match its with
  | .ureg (.other _) :: .colon :: rest => parseBody p rest
  | _ => parseBody p its

/-! ### Rows -/

/-- The DAG1 number of a register. -/
def asDag1 (n : RegNum) : Option (Fin 8) := if h : n.val < 8 then some ⟨n.val, h⟩ else none

/-- The DAG2 number, less 8, of a register. -/
def asDag2 (n : RegNum) : Option (Fin 8) := if h : n.val < 8 then none else some ⟨n.val - 8, by omega⟩

/-- The row of a DM access, its registers being of DAG1 (R94). -/
def Access.rowDm (a : Fin 8) (x : Access) : Except DecodeError Instr :=
  match x.order, x.mod, x.xfer with
  | .post, .reg m, .store u w => (asDag1 m).elim (.error .mixedDags) fun b => .ok (.stDmPostm a b u w)
  | .post, .reg m, .load u w => (asDag1 m).elim (.error .mixedDags) fun b => .ok (.ldDmPostm u a b w)
  | .post, .reg m, .storeImm n => (asDag1 m).elim (.error .mixedDags) fun b => .ok (.stiDmPostm a b n)
  | .post, .imm6 k, .store (.data r) .nw => .ok (.stDmPost6 a k r)
  | .post, .imm6 k, .load (.data r) .nw => .ok (.ldDmPost6 r a k)
  | .pre, .reg m, .store u w => (asDag1 m).elim (.error .mixedDags) fun b => .ok (.stDmPrem b a u w)
  | .pre, .reg m, .load u w => (asDag1 m).elim (.error .mixedDags) fun b => .ok (.ldDmPrem u b a w)
  | .pre, .imm6 k, .store (.data r) .nw => .ok (.stDmPre6 k a r)
  | .pre, .imm6 k, .load (.data r) .nw => .ok (.ldDmPre6 r k a)
  | .pre, .imm32 n, .load u w => .ok (.ldDmPre32 u n a w)
  | .pre, .imm32 n, .store u w => .ok (.stDmPre32 n a u w)
  | _, _, _ => .error .noSuchForm

/-- The row of a PM access, its registers being of DAG2 (R94). -/
def Access.rowPm (c : Fin 8) (x : Access) : Except DecodeError Instr :=
  match x.order, x.mod, x.xfer with
  | .post, .reg m, .store u w => (asDag2 m).elim (.error .mixedDags) fun d => .ok (.stPmPostm c d u w)
  | .post, .reg m, .load u w => (asDag2 m).elim (.error .mixedDags) fun d => .ok (.ldPmPostm u c d w)
  | .post, .reg m, .storeImm n => (asDag2 m).elim (.error .mixedDags) fun d => .ok (.stiPmPostm c d n)
  | .post, .imm6 k, .store (.data r) .nw => .ok (.stPmPost6 c k r)
  | .post, .imm6 k, .load (.data r) .nw => .ok (.ldPmPost6 r c k)
  | .pre, .reg m, .store u w => (asDag2 m).elim (.error .mixedDags) fun d => .ok (.stPmPrem d c u w)
  | .pre, .reg m, .load u w => (asDag2 m).elim (.error .mixedDags) fun d => .ok (.ldPmPrem u d c w)
  | .pre, .imm6 k, .store (.data r) .nw => .ok (.stPmPre6 k c r)
  | .pre, .imm6 k, .load (.data r) .nw => .ok (.ldPmPre6 r k c)
  | .pre, .imm32 n, .load u w => .ok (.ldPmPre32 u n c w)
  | .pre, .imm32 n, .store u w => .ok (.stPmPre32 n c u w)
  | _, _, _ => .error .noSuchForm

/-- The row of an access: DM goes with DAG1 and PM with DAG2 (R98). -/
def Access.row (x : Access) : Except DecodeError Instr :=
  match x.bus with
  | .dm => (asDag1 x.idx).elim (.error .mixedDags) fun a => x.rowDm a
  | .pm => (asDag2 x.idx).elim (.error .mixedDags) fun c => x.rowPm c

/-- The row of LD.DUAL, its registers being of DAG1 and of DAG2 (R140). -/
def rowDual (r1 : Dreg) (a b : RegNum) (r2 : Dreg) (c d : RegNum) : Except DecodeError Instr :=
  match asDag1 a, asDag1 b, asDag2 c, asDag2 d with
  | some a', some b', some c', some d' => .ok (.ldDual r1 a' b' r2 c' d')
  | _, _, _, _ => .error .mixedDags

/-- The row of Modify: both registers are of one DAG (R98). -/
def rowModify (i : RegNum) (m : Modifier) : Except DecodeError Instr :=
  match m, asDag1 i, asDag2 i with
  | .reg k, some a, _ => (asDag1 k).elim (.error .mixedDags) fun b => .ok (.modifyMDag1 a b)
  | .reg k, _, some c => (asDag2 k).elim (.error .mixedDags) fun d => .ok (.modifyMDag2 c d)
  | .imm32 n, some a, _ => .ok (.modifyIDag1 a n)
  | .imm32 n, _, some c => .ok (.modifyIDag2 c n)
  | _, _, _ => .error .noSuchForm

/-- The row of Bitrev. -/
def rowBitrev (i : RegNum) (n : Word) : Except DecodeError Instr :=
  match asDag1 i, asDag2 i with
  | some a, _ => .ok (.bitrevDag1 a n)
  | _, some c => .ok (.bitrevDag2 c n)
  | none, none => .error .noSuchForm

/-- The row of R94 and R95 that a shape is an instance of. -/
def Shape.row (sh : Shape) : Except DecodeError Instr :=
  match sh with
  | .access x => x.row
  | .dual r1 a b r2 c d => rowDual r1 a b r2 c d
  | .modify i m => rowModify i m
  | .bitrev i n => rowBitrev i n
  | .ldi u n => .ok (.ldiUreg u n)
  | .mov u1 u2 => .ok (.movUreg u1 u2)
  | .bitset n => .ok (.bitsetMode1 n)
  | .nop => .ok .nop
  | .bittst n => .ok (.bittstStkyx n)
  | .pushSts => .ok .pushSts
  | .doUntil n l => .ok (.doUntil n l)

/-- The instruction a statement's text spells: total on any bytes, rejecting by name. -/
def decode (p : Platform) (text : List Byte) : Except DecodeError Instr :=
  match lex .idle text with
  | .error e => .error e
  | .ok ts =>
    match parseStatement p (ts.map itemOf) with
    | none => .error .noSuchForm
    | some sh => sh.row

/-! ### The encoder -/

/-- The decimal spelling of a register number. -/
def regDigits (n : Fin 16) : Ident :=
  if n.val < 10 then [BitVec.ofNat 8 (48 + n.val)] else [ch '1', BitVec.ofNat 8 (38 + n.val)]

/-- The letter of a DAG register type. -/
def DagType.letter (t : DagType) : Byte :=
  match t with
  | .i => ch 'I'
  | .m => ch 'M'
  | .l => ch 'L'
  | .b => ch 'B'

/-- The spelling of a control register. -/
def SystemReg.spell (r : SystemReg) : Ident :=
  match r with
  | .mode1 => txt ['M', 'O', 'D', 'E', '1']
  | .stkyx => txt ['S', 'T', 'K', 'Y', 'X']
  | .mmask => txt ['M', 'M', 'A', 'S', 'K']

/-- The spelling of a universal register. -/
def Ureg.spell (u : Ureg) : Ident :=
  match u with
  | .dag t n => t.letter :: regDigits n
  | .data ⟨.x, n⟩ => ch 'R' :: regDigits n
  | .data ⟨.y, n⟩ => ch 'S' :: regDigits n
  | .system r => r.spell
  | .other w => w

/-- The spelling of a keyword. -/
def Keyword.spell (k : Keyword) : Ident :=
  match k with
  | .dm => txt ['D', 'M']
  | .pm => txt ['P', 'M']
  | .lw => txt ['L', 'W']
  | .modify => txt ['M', 'O', 'D', 'I', 'F', 'Y']
  | .bitrev => txt ['B', 'I', 'T', 'R', 'E', 'V']
  | .nop => txt ['N', 'O', 'P']
  | .bit => txt ['B', 'I', 'T']
  | .set => txt ['S', 'E', 'T']
  | .tst => txt ['T', 'S', 'T']
  | .push => txt ['P', 'U', 'S', 'H']
  | .sts => txt ['S', 'T', 'S']
  | .lcntr => txt ['L', 'C', 'N', 'T', 'R']
  | .doWord => txt ['D', 'O']
  | .untilWord => txt ['U', 'N', 'T', 'I', 'L']
  | .lce => txt ['L', 'C', 'E']
  | .ifWord => txt ['I', 'F']

/-- The upper-case hexadecimal digit of a value below 16. -/
def hexDigit (v : Nat) : Byte := if v < 10 then BitVec.ofNat 8 (48 + v) else BitVec.ofNat 8 (55 + v)

/-- The last `k` hexadecimal digits of a number. -/
def hexDigits (k : Nat) (n : Nat) : List Byte :=
  match k with
  | 0 => []
  | k + 1 => hexDigits k (n / 16) ++ [hexDigit (n % 16)]

/-- The text of an item, ended by a space. A number is `0x` and eight digits. -/
def Item.bytes (it : Item) : List Byte :=
  match it with
  | .kw k => k.spell ++ [ch ' ']
  | .ureg u => u.spell ++ [ch ' ']
  | .num n => ch '0' :: ch 'x' :: hexDigits 8 n ++ [ch ' ']
  | .lpar => [ch '(', ch ' ']
  | .rpar => [ch ')', ch ' ']
  | .comma => [ch ',', ch ' ']
  | .semi => [ch ';', ch ' ']
  | .eq => [ch '=', ch ' ']
  | .minus => [ch '-', ch ' ']
  | .bar => [ch '|', ch ' ']
  | .colon => [ch ':', ch ' ']
  | .plus => [ch '+', ch ' ']

/-- The items of a modifier: a Data6 is written as the number the platform reads it as (R96). -/
def Modifier.items (p : Platform) (m : Modifier) : List Item :=
  match m with
  | .reg k => [.ureg (.dag .m k)]
  | .imm6 k => if p.data6Signed = false ∨ k.toNat < 32 then [.num k.toNat] else [.minus, .num (64 - k.toNat)]
  | .imm32 n => [.num n.toNat]

/-- The word of a bus (R60). -/
def Bus.keyword (bus : Bus) : Keyword :=
  match bus with
  | .dm => .dm
  | .pm => .pm

/-- The items of `bus(…)` (R93). -/
def Access.addrItems (p : Platform) (x : Access) : List Item :=
  .kw x.bus.keyword :: .lpar ::
    (match x.order with
     | .post => .ureg (.dag .i x.idx) :: .comma :: x.mod.items p
     | .pre => x.mod.items p ++ [.comma, .ureg (.dag .i x.idx)]) ++ [.rpar]

/-- The items of the end of a statement. -/
def Width.items (w : Width) : List Item :=
  match w with
  | .nw => [.semi]
  | .lw => [.lpar, .kw .lw, .rpar, .semi]

/-- The items of an access. -/
def Access.items (p : Platform) (x : Access) : List Item :=
  match x.xfer with
  | .store u w => x.addrItems p ++ .eq :: .ureg u :: w.items
  | .storeImm n => x.addrItems p ++ [.eq, .num n.toNat, .semi]
  | .load u w => .ureg u :: .eq :: x.addrItems p ++ w.items

/-- The items of a statement (R103's patterns). -/
def Shape.items (p : Platform) (sh : Shape) : List Item :=
  match sh with
  | .access x => x.items p
  | .dual r1 a b r2 c d =>
    [.ureg (.data r1), .eq, .kw .dm, .lpar, .ureg (.dag .i a), .comma, .ureg (.dag .m b), .rpar, .comma,
     .ureg (.data r2), .eq, .kw .pm, .lpar, .ureg (.dag .i c), .comma, .ureg (.dag .m d), .rpar, .semi]
  | .modify i m => .kw .modify :: .lpar :: .ureg (.dag .i i) :: .comma :: m.items p ++ [.rpar, .semi]
  | .bitrev i n => [.kw .bitrev, .lpar, .ureg (.dag .i i), .comma, .num n.toNat, .rpar, .semi]
  | .ldi u n => [.ureg u, .eq, .num n.toNat, .semi]
  | .mov u1 u2 => [.ureg u1, .eq, .ureg u2, .semi]
  | .bitset n => [.kw .bit, .kw .set, .ureg (.system .mode1), .num n.toNat, .semi]
  | .nop => [.kw .nop, .semi]
  | .bittst n => [.kw .bit, .kw .tst, .ureg (.system .stkyx), .num n.toNat, .semi]
  | .pushSts => [.kw .push, .kw .sts, .semi]
  | .doUntil n l => [.kw .lcntr, .eq, .num n.toNat, .comma, .kw .doWord, .ureg (.other l), .kw .untilWord, .kw .lce, .semi]

/-- The text of an instruction. -/
def encode (p : Platform) (i : Instr) : List Byte := (i.shape.items p).flatMap Item.bytes

/-- A name the decoder reads as itself: a letter, then letters, digits or underscores, all upper case, and no keyword or
register. -/
def identOk (w : Ident) : Bool :=
  match w with
  | [] => false
  | c :: cs => isLetter c && (c :: cs).all (fun d => isNameChar d && upper d == d)
      && (keywordOf w).isNone && (registerOf w).isNone

/-- A universal register whose name can be written. -/
def Ureg.spellable (u : Ureg) : Bool :=
  match u with
  | .other w => identOk w
  | _ => true

/-- The names of the instruction can be written; every instruction that names none can. -/
def Shape.spellable (sh : Shape) : Bool :=
  match sh with
  | .access x =>
    match x.xfer with
    | .store u _ => u.spellable
    | .load u _ => u.spellable
    | .storeImm _ => true
  | .ldi u _ => u.spellable
  | .mov u1 u2 => u1.spellable && u2.spellable
  | .doUntil _ l => identOk l
  | _ => true

/-- The names of the instruction can be written. -/
def Instr.spellable (i : Instr) : Bool := i.shape.spellable

/-- The offsets that a Data6 and a Data32 both have when a Data32 is written without a minus sign: 0 to 31 or 0 to 63 (R96). -/
def data6Limit (p : Platform) : Nat := if p.data6Signed then 32 else 64

/-- Tables 4-5 and 4-6 give one text two rows where a data register moves and the offset fits a Data6: it is read as the row
with the Data6 (log 25). The instruction read from another row's text of that form; every other is read as itself. -/
def Instr.canon (p : Platform) (i : Instr) : Instr :=
  match i with
  | .ldDmPre32 (.data r) n a .nw => if n.toNat < data6Limit p then .ldDmPre6 r (n.setWidth 6) a else i
  | .ldPmPre32 (.data r) n c .nw => if n.toNat < data6Limit p then .ldPmPre6 r (n.setWidth 6) c else i
  | .stDmPre32 n a (.data r) .nw => if n.toNat < data6Limit p then .stDmPre6 (n.setWidth 6) a r else i
  | .stPmPre32 n c (.data r) .nw => if n.toNat < data6Limit p then .stPmPre6 (n.setWidth 6) c r else i
  | _ => i

/-! ### The host's numbering -/

/-- The first `k` bytes of a number, its least significant byte first. -/
def bytesOfNat (k : Nat) (w : Nat) : List Byte :=
  match k with
  | 0 => []
  | k + 1 => BitVec.ofNat 8 w :: bytesOfNat k (w / 256)

/-- The instruction whose text is the `nbits / 8` bytes of `w`, the first character in bits 7-0. The table gives its rows no bits
(R103), so the text itself is what the host's number can hold (log 1), read as on the platform State.reset stands on. -/
def decodeTableWord (nbits w : Nat) : Option Instr :=
  match decode Platform.default (bytesOfNat (nbits / 8) w) with
  | .ok i => some i
  | .error _ => none

end Sys2Proof
end

