-- ==== Sys2Proof/Machine/State.lean ====
section
/-! DEFINITION. The state of the machine (rule R40) as plain data, the reasons a step can stop, and the state after reset (R36). -/

namespace Sys2Proof.Machine

/-- One copy of the DAG registers: I0-I15, M0-M15, L0-L15, B0-B15 (R20, R22). -/
structure DagBank where
  i : Vector Word 16
  m : Vector Word 16
  l : Vector Word 16
  b : Vector Word 16
  deriving DecidableEq, Repr

/-- Memory: the words that have been written, by address, addresses strictly rising (R62). An address not listed has no
value (R64). The smallest unit of memory is a 32-bit word; no byte is addressable (R66), log 5. -/
abbrev Memory := List (Nat × Word)

/-- The kinds of event `Core` can report (R236). -/
inductive EventKind where
  | cb7
  | cb15
  | external
  | timer
  | vectored
  | other
  deriving DecidableEq, Repr

/-- An event between two statements: its kind, and the statement at which `Core` goes on (R236: "where pc goes ... is Core's"). -/
structure CoreEvent where
  kind : EventKind
  pc : Nat
  deriving DecidableEq, Repr

/-- The reasons a step ends in a fault: the spec's `fault` and `stuck` (R10, R231). None is an event of the hardware (R230). -/
inductive Fault where
  /-- R64 `stuck`: `Admit` rejects the address. Raised by every memory access. Safe. -/
  | notAdmitted
  /-- R64: a cell that nothing has written is read. Raised by loads. Safe. -/
  | unwrittenMemory
  /-- R116: a requirement on an active circular buffer does not hold. Raised by post-modify accesses and Modify. Safe. -/
  | circularPrecondition
  /-- R69: a pre-modify address lies in another memory space than the index. Raised by pre-modify accesses. Safe. -/
  | memorySpaceChanged
  /-- R263: the statement depends on a MODE1 bit that the statement before it changed. Raised by `check`. Safe. -/
  | mode1Latency
  /-- R176: a data-register or immediate access in SIMD mode that is no broadcast load. Raised by `check`. Safe. -/
  | simdDataMovement
  /-- R179: `(LW)` with a register that is not a DAG register. Raised by `check`; a step refuses it before. Safe. -/
  | longWordNonDag
  /-- R185: a store of a DAG register through its own DAG. Raised by `check`; a step refuses it before. Safe. -/
  | sameDagStore
  /-- R186: a post-modify load of a DAG register through its own DAG. Raised by `check`; a step refuses it before. Safe. -/
  | sameDagLoad
  /-- R34: `pc` is past the last statement; the run is over. Raised by the step. Safe. -/
  | endOfProgram
  deriving DecidableEq, Repr

/-- The reasons a step is refused: the spec's `refused` (R10). -/
inductive Refusal where
  /-- The instruction has no meaning yet. Raised by `exec` alone. Safe. -/
  | notModelled (mnemonic : String)
  /-- The text of the statement spells no instruction (R98, R101, R141). Raised by the step. Safe. -/
  | undecodable (e : DecodeError)
  /-- The statement fails the static part of `Check` (R187). Raised by the step, and by `check` for R140 and R172. Safe. -/
  | illFormed (w : IllFormed)
  /-- R32: the named register is no universal register of the platform. Raised by register reads and writes. Safe. -/
  | notUniversalRegister (name : Ident)
  /-- R192: the loop statement, which the source never defines. Raised by DO.UNTIL. Safe. -/
  | loopNotSpecified
  deriving DecidableEq, Repr

/-- The state of the machine. INVENTORY.md lists each field with its rule and its reset value. -/
structure State where
  /-- The primary DAG registers (R22). -/
  prim : DagBank
  /-- The alternate DAG registers (R22). -/
  alt : DagBank
  /-- MODE1 (R28). -/
  mode1 : Word
  /-- STKYX (R29): the flags CB7S and CB15S at the positions `plat` gives; other bits are kept, log 9. -/
  stkyx : Word
  /-- MMASK (R31): bit 24 masks CBUFEN; other bits are kept. -/
  mmask : Word
  /-- The latch IRQ.CB7 (R35). -/
  irqCb7 : Bool
  /-- The latch IRQ.CB15 (R35). -/
  irqCb15 : Bool
  /-- R0-R15, the data registers of PEx (R33). -/
  pex : Vector DataWord 16
  /-- S0-S15, the data registers of PEy (R33). -/
  pey : Vector DataWord 16
  /-- The other universal registers (R32): the names listed are the rest of UregSet, ASTAT among them, log 7. -/
  others : List (Ident × Word)
  /-- The memory (R62). -/
  mem : Memory
  /-- mode1_changed (R37): the MODE1 bits that the previous statement changed. -/
  mode1Changed : Word
  /-- The index of the current statement (R34). -/
  pc : Nat
  /-- The model's own: the value BIT TST last tested (R190 defines it and gives it no place), log 11. -/
  bitTested : Bool
  /-- The model's own: how many free values have been used, log 10. -/
  draws : Nat
  /-- The program: the text of each statement (R34, R77); no step changes it, log 1. -/
  prog : List (List Byte)
  /-- What `Core` answers at the coming boundaries between statements (R236), log 12; at the end of the list, always none. -/
  core : List (Option CoreEvent)
  /-- The platform's parameters (R6); no step changes them, log 7, 8, 9. -/
  plat : Platform
  deriving DecidableEq, Repr

/-- A bank whose registers are all zero. -/
def DagBank.zero : DagBank :=
  ⟨Vector.replicate 16 0#32, Vector.replicate 16 0#32, Vector.replicate 16 0#32, Vector.replicate 16 0#32⟩

/-- The name ASTAT (R32). -/
def astatName : Ident := [0x41#8, 0x53#8, 0x54#8, 0x41#8, 0x54#8]

/-- The state after reset (R36, R260). Values the spec does not give are zero: DESIGN CHOICE or PRESUMED (unsafe), log 3 and 4. -/
def State.reset : State where
  prim := DagBank.zero
  alt := DagBank.zero
  mode1 := 0#32
  stkyx := 0#32
  mmask := 0#32
  irqCb7 := false
  irqCb15 := false
  pex := Vector.replicate 16 0#40
  pey := Vector.replicate 16 0#40
  others := [(astatName, 0#32)]
  mem := []
  mode1Changed := 0#32
  pc := 0
  bitTested := false
  draws := 0
  prog := []
  core := []
  plat := Platform.default

end Sys2Proof.Machine
end

