-- ==== Sys2Proof/Machine/Ops.lean ====
section
/-! DEFINITION. The named operations over registers and memory; Core events, the one entry the spec gives an interrupt. -/

namespace Sys2Proof.Machine

/-! ### Stops -/

/-- Why a statement has no next state. -/
inductive Stop where
  | fault (f : Fault)
  | refused (r : Refusal)
  deriving DecidableEq, Repr

/-- The outcome of a stop. -/
def halt (e : Stop) : Host.Outcome State Fault Refusal :=
  match e with
  | .fault f => .fault f
  | .refused r => .refused r

/-- The outcome of a computation of the next state. -/
def finish (r : Except Stop State) : Host.Outcome State Fault Refusal :=
  match r with
  | .ok s => .next s
  | .error e => halt e

/-! ### MODE1 and its bits -/

/-- A bit of MODE1 (R28). -/
def mode1Bit (s : State) (k : Nat) : Bool := s.mode1.getLsbD k

/-- MODE1.CBUFEN (R28, R114). -/
def cbufen (s : State) : Bool := mode1Bit s bitCbufen

/-- MODE1.PEYEN: SIMD mode (R28). -/
def peyen (s : State) : Bool := mode1Bit s bitPeyen

/-- A write of MODE1 by a statement: the bits it changes are recorded for the next statement (R37, R188). -/
def writeMode1 (s : State) (v : Word) : State := { s with mode1 := v, mode1Changed := s.mode1 ^^^ v }

/-- MMASK.CBUFEN, bit 24 (R31). -/
def mmaskCbufen (s : State) : Bool := s.mmask.getLsbD bitCbufen

/-- MODE1 with CBUFEN cleared if MMASK.CBUFEN is 1 (R238). -/
def mode1Masked (s : State) : Word :=
  if mmaskCbufen s then s.mode1 &&& ~~~(bitMask bitCbufen) else s.mode1

/-! ### DAG registers -/

/-- The MODE1 bit that selects the copy of the registers with number `n` (R22). -/
def groupBit (n : RegNum) : Nat :=
  if n.val < 4 then bitSrd1l
  else if n.val < 8 then bitSrd1h
  else if n.val < 12 then bitSrd2l
  else bitSrd2h

/-- The alternate copy of the registers with number `n` is selected (R22). -/
def altSelected (s : State) (n : RegNum) : Bool := mode1Bit s (groupBit n)

/-- A register of a bank. -/
def bankRead (k : DagBank) (t : DagType) (n : RegNum) : Word :=
  match t with
  | .i => k.i[n]
  | .m => k.m[n]
  | .l => k.l[n]
  | .b => k.b[n]

/-- A bank with one register written. -/
def bankWrite (k : DagBank) (t : DagType) (n : RegNum) (v : Word) : DagBank :=
  match t with
  | .i => { k with i := k.i.set n v }
  | .m => { k with m := k.m.set n v }
  | .l => { k with l := k.l.set n v }
  | .b => { k with b := k.b.set n v }

/-- `X[n]`: the selected copy of a DAG register (R9, R22). -/
def dagRead (s : State) (t : DagType) (n : RegNum) : Word :=
  bankRead (if altSelected s n then s.alt else s.prim) t n

/-- The copy of a DAG register that is not selected (R23). -/
def dagHidden (s : State) (t : DagType) (n : RegNum) : Word :=
  bankRead (if altSelected s n then s.prim else s.alt) t n

/-- A write of the selected copy of one DAG register and of nothing else (R22, R23). -/
def dagPut (s : State) (t : DagType) (n : RegNum) (v : Word) : State :=
  { s with
    prim := if altSelected s n then s.prim else bankWrite s.prim t n v
    alt := if altSelected s n then bankWrite s.alt t n v else s.alt }

/-- `X[n] <- v`: a write of B also writes I (R24, R193); any other writes one register (R25). -/
def dagWrite (s : State) (t : DagType) (n : RegNum) (v : Word) : State :=
  match t with
  | .b => dagPut (dagPut s .b n v) .i n v
  | .i => dagPut s .i n v
  | .m => dagPut s .m n v
  | .l => dagPut s .l n v

/-- The other register of a pair: the numbers differ in bit 0 (R26, R178). -/
def partner (n : RegNum) : RegNum := n ^^^ 1

/-! ### Data registers and other universal registers -/

/-- A data register (R33). -/
def dataRead (s : State) (d : Dreg) : DataWord :=
  match d.pe with
  | .x => s.pex[d.num]
  | .y => s.pey[d.num]

/-- A write of a data register. -/
def dataWrite (s : State) (d : Dreg) (v : DataWord) : State :=
  match d.pe with
  | .x => { s with pex := s.pex.set d.num v }
  | .y => { s with pey := s.pey.set d.num v }

/-- The complementary register: Rx and Sx are a pair (R33, R172). -/
def comp (d : Dreg) : Dreg :=
  match d.pe with
  | .x => ⟨.y, d.num⟩
  | .y => ⟨.x, d.num⟩

/-- Another universal register; `none` if the platform has none of that name (R32). -/
def otherRead (s : State) (name : Ident) : Option Word := s.others.lookup name

/-- A write of another universal register; a name the platform does not have changes nothing (R32). -/
def otherWrite (s : State) (name : Ident) (v : Word) : State :=
  { s with others := s.others.map fun e => if e.1 = name then (e.1, v) else e }

/-! ### Control registers -/

/-- The word a control register holds (R28, R29, R31). In the latency slot of a MODE1 write it is the new MODE1: DESIGN CHOICE
(N10 leaves open what the slot sees), log 39. -/
def systemRead (s : State) (r : SystemReg) : Word :=
  match r with
  | .mode1 => s.mode1
  | .stkyx => s.stkyx
  | .mmask => s.mmask

/-- A write of a whole control register; of MODE1, with the bits it changes recorded (R37), log 30. -/
def systemWrite (s : State) (r : SystemReg) (v : Word) : State :=
  match r with
  | .mode1 => writeMode1 s v
  | .stkyx => { s with stkyx := v }
  | .mmask => { s with mmask := v }

/-- The control register is in `UregSet` (R32), log 30. -/
def isSystemUreg (s : State) (r : SystemReg) : Bool := decide (r ∈ s.plat.systemUregs)

/-- `f` as MODE1 was before the statement: a statement that loads MODE1 updates the index register it addressed with (R122), whichever
copy the load selects. DEDUCED, log 38. -/
def underMode (m : Word) (f : State → State) (s : State) : State := { f { s with mode1 := m } with mode1 := s.mode1 }

/-! ### Memory -/

/-- The word at an address; `none` if nothing has written it (R64). -/
def cellRead (m : Memory) (a : Nat) : Option Word :=
  match m with
  | [] => none
  | (k, v) :: rest => if k = a then some v else cellRead rest a

/-- A write of the word at an address, keeping the addresses strictly rising. -/
def cellWrite (m : Memory) (a : Nat) (v : Word) : Memory :=
  match m with
  | [] => [(a, v)]
  | (k, u) :: rest =>
    if a < k then (a, v) :: (k, u) :: rest
    else if a = k then (a, v) :: rest
    else (k, u) :: cellWrite rest a v

/-- `Admit(bus, a, w)` (R6, R64). -/
def admitted (s : State) (bus : Bus) (w : Width) (a : Word) : Bool :=
  s.plat.admits.any fun r =>
    decide (r.bus = bus) && decide (r.width = w) && decide (r.first ≤ a.toNat) && decide (a.toNat ≤ r.last)

/-- The number of the memory space an address lies in. -/
def spaceOf (ranges : List SpaceRange) (a : Word) : Nat :=
  match ranges with
  | [] => 0
  | r :: rest => if r.first ≤ a.toNat ∧ a.toNat ≤ r.last then r.space else spaceOf rest a

/-- `SameSpace(a, b)` (R6, R69). -/
def sameSpace (s : State) (a b : Word) : Bool := spaceOf s.plat.spaces a == spaceOf s.plat.spaces b

/-- The cells of the long word at an address: the first range that holds it, else the even address and the one after it. -/
def cellsIn (ranges : List LongWordRange) (a : Word) : Word × Word :=
  match ranges with
  | [] => (a &&& ~~~1#32, (a &&& ~~~1#32) + 1#32)
  | r :: rest => if r.first ≤ a.toNat ∧ a.toNat ≤ r.last then ((a &&& r.mask) + r.lo, (a &&& r.mask) + r.hi) else cellsIn rest a

/-- `LongWordCells(a)`: the cells of bits 31-0 and of bits 63-32 of the long word at `a` (R6, R67), log 8. -/
def longWordCells (s : State) (a : Word) : Word × Word := cellsIn s.plat.longWords a

/-- `mem[a]`, a fault if nothing has written it (R64). -/
def cell (s : State) (a : Word) : Except Stop Word :=
  match cellRead s.mem a.toNat with
  | some v => .ok v
  | none => .error (.fault .unwrittenMemory)

/-- `mem[a] <- v`. -/
def setCell (s : State) (a : Word) (v : Word) : State := { s with mem := cellWrite s.mem a.toNat v }

/-- `MemRead(bus, a, NW)` (R64). -/
def memReadNw (s : State) (bus : Bus) (a : Word) : Except Stop Word :=
  if admitted s bus .nw a then cell s a else .error (.fault .notAdmitted)

/-- `MemWrite(bus, a, NW, v)` (R64). -/
def memWriteNw (s : State) (bus : Bus) (a : Word) (v : Word) : Except Stop State :=
  if admitted s bus .nw a then .ok (setCell s a v) else .error (.fault .notAdmitted)

/-- `MemRead(bus, a, LW)`: bits 31-0 from the first cell of the long word, bits 63-32 from the second (R64). -/
def memReadLw (s : State) (bus : Bus) (a : Word) : Except Stop LongWord :=
  if admitted s bus .lw a then
    match cell s (longWordCells s a).1 with
    | .error e => .error e
    | .ok lo =>
      match cell s (longWordCells s a).2 with
      | .error e => .error e
      | .ok hi => .ok (hi ++ lo)
  else .error (.fault .notAdmitted)

/-- `MemWrite(bus, a, LW, v)` (R64). -/
def memWriteLw (s : State) (bus : Bus) (a : Word) (v : LongWord) : Except Stop State :=
  if admitted s bus .lw a then
    .ok (setCell (setCell s (longWordCells s a).1 (v.extractLsb' 0 32)) (longWordCells s a).2 (v.extractLsb' 32 32))
  else .error (.fault .notAdmitted)

/-- The addresses an access of a width at `a` touches (R67, R73). -/
def cellsOf (s : State) (w : Width) (a : Word) : List Word :=
  match w with
  | .nw => [a]
  | .lw => [(longWordCells s a).1, (longWordCells s a).2]

/-! ### The program -/

/-- `pc <- pc + 1` (R34). -/
def advance (s : State) : State := { s with pc := s.pc + 1 }

/-- The end of the MODE1 write in flight (R37, R263). -/
def clearLatency (s : State) : State := { s with mode1Changed := 0#32 }

/-- The text of the current statement; `none` past the last one (R34). -/
def fetchText (s : State) : Option (List Byte) := s.prog[s.pc]?

/-- The program with a statement's text placed at an index, empty statements filling any gap before it. -/
def placeText (prog : List (List Byte)) (k : Nat) (text : List Byte) : List (List Byte) :=
  if k < prog.length then prog.set k text
  else prog ++ List.replicate (k - prog.length) [] ++ [text]

/-! ### Core events -/

/-- The kinds of event on which MMASK can clear CBUFEN (R238). -/
def EventKind.clearsCbufen (k : EventKind) : Bool :=
  match k with
  | .external => true
  | .timer => true
  | .vectored => true
  | .cb7 => false
  | .cb15 => false
  | .other => false

/-- `Core` takes an event between two statements (R236, R238): its latch is cleared, CBUFEN is cleared if MMASK says so and the
event is of a kind that does, and the run goes on where `Core` says. What `Core` saves is not in the spec (R237), log 12.
DESIGN CHOICE: no MODE1 write stays in flight after an event of any kind; R238 says so where it speaks of its own kinds. -/
def takeEvent (e : CoreEvent) (s : State) : State :=
  { s with
    irqCb7 := s.irqCb7 && decide (e.kind ≠ .cb7)
    irqCb15 := s.irqCb15 && decide (e.kind ≠ .cb15)
    mode1 := if e.kind.clearsCbufen then mode1Masked s else s.mode1
    mode1Changed := 0#32
    pc := e.pc }

end Sys2Proof.Machine
end

