-- ==== Sys2Proof/Machine/Flags.lean ====
section
/-! DEFINITION. The overflow status of I7 and I15: the sticky flags, the request latches, and the events that set them
(rules R120, R121). -/

namespace Sys2Proof.Machine

/-- What an index update does to the overflow status: nothing, sets it, or is a free value (`draw`). -/
inductive OverflowKind where
  | no
  | sure
  | draw
  deriving DecidableEq, Repr

/-- What updates an index register (R120). -/
inductive Cause where
  | access
  | modify
  deriving DecidableEq, Repr

/-- The index registers that have a flag and an interrupt: I7 and I15 (R120). -/
def hasFlag (n : RegNum) : Bool := n.val == 7 || n.val == 15

/-- The overflow of a circular update that applied a correction (`wrapped`) or did not (R120). -/
def wrapOverflow (n : RegNum) (wrapped : Bool) (cause : Cause) : OverflowKind :=
  if hasFlag n && wrapped then
    match cause with
    | .access => .sure
    | .modify => .draw
  else .no

/-- The overflow of an update with a zero length: a free value if the comparison of R115 with L = 0 succeeds (R121). -/
def zeroLenOverflow (n : RegNum) (i b : Nat) (m : Int) : OverflowKind :=
  if hasFlag n && (if 0 ≤ m then decide ((b : Int) ≤ i + m) else decide ((i : Int) + m < b)) then .draw else .no

/-- Sets the flag and raises the request of I7 or I15 if `on` (R120, R232). For any other register it does nothing. -/
def setOverflow (n : RegNum) (on : Bool) (s : State) : State :=
  { s with
    stkyx :=
      if on && n.val == 7 then s.stkyx ||| bitMask s.plat.stkyCb7s
      else if on && n.val == 15 then s.stkyx ||| bitMask s.plat.stkyCb15s
      else s.stkyx
    irqCb7 := s.irqCb7 || (on && n.val == 7)
    irqCb15 := s.irqCb15 || (on && n.val == 15) }

/-- The overflow status after an update of the index register with number `n`; a free value is used up. -/
def applyOverflow (n : RegNum) (k : OverflowKind) (s : State) : State :=
  match k with
  | .no => s
  | .sure => setOverflow n true s
  | .draw => { setOverflow n (Config.overflowDraw s.draws) s with draws := s.draws + 1 }

end Sys2Proof.Machine
end

