-- ==== Sys2Proof/Machine/Operands.lean ====
section
/-! DEFINITION. Addresses, modifiers, index updates (file 40), the register side of a transfer (file 44) and the dynamic part
of `Check` (rule R187). -/

namespace Sys2Proof.Machine

/-! ### Address arithmetic -/

/-- `trunc32(n)`: n modulo 2^32 (R8). -/
def trunc32 (n : Int) : Word := BitVec.ofInt 32 n

/-- `rev32(v)`: bit i of the result is bit 31 - i of `v` (R110). -/
def rev32 (v : Word) : Word := v.reverse

/-- The modifier value (R111): a register or a Data32 read as signed, a Data6 as the platform reads it (R96). -/
def modifierValue (s : State) (m : Modifier) : Int :=
  match m with
  | .reg k => (dagRead s .m k).toInt
  | .imm6 k => if s.plat.data6Signed then k.toInt else (k.toNat : Int)
  | .imm32 n => n.toInt

/-- `trunc32(I + m)`: the pre-modify address and the linear update (R112, R117). -/
def linearIndex (s : State) (n : RegNum) (m : Int) : Word := trunc32 ((dagRead s .i n).toNat + m)

/-- `BrOn(n)`: bit-reversed output is on for the index register (R118). -/
def bitReversed (s : State) (n : RegNum) : Bool :=
  (n.val == 0 && mode1Bit s bitBr0) || (n.val == 8 && mode1Bit s bitBr8)

/-- `OutAddr(n, a)`: the address put on the bus (R118). -/
def outAddr (s : State) (n : RegNum) (a : Word) : Word := if bitReversed s n then rev32 a else a

/-- The address of an access (R124): the index register's value for post-modify, its sum with the modifier for pre-modify. -/
def accessAddress (s : State) (x : Access) : Word :=
  match x.order with
  | .post => outAddr s x.idx (dagRead s .i x.idx)
  | .pre => outAddr s x.idx (linearIndex s x.idx (modifierValue s x.mod))

/-! ### Index updates -/

/-- `CircOK`: the requirements on an active circular buffer (R116). -/
def circOk (i l b : Nat) (m : Int) : Bool :=
  decide (1 ≤ l) && decide (l ≤ 2147483647) && decide (m.natAbs < l)
    && decide (0 ≤ (i : Int) + m) && decide ((i : Int) + m ≤ 4294967295) && decide (b + l ≤ 4294967296)

/-- The circular update applies a correction (R115). A zero modifier takes the positive branch (D7). -/
def circWraps (i l b : Nat) (m : Int) : Bool :=
  if 0 ≤ m then decide ((b : Int) + l ≤ i + m) else decide ((i : Int) + m < b)

/-- The value a circular update writes (R115). -/
def circIndex (i l b : Nat) (m : Int) : Int :=
  if circWraps i l b m then (if 0 ≤ m then i + m - l else i + m + l) else i + m

/-- What an index update writes. -/
structure IndexUpdate where
  index : Word
  overflow : OverflowKind
  deriving DecidableEq, Repr

/-- `PostUpdate(n, m, en)` with the zero-length case (R113, R115 to R117, R120, R121), computed from the state before the
statement (R122). -/
def indexUpdate (s : State) (n : RegNum) (m : Int) (en : Bool) (cause : Cause) : Except Stop IndexUpdate :=
  let i := (dagRead s .i n).toNat
  let l := (dagRead s .l n).toNat
  let b := (dagRead s .b n).toNat
  if en then
    if l = 0 then .ok ⟨linearIndex s n m, zeroLenOverflow n i b m⟩
    else if circOk i l b m then .ok ⟨trunc32 (circIndex i l b m), wrapOverflow n (circWraps i l b m) cause⟩
    else .error (.fault .circularPrecondition)
  else .ok ⟨linearIndex s n m, .no⟩

/-- Writes the index register, then the overflow status. -/
def applyUpdate (n : RegNum) (u : IndexUpdate) (s : State) : State := applyOverflow n u.overflow (dagPut s .i n u.index)

/-! ### The register side of a transfer -/

/-- `v ++ 0x00`: a 32-bit value in bits 39-8 of a data register (R177, R181, D24, D37). -/
def toData (v : Word) : DataWord := v ++ 0#8

/-- Bits 39-8 of a data register (R173, R181). -/
def ofData (v : DataWord) : Word := v.extractLsb' 8 32

/-- `Bcast(n)`: loads through I1 or I9 are broadcast (R183). -/
def broadcasts (s : State) (n : RegNum) : Bool :=
  (n.val == 1 && mode1Bit s bitBdcst1) || (n.val == 9 && mode1Bit s bitBdcst9)

/-- `GetNW(u)` (R173); of a control register, log 30, and of MODE1 in the latency slot the new word, log 39. -/
def getNw (s : State) (u : Ureg) : Except Stop Word :=
  match u with
  | .dag t n => .ok (dagRead s t n)
  | .data d => .ok (ofData (dataRead s d))
  | .system r => if isSystemUreg s r then .ok (systemRead s r) else .error (.refused (.notUniversalRegister r.spell))
  | .other name =>
    match otherRead s name with
    | some v => .ok v
    | none => .error (.refused (.notUniversalRegister name))

/-- `PutNW(u, v, n)`; `bcast` is `Bcast(n)` (R177, R183, R184). -/
def putNw (s : State) (u : Ureg) (v : Word) (bcast : Bool) : Except Stop State :=
  match u with
  | .dag t n => .ok (dagWrite s t n v)
  | .data d => .ok (if bcast then dataWrite (dataWrite s d (toData v)) (comp d) (toData v) else dataWrite s d (toData v))
  | .system r => if isSystemUreg s r then .ok (systemWrite s r v) else .error (.refused (.notUniversalRegister r.spell))
  | .other name =>
    match otherRead s name with
    | some _ => .ok (otherWrite s name v)
    | none => .error (.refused (.notUniversalRegister name))

/-- `GetLW(u)`: the named register in bits 31-0, its partner in bits 63-32 (R178); DAG registers only (R179). -/
def getLw (s : State) (u : Ureg) : Except Stop LongWord :=
  match u with
  | .dag t n => .ok (dagRead s t (partner n) ++ dagRead s t n)
  | .data _ => .error (.fault .longWordNonDag)
  | .system _ => .error (.fault .longWordNonDag)
  | .other _ => .error (.fault .longWordNonDag)

/-- `PutLW(u, v)`: bits 31-0 to the named register, bits 63-32 to its partner (R178); DAG registers only (R179). -/
def putLw (s : State) (u : Ureg) (v : LongWord) : Except Stop State :=
  match u with
  | .dag t n => .ok (dagWrite (dagWrite s t n (v.extractLsb' 0 32)) t (partner n) (v.extractLsb' 32 32))
  | .data _ => .error (.fault .longWordNonDag)
  | .system _ => .error (.fault .longWordNonDag)
  | .other _ => .error (.fault .longWordNonDag)

/-! ### `Check`: what a statement must meet before it has a meaning (R187) -/

/-- The stop of a statement that is not well formed, in a model that admits it (R179, R185, R186); R140 and R172 give no fault. -/
def stopOfIllFormed (w : IllFormed) : Stop :=
  match w with
  | .sameDagStore => .fault .sameDagStore
  | .sameDagLoad => .fault .sameDagLoad
  | .longWordNonDag => .fault .longWordNonDag
  | .dualSameDestination => .refused (.illFormed .dualSameDestination)
  | .moveWithoutDag => .refused (.illFormed .moveWithoutDag)
  | .loopStatement => .refused .loopNotSpecified

/-- An access whose data movement SIMD mode leaves open: a data register or an immediate, but for a broadcast load (R176). -/
def simdOpen (s : State) (x : Access) : Bool :=
  match x.xfer with
  | .store u _ => u.isData
  | .storeImm _ => true
  | .load u _ => u.isData && !broadcasts s x.idx

/-- R187 item 6: the statement is refused in SIMD mode (R140, R176). -/
def simdRefused (s : State) (sh : Shape) : Bool :=
  peyen s &&
    match sh with
    | .access x => simdOpen s x
    | .dual _ a _ _ c _ => !(broadcasts s a && broadcasts s c)
    | _ => false

/-- The numbers of the DAG registers a universal register operand names. MODE1 names none, so a statement does not depend on a
changed bit because its Ureg is MODE1: DESIGN CHOICE (R263 lists no such operand, N10), log 39. -/
def uregNums (u : Ureg) : List RegNum :=
  match u with
  | .dag _ n => [n]
  | .data _ => []
  | .system _ => []
  | .other _ => []

/-- The numbers of the DAG registers a modifier names. -/
def modifierNums (m : Modifier) : List RegNum :=
  match m with
  | .reg k => [k]
  | .imm6 _ => []
  | .imm32 _ => []

/-- The universal register an access moves. -/
def transferUreg (t : Transfer) : Option Ureg :=
  match t with
  | .store u _ => some u
  | .storeImm _ => none
  | .load u _ => some u

/-- The numbers of the DAG registers a statement names, as address register, modifier or Ureg (R263). -/
def namedNums (sh : Shape) : List RegNum :=
  match sh with
  | .access x => x.idx :: modifierNums x.mod ++ (transferUreg x.xfer).elim [] uregNums
  | .dual _ a b _ c d => [a, b, c, d]
  | .modify i m => i :: modifierNums m
  | .bitrev i _ => [i]
  | .ldi u _ => uregNums u
  | .mov u1 u2 => uregNums u1 ++ uregNums u2
  | .bitset _ => []
  | .nop => []
  | .bittst _ => []
  | .pushSts => []
  | .doUntil _ _ => []

/-- The statement is a post-modify load or store. -/
def isPostAccess (sh : Shape) : Bool :=
  match sh with
  | .access x => decide (x.order = .post)
  | .dual _ _ _ _ _ _ => true
  | _ => false

/-- The index registers of the statement's loads and stores. -/
def accessIndexes (sh : Shape) : List RegNum :=
  match sh with
  | .access x => [x.idx]
  | .dual _ a _ _ c _ => [a, c]
  | _ => []

/-- The index registers of the statement's data-register loads. -/
def dataLoadIndexes (sh : Shape) : List RegNum :=
  match sh with
  | .access x =>
    match x.xfer with
    | .load (.data _) _ => [x.idx]
    | _ => []
  | .dual _ a _ _ c _ => [a, c]
  | _ => []

/-- The statement reads or writes a data register. -/
def usesData (sh : Shape) : Bool :=
  match sh with
  | .access x => (transferUreg x.xfer).any Ureg.isData
  | .dual _ _ _ _ _ _ => true
  | .ldi u _ => u.isData
  | .mov u1 u2 => u1.isData || u2.isData
  | _ => false

/-- `Depends(stmt, ch)`: the statement depends on a MODE1 bit in `ch` (R263). That MODE1 as a Ureg operand is no dependence is the
model's choice (DESIGN CHOICE), log 39. -/
def depends (sh : Shape) (ch : Word) : Bool :=
  (namedNums sh).any (fun n => ch.getLsbD (groupBit n))
    || (ch.getLsbD bitCbufen && isPostAccess sh)
    || (ch.getLsbD bitBr0 && (accessIndexes sh).any (fun n => n.val == 0))
    || (ch.getLsbD bitBr8 && (accessIndexes sh).any (fun n => n.val == 8))
    || (ch.getLsbD bitBdcst1 && (dataLoadIndexes sh).any (fun n => n.val == 1))
    || (ch.getLsbD bitBdcst9 && (dataLoadIndexes sh).any (fun n => n.val == 9))
    || (ch.getLsbD bitPeyen && usesData sh)

/-- `Check(stmt)` (R187): why the statement has no meaning in this state; `none` if it has one. The order of the items is the
table's, log 17. -/
def check (sh : Shape) (s : State) : Option Stop :=
  match sh.illFormed with
  | some w => some (stopOfIllFormed w)
  | none =>
    if simdRefused s sh then some (.fault .simdDataMovement)
    else if depends sh s.mode1Changed then some (.fault .mode1Latency)
    else none

/-- A statement: `Check`, then its effect, on a state in which the MODE1 write before it is no longer in flight (R263). -/
def statement (sh : Shape) (s : State) (effect : State → Except Stop State) : Host.Outcome State Fault Refusal :=
  match check sh s with
  | some e => halt e
  | none => finish (effect (clearLatency s))

end Sys2Proof.Machine
end

