-- ==== Sys2Proof/Machine/ModifyBitrev.lean ====
section
/-! DEFINITION. Modify and Bitrev (file 43): they update an index register and touch no memory (rule R160). -/

namespace Sys2Proof.Machine

/-- `PostUpdate(n, m, 1)`: Modify wraps whatever CBUFEN is (R114, R160, R161). -/
def modifyIndex (n : RegNum) (m : Modifier) (s : State) : Except Stop State :=
  (indexUpdate s n (modifierValue s m) true .modify).bind fun u => .ok (advance (applyUpdate n u s))

/-- `I[n] <- rev32(trunc32(I + Data32))`: no wrap, no flag (R160, R165). -/
def bitrevIndex (n : RegNum) (v : Word) (s : State) : Except Stop State :=
  .ok (advance (dagPut s .i n (rev32 (linearIndex s n v.toInt))))

/-- MODIFY.M.DAG1, `Modify(Ia,Mb);` (R161). -/
def execModifyMDag1 (a b : Fin 8) (s : State) : Host.Outcome State Fault Refusal :=
  statement (.modify (dag1 a) (.reg (dag1 b))) s (modifyIndex (dag1 a) (.reg (dag1 b)))

/-- MODIFY.M.DAG2, `Modify(Ic,Md);` (R162). -/
def execModifyMDag2 (c d : Fin 8) (s : State) : Host.Outcome State Fault Refusal :=
  statement (.modify (dag2 c) (.reg (dag2 d))) s (modifyIndex (dag2 c) (.reg (dag2 d)))

/-- MODIFY.I.DAG1, `Modify(Ia,Data32);` (R163). -/
def execModifyIDag1 (a : Fin 8) (n : Word) (s : State) : Host.Outcome State Fault Refusal :=
  statement (.modify (dag1 a) (.imm32 n)) s (modifyIndex (dag1 a) (.imm32 n))

/-- MODIFY.I.DAG2, `Modify(Ic,Data32);` (R164). -/
def execModifyIDag2 (c : Fin 8) (n : Word) (s : State) : Host.Outcome State Fault Refusal :=
  statement (.modify (dag2 c) (.imm32 n)) s (modifyIndex (dag2 c) (.imm32 n))

/-- BITREV.DAG1, `Bitrev(Ia,Data32);` (R165). -/
def execBitrevDag1 (a : Fin 8) (n : Word) (s : State) : Host.Outcome State Fault Refusal :=
  statement (.bitrev (dag1 a) n) s (bitrevIndex (dag1 a) n)

/-- BITREV.DAG2, `Bitrev(Ic,Data32);` (R166). -/
def execBitrevDag2 (c : Fin 8) (n : Word) (s : State) : Host.Outcome State Fault Refusal :=
  statement (.bitrev (dag2 c) n) s (bitrevIndex (dag2 c) n)

end Sys2Proof.Machine
end

