-- ==== Sys2Proof/Machine/Access.lean ====
section
/-! DEFINITION. The memory accesses shared by the rows of files 41 and 42: the data action and the two common steps
(rules R129 and R145). -/

namespace Sys2Proof.Machine

/-- The data action of an access at address `a`: the memory read or write, and the register write of a load
(R130 to R139, R146 to R157). -/
def move (x : Access) (a : Word) (s : State) : Except Stop State :=
  match x.xfer with
  | .store u .nw => (getNw s u).bind fun v => memWriteNw s x.bus a v
  | .store u .lw => (getLw s u).bind fun v => memWriteLw s x.bus a v
  | .storeImm n => memWriteNw s x.bus a n
  | .load u .nw => (memReadNw s x.bus a).bind fun v => putNw s u v (broadcasts s x.idx)
  | .load u .lw => (memReadLw s x.bus a).bind fun v => putLw s u v

/-- `PostAccess` (R129): the access at the old index, then the index update, computed from the state before the statement
(R122); its flag is set after the access (R73, R120). -/
def postAccess (x : Access) (s : State) : Except Stop State :=
  (move x (accessAddress s x) s).bind fun s1 =>
    (indexUpdate s x.idx (modifierValue s x.mod) (cbufen s) .access).bind fun u =>
      .ok (advance (underMode s.mode1 (applyUpdate x.idx u) s1))

/-- `PreAccess` (R145): the access at index plus modifier, in the index's memory space (R69); no update. -/
def preAccess (x : Access) (s : State) : Except Stop State :=
  if sameSpace s (dagRead s .i x.idx) (linearIndex s x.idx (modifierValue s x.mod)) then
    (move x (accessAddress s x) s).bind fun s1 => .ok (advance s1)
  else .error (.fault .memorySpaceChanged)

/-- A statement that is one access. -/
def execAccess (x : Access) (s : State) : Host.Outcome State Fault Refusal :=
  statement (.access x) s fun s =>
    match x.order with
    | .post => postAccess x s
    | .pre => preAccess x s

end Sys2Proof.Machine
end

