-- ==== Sys2Proof/Machine/PostModify.lean ====
section
/-! DEFINITION. Post-modify memory accesses (file 41): Tables 4-2 and 4-3 and the dual move of Table 4-1. -/

namespace Sys2Proof.Machine

/-- ST.DM.POSTM, `DM(Ia,Mb)=Ureg (LW);` (R130). -/
def execStDmPostm (a b : Fin 8) (u : Ureg) (w : Width) (s : State) : Host.Outcome State Fault Refusal :=
  execAccess ⟨.dm, dag1 a, .post, .reg (dag1 b), .store u w⟩ s

/-- ST.PM.POSTM, `PM(Ic,Md)=Ureg (LW);` (R131). -/
def execStPmPostm (c d : Fin 8) (u : Ureg) (w : Width) (s : State) : Host.Outcome State Fault Refusal :=
  execAccess ⟨.pm, dag2 c, .post, .reg (dag2 d), .store u w⟩ s

/-- LD.DM.POSTM, `Ureg=DM(Ia,Mb) (LW);` (R132). -/
def execLdDmPostm (u : Ureg) (a b : Fin 8) (w : Width) (s : State) : Host.Outcome State Fault Refusal :=
  execAccess ⟨.dm, dag1 a, .post, .reg (dag1 b), .load u w⟩ s

/-- LD.PM.POSTM, `Ureg=PM(Ic,Md) (LW);` (R133). -/
def execLdPmPostm (u : Ureg) (c d : Fin 8) (w : Width) (s : State) : Host.Outcome State Fault Refusal :=
  execAccess ⟨.pm, dag2 c, .post, .reg (dag2 d), .load u w⟩ s

/-- STI.DM.POSTM, `DM(Ia,Mb)=Data32;` (R134). -/
def execStiDmPostm (a b : Fin 8) (n : Word) (s : State) : Host.Outcome State Fault Refusal :=
  execAccess ⟨.dm, dag1 a, .post, .reg (dag1 b), .storeImm n⟩ s

/-- STI.PM.POSTM, `PM(Ic,Md)=Data32;` (R135). -/
def execStiPmPostm (c d : Fin 8) (n : Word) (s : State) : Host.Outcome State Fault Refusal :=
  execAccess ⟨.pm, dag2 c, .post, .reg (dag2 d), .storeImm n⟩ s

/-- ST.DM.POST6, `DM(Ia,Data6)=Dreg;` (R136). -/
def execStDmPost6 (a : Fin 8) (k : BitVec 6) (r : Dreg) (s : State) : Host.Outcome State Fault Refusal :=
  execAccess ⟨.dm, dag1 a, .post, .imm6 k, .store (.data r) .nw⟩ s

/-- ST.PM.POST6, `PM(Ic,Data6)=Dreg;` (R137). -/
def execStPmPost6 (c : Fin 8) (k : BitVec 6) (r : Dreg) (s : State) : Host.Outcome State Fault Refusal :=
  execAccess ⟨.pm, dag2 c, .post, .imm6 k, .store (.data r) .nw⟩ s

/-- LD.DM.POST6, `Dreg=DM(Ia,Data6);` (R138). -/
def execLdDmPost6 (r : Dreg) (a : Fin 8) (k : BitVec 6) (s : State) : Host.Outcome State Fault Refusal :=
  execAccess ⟨.dm, dag1 a, .post, .imm6 k, .load (.data r) .nw⟩ s

/-- LD.PM.POST6, `Dreg=PM(Ic,Data6);` (R139). -/
def execLdPmPost6 (r : Dreg) (c : Fin 8) (k : BitVec 6) (s : State) : Host.Outcome State Fault Refusal :=
  execAccess ⟨.pm, dag2 c, .post, .imm6 k, .load (.data r) .nw⟩ s

/-- The two post-modify loads of the dual move, in one step (R140). Every operand is read before anything is written (R122). -/
def dualMove (r1 : Dreg) (a b : RegNum) (r2 : Dreg) (c d : RegNum) (s : State) : Except Stop State :=
  (memReadNw s .dm (outAddr s a (dagRead s .i a))).bind fun v1 =>
    (memReadNw s .pm (outAddr s c (dagRead s .i c))).bind fun v2 =>
      (putNw s (.data r1) v1 (broadcasts s a)).bind fun s1 =>
        (putNw s1 (.data r2) v2 (broadcasts s c)).bind fun s2 =>
          (indexUpdate s a (modifierValue s (.reg b)) (cbufen s) .access).bind fun u1 =>
            (indexUpdate s c (modifierValue s (.reg d)) (cbufen s) .access).bind fun u2 =>
              .ok (advance (applyUpdate c u2 (applyUpdate a u1 s2)))

/-- LD.DUAL, `Dreg1=DM(Ia,Mb), Dreg2=PM(Ic,Md);` (R140). -/
def execLdDual (r1 : Dreg) (a b : Fin 8) (r2 : Dreg) (c d : Fin 8) (s : State) : Host.Outcome State Fault Refusal :=
  statement (.dual r1 (dag1 a) (dag1 b) r2 (dag2 c) (dag2 d)) s
    (dualMove r1 (dag1 a) (dag1 b) r2 (dag2 c) (dag2 d))

end Sys2Proof.Machine
end

