-- ==== Sys2Proof/Machine/PreModify.lean ====
section
/-! DEFINITION. Pre-modify memory accesses (file 42): Tables 4-4, 4-5 and 4-6. -/

namespace Sys2Proof.Machine

/-- ST.DM.PREM, `DM(Mb,Ia)=Ureg (LW);` (R146). -/
def execStDmPrem (b a : Fin 8) (u : Ureg) (w : Width) (s : State) : Host.Outcome State Fault Refusal :=
  execAccess ⟨.dm, dag1 a, .pre, .reg (dag1 b), .store u w⟩ s

/-- ST.PM.PREM, `PM(Md,Ic)=Ureg (LW);` (R147). -/
def execStPmPrem (d c : Fin 8) (u : Ureg) (w : Width) (s : State) : Host.Outcome State Fault Refusal :=
  execAccess ⟨.pm, dag2 c, .pre, .reg (dag2 d), .store u w⟩ s

/-- LD.DM.PREM, `Ureg=DM(Mb,Ia) (LW);` (R148). -/
def execLdDmPrem (u : Ureg) (b a : Fin 8) (w : Width) (s : State) : Host.Outcome State Fault Refusal :=
  execAccess ⟨.dm, dag1 a, .pre, .reg (dag1 b), .load u w⟩ s

/-- LD.PM.PREM, `Ureg=PM(Md,Ic) (LW);` (R149). -/
def execLdPmPrem (u : Ureg) (d c : Fin 8) (w : Width) (s : State) : Host.Outcome State Fault Refusal :=
  execAccess ⟨.pm, dag2 c, .pre, .reg (dag2 d), .load u w⟩ s

/-- ST.DM.PRE6, `DM(Data6,Ia)=Dreg;` (R150). -/
def execStDmPre6 (k : BitVec 6) (a : Fin 8) (r : Dreg) (s : State) : Host.Outcome State Fault Refusal :=
  execAccess ⟨.dm, dag1 a, .pre, .imm6 k, .store (.data r) .nw⟩ s

/-- ST.PM.PRE6, `PM(Data6,Ic)=Dreg;` (R151). -/
def execStPmPre6 (k : BitVec 6) (c : Fin 8) (r : Dreg) (s : State) : Host.Outcome State Fault Refusal :=
  execAccess ⟨.pm, dag2 c, .pre, .imm6 k, .store (.data r) .nw⟩ s

/-- LD.DM.PRE6, `Dreg=DM(Data6,Ia);` (R152). -/
def execLdDmPre6 (r : Dreg) (k : BitVec 6) (a : Fin 8) (s : State) : Host.Outcome State Fault Refusal :=
  execAccess ⟨.dm, dag1 a, .pre, .imm6 k, .load (.data r) .nw⟩ s

/-- LD.PM.PRE6, `Dreg=PM(Data6,Ic);` (R153). -/
def execLdPmPre6 (r : Dreg) (k : BitVec 6) (c : Fin 8) (s : State) : Host.Outcome State Fault Refusal :=
  execAccess ⟨.pm, dag2 c, .pre, .imm6 k, .load (.data r) .nw⟩ s

/-- LD.DM.PRE32, `Ureg=DM(Data32,Ia) (LW);` (R154). -/
def execLdDmPre32 (u : Ureg) (n : Word) (a : Fin 8) (w : Width) (s : State) : Host.Outcome State Fault Refusal :=
  execAccess ⟨.dm, dag1 a, .pre, .imm32 n, .load u w⟩ s

/-- LD.PM.PRE32, `Ureg=PM(Data32,Ic) (LW);` (R155). -/
def execLdPmPre32 (u : Ureg) (n : Word) (c : Fin 8) (w : Width) (s : State) : Host.Outcome State Fault Refusal :=
  execAccess ⟨.pm, dag2 c, .pre, .imm32 n, .load u w⟩ s

/-- ST.DM.PRE32, `DM(Data32,Ia)=Ureg (LW);` (R156). -/
def execStDmPre32 (n : Word) (a : Fin 8) (u : Ureg) (w : Width) (s : State) : Host.Outcome State Fault Refusal :=
  execAccess ⟨.dm, dag1 a, .pre, .imm32 n, .store u w⟩ s

/-- ST.PM.PRE32, `PM(Data32,Ic)=Ureg (LW);` (R157). -/
def execStPmPre32 (n : Word) (c : Fin 8) (u : Ureg) (w : Width) (s : State) : Host.Outcome State Fault Refusal :=
  execAccess ⟨.pm, dag2 c, .pre, .imm32 n, .store u w⟩ s

end Sys2Proof.Machine
end

