-- ==== Sys2Proof/Machine/Transfers.lean ====
section
/-! DEFINITION. Immediate loads, register moves and the support instructions (file 44). -/

namespace Sys2Proof.Machine

/-- LDI.UREG, `Ureg=Data32;` (R171). -/
def execLdiUreg (u : Ureg) (n : Word) (s : State) : Host.Outcome State Fault Refusal :=
  statement (.ldi u n) s fun s => (putNw s u n false).bind fun s1 => .ok (advance s1)

/-- The register a move from a data register reads: in SIMD mode the PEx member of the pair (R172, R175). -/
def moveSource (s : State) (d : Dreg) : Dreg := if peyen s then ⟨.x, d.num⟩ else d

/-- The move of R172. A data register written from a DAG register is duplicated in SIMD mode (R174). DESIGN CHOICE: a move of B
to itself also writes I, by R24 and R193, although R172 calls `X <- X` a no-op; log 37. -/
def moveRegister (u1 u2 : Ureg) (s : State) : Except Stop State :=
  match u1, u2 with
  | .dag t n, .dag t' n' => .ok (dagWrite s t n (dagRead s t' n'))
  | .data d, .dag t n => putNw s (.data d) (dagRead s t n) (peyen s)
  | .dag t n, .data d => .ok (dagWrite s t n (ofData (dataRead s (moveSource s d))))
  | .system r, .dag t n => putNw s (.system r) (dagRead s t n) false
  | .dag t n, .system r => (getNw s (.system r)).bind fun v => .ok (dagWrite s t n v)
  | .other name, .dag t n => putNw s (.other name) (dagRead s t n) false
  | .dag t n, .other name => (getNw s (.other name)).bind fun v => .ok (dagWrite s t n v)
  | _, _ => .error (.refused (.illFormed .moveWithoutDag))

/-- MOV.UREG, `Ureg1=Ureg2;` (R172). -/
def execMovUreg (u1 u2 : Ureg) (s : State) : Host.Outcome State Fault Refusal :=
  statement (.mov u1 u2) s fun s => (moveRegister u1 u2 s).bind fun s1 => .ok (advance s1)

/-- BITSET.MODE1, `BIT SET MODE1 mask;` (R188). -/
def execBitsetMode1 (n : Word) (s : State) : Host.Outcome State Fault Refusal :=
  statement (.bitset n) s fun s => .ok (advance (writeMode1 s (s.mode1 ||| n)))

/-- NOP (R189). -/
def execNop (s : State) : Host.Outcome State Fault Refusal :=
  statement .nop s fun s => .ok (advance s)

/-- A word with one bit given a value; a bit past the word changes nothing. -/
def putBit (v : Word) (k : Nat) (b : Bool) : Word := if b then v ||| bitMask k else v &&& ~~~(bitMask k)

/-- The value BIT TST tests (R190). -/
def stkyxTest (s : State) (mask : Word) : Bool := s.stkyx &&& mask == mask

/-- The value tested is kept, and may be left in one bit of ASTAT, which the spec does not name (R190, log 11). -/
def recordTest (s : State) (b : Bool) : State :=
  { s with
    bitTested := b
    others := s.others.map fun e => if e.1 = astatName then (e.1, putBit e.2 Config.bitTestPlace b) else e }

/-- BITTST.STKYX, `BIT TST STKYX mask;` (R190). -/
def execBittstStkyx (n : Word) (s : State) : Host.Outcome State Fault Refusal :=
  statement (.bittst n) s fun s => .ok (advance (recordTest s (stkyxTest s n)))

/-- PUSH.STS, `PUSH STS;` (R191, R238): CBUFEN is cleared if MMASK says so. What is pushed is not in the spec, log 33. -/
def execPushSts (s : State) : Host.Outcome State Fault Refusal :=
  statement .pushSts s fun s => .ok (advance (writeMode1 s (mode1Masked s)))

/-- DO.UNTIL, `LCNTR = n, DO l UNTIL LCE;`: refused, as R192 says. -/
def execDoUntil (n : Word) (l : Ident) (s : State) : Host.Outcome State Fault Refusal :=
  statement (.doUntil n l) s fun _ => .error (.refused .loopNotSpecified)

end Sys2Proof.Machine
end

