-- ==== Sys2Proof/Machine/Dispatch.lean ====
section
/-! DEFINITION. The one dispatch: each constructor of Instr to its meaning. -/

namespace Sys2Proof.Machine

def exec (i : Instr) (s : State) : Host.Outcome State Fault Refusal :=
  match i with
  | .stDmPostm a b u w => Sys2Proof.Machine.execStDmPostm a b u w s
  | .stPmPostm c d u w => Sys2Proof.Machine.execStPmPostm c d u w s
  | .ldDmPostm u a b w => Sys2Proof.Machine.execLdDmPostm u a b w s
  | .ldPmPostm u c d w => Sys2Proof.Machine.execLdPmPostm u c d w s
  | .stiDmPostm a b n => Sys2Proof.Machine.execStiDmPostm a b n s
  | .stiPmPostm c d n => Sys2Proof.Machine.execStiPmPostm c d n s
  | .stDmPost6 a k r => Sys2Proof.Machine.execStDmPost6 a k r s
  | .stPmPost6 c k r => Sys2Proof.Machine.execStPmPost6 c k r s
  | .ldDmPost6 r a k => Sys2Proof.Machine.execLdDmPost6 r a k s
  | .ldPmPost6 r c k => Sys2Proof.Machine.execLdPmPost6 r c k s
  | .stDmPrem b a u w => Sys2Proof.Machine.execStDmPrem b a u w s
  | .stPmPrem d c u w => Sys2Proof.Machine.execStPmPrem d c u w s
  | .ldDmPrem u b a w => Sys2Proof.Machine.execLdDmPrem u b a w s
  | .ldPmPrem u d c w => Sys2Proof.Machine.execLdPmPrem u d c w s
  | .stDmPre6 k a r => Sys2Proof.Machine.execStDmPre6 k a r s
  | .stPmPre6 k c r => Sys2Proof.Machine.execStPmPre6 k c r s
  | .ldDmPre6 r k a => Sys2Proof.Machine.execLdDmPre6 r k a s
  | .ldPmPre6 r k c => Sys2Proof.Machine.execLdPmPre6 r k c s
  | .ldDmPre32 u n a w => Sys2Proof.Machine.execLdDmPre32 u n a w s
  | .ldPmPre32 u n c w => Sys2Proof.Machine.execLdPmPre32 u n c w s
  | .stDmPre32 n a u w => Sys2Proof.Machine.execStDmPre32 n a u w s
  | .stPmPre32 n c u w => Sys2Proof.Machine.execStPmPre32 n c u w s
  | .modifyMDag1 a b => Sys2Proof.Machine.execModifyMDag1 a b s
  | .modifyMDag2 c d => Sys2Proof.Machine.execModifyMDag2 c d s
  | .modifyIDag1 a n => Sys2Proof.Machine.execModifyIDag1 a n s
  | .modifyIDag2 c n => Sys2Proof.Machine.execModifyIDag2 c n s
  | .bitrevDag1 a n => Sys2Proof.Machine.execBitrevDag1 a n s
  | .bitrevDag2 c n => Sys2Proof.Machine.execBitrevDag2 c n s
  | .ldDual r1 a b r2 c d => Sys2Proof.Machine.execLdDual r1 a b r2 c d s
  | .ldiUreg u n => Sys2Proof.Machine.execLdiUreg u n s
  | .movUreg u1 u2 => Sys2Proof.Machine.execMovUreg u1 u2 s
  | .bitsetMode1 n => Sys2Proof.Machine.execBitsetMode1 n s
  | .nop => Sys2Proof.Machine.execNop s
  | .bittstStkyx n => Sys2Proof.Machine.execBittstStkyx n s
  | .pushSts => Sys2Proof.Machine.execPushSts s
  | .doUntil n l => Sys2Proof.Machine.execDoUntil n l s

end Sys2Proof.Machine
end

