-- ==== Sys2Proof/Machine/Step.lean ====
section
/-! DEFINITION. One step: an event of `Core` if one is due (rule R236), else the current statement (R4, R34). -/

namespace Sys2Proof.Machine

/-- The current statement: its text is decoded, checked (R187) and run. Past the last statement the run is over (R34). -/
def runStatement (s : State) : Host.Outcome State Fault Refusal :=
  match fetchText s with
  | none => .fault .endOfProgram
  | some text =>
    match decode s.plat text with
    | .error e => .refused (.undecodable e)
    | .ok i =>
      match i.illFormed with
      | some w => .refused (.illFormed w)
      | none => exec i s

/-- One step (R4, R34, R236). DESIGN CHOICE: the run ends before `Core` is asked (log 2), and `Core` is asked before every
statement, the first among them, and again after an event (log 12). -/
def step (s : State) : Host.Outcome State Fault Refusal :=
  match fetchText s with
  | none => .fault .endOfProgram
  | some _ =>
    match s.core with
    | [] => runStatement s
    | none :: rest => runStatement { s with core := rest }
    | some e :: rest => .next (takeEvent e { s with core := rest })

/-- The state with one statement's text, the `nbits / 8` bytes of `w`, as the current statement, and no event of `Core` due. -/
def State.withFetchWord (s : State) (nbits w : Nat) : State :=
  { s with prog := placeText s.prog s.pc (bytesOfNat (nbits / 8) w), core := [] }

end Sys2Proof.Machine
end

