-- ==== Sys2Proof/Safety.lean ====
section
/-! DEFINITION. The invariant of the machine and what a safe step is, in the terms the statements use. -/

namespace Sys2Proof.Machine

/-- Every address is at least `lo`, below 2^32, and above the addresses before it. -/
def Memory.wfFrom (lo : Nat) (m : Memory) : Bool :=
  match m with
  | [] => true
  | (k, _) :: rest => decide (lo ≤ k) && decide (k < 4294967296) && Memory.wfFrom (k + 1) rest

/-- The canonical form of memory: addresses strictly rising, each a 32-bit address (R62). No entry can equal what an unlisted
address reads as, which is no value (R64). -/
def Memory.wf (m : Memory) : Bool := Memory.wfFrom 0 m

/-- The invariant of the machine: memory is in canonical form, no two other universal registers have one name, and the two overflow
flags are different bits. -/
def State.inv (s : State) : Bool :=
  Memory.wf s.mem && decide (s.others.map Prod.fst).Nodup && decide (s.plat.stkyCb7s ≠ s.plat.stkyCb15s)

/-- The step has a next state. -/
def Runs (s : State) : Prop := ∃ t, step s = .next t

end Sys2Proof.Machine
end

