-- ==== Sys2Proof/Certificates/Slice0/Obligations.lean ====
section
/-! DEFINITION. The statements for the provers. The first part says, from the spec's own words, what the statements use; the
rest is one `def Obligations.<Name> : Prop` per statement. A statement with `i.shape = .access x` is about every row whose
operands are those of `x`: `x.order`, `x.xfer` and `x.mod` say which rows (`Instr.shape` is the table). -/

namespace Sys2Proof.Claims

open Sys2Proof.Machine

/-- The instruction passes `Check` in this state (R187): well formed, not refused in SIMD mode, not in the latency slot of a MODE1
bit it depends on. -/
def Passes (i : Instr) (s : State) : Prop := check i.shape s = none

/-- The value of the equations of R115 (active buffer) or of R117 (no active buffer), before truncation. -/
def newIndex (i l b : Nat) (m : Int) (en : Bool) : Int :=
  if en = true ∧ l ≠ 0 then
    if 0 ≤ m then (if (i : Int) + m < b + l then i + m else i + m - l)
    else (if (b : Int) ≤ i + m then i + m else i + m + l)
  else i + m

/-- The index register after an update by `m` (R113). -/
def nextIndex (s : State) (n : RegNum) (m : Int) (en : Bool) : Word :=
  trunc32 (newIndex (dagRead s .i n).toNat (dagRead s .l n).toNat (dagRead s .b n).toNat m en)

/-- The requirements on an active circular buffer (R116). -/
def CircReq (i l b : Nat) (m : Int) : Prop :=
  1 ≤ l ∧ l ≤ 2 ^ 31 - 1 ∧ |m| < l ∧ 0 ≤ (i : Int) + m ∧ (i : Int) + m ≤ 0xFFFFFFFF ∧ b + l ≤ 2 ^ 32

/-- Buffer `n` is not active, or the requirements of R116 hold. -/
def Updatable (s : State) (n : RegNum) (m : Int) (en : Bool) : Prop :=
  en = true → dagRead s .l n ≠ 0#32 →
    CircReq (dagRead s .i n).toNat (dagRead s .l n).toNat (dagRead s .b n).toNat m

/-- `OutAddr(n, a)` (R118), by the bit numbers of R28. -/
def busAddress (s : State) (n : RegNum) (a : Word) : Word :=
  if (n = 0 ∧ s.mode1.getLsbD 1 = true) ∨ (n = 8 ∧ s.mode1.getLsbD 0 = true) then rev32 a else a

/-- The address of a post-modify access (R124). -/
def postAddress (s : State) (n : RegNum) : Word := busAddress s n (dagRead s .i n)

/-- The address of a pre-modify access (R124). -/
def preAddress (s : State) (n : RegNum) (m : Int) : Word := busAddress s n (trunc32 ((dagRead s .i n).toNat + m))

/-- `Bcast(n)` (R183), by the bit numbers of R28. -/
def Broadcast (s : State) (n : RegNum) : Prop :=
  (n = 1 ∧ s.mode1.getLsbD 23 = true) ∨ (n = 9 ∧ s.mode1.getLsbD 22 = true)

/-- The universal register the operand names exists on the platform (R32). -/
def Known (s : State) (u : Ureg) : Prop :=
  (∀ name, u = .other name → ∃ v, otherRead s name = some v) ∧ ∀ r, u = .system r → r ∈ s.plat.systemUregs

/-- `u` is no universal register of the platform (R32), and is spelled `name`. -/
def Outside (s : State) (u : Ureg) (name : Ident) : Prop :=
  (u = .other name ∧ name ∉ s.others.map Prod.fst) ∨ ∃ r, u = .system r ∧ r ∉ s.plat.systemUregs ∧ name = r.spell

/-- `t` seen with the MODE1 of `s`: its DAG registers are read in the copies `s` selects (R22). -/
def asBefore (s t : State) : State := { t with mode1 := s.mode1 }

/-- `v` is the value of a normal-word store of `u` (R173); of a control register, its word (log 30, 39). -/
def StoredValue (s : State) (u : Ureg) (v : Word) : Prop :=
  match u with
  | .dag ty n => v = dagRead s ty n
  | .data d => v = (dataRead s d).extractLsb' 8 32
  | .system .mode1 => .mode1 ∈ s.plat.systemUregs ∧ v = s.mode1
  | .system .stkyx => .stkyx ∈ s.plat.systemUregs ∧ v = s.stkyx
  | .system .mmask => .mmask ∈ s.plat.systemUregs ∧ v = s.mmask
  | .other name => otherRead s name = some v

/-- `t` holds the word `v` in `u` after a normal-word load (R177, R183); `bc` says whether the load is broadcast. A load of MODE1
records the bits it changes (R37), and one of STKYX leaves the word loaded (log 30). -/
def Loaded (s t : State) (u : Ureg) (v : Word) (bc : Prop) : Prop :=
  match u with
  | .dag ty n => dagRead t ty n = v ∧ (ty = .b → dagRead t .i n = v)
  | .data d =>
    dataRead t d = v ++ 0#8 ∧ (bc → dataRead t (comp d) = v ++ 0#8) ∧ (¬bc → dataRead t (comp d) = dataRead s (comp d))
  | .system .mode1 => t.mode1 = v ∧ t.mode1Changed = s.mode1 ^^^ v
  | .system .stkyx => t.stkyx = v
  | .system .mmask => t.mmask = v
  | .other name => otherRead t name = some v

/-- `t` holds a long word in the register X[n] and its partner (R178, R24). -/
def LoadedLong (t : State) (ty : DagType) (n : RegNum) (lo hi : Word) : Prop :=
  dagRead t ty n = lo ∧ dagRead t ty (partner n) = hi ∧
    (ty = .b → dagRead t .i n = lo ∧ dagRead t .i (partner n) = hi)

/-- All of memory is as before. -/
def MemoryKept (s t : State) : Prop := ∀ a, cellRead t.mem a = cellRead s.mem a

/-- Every DAG register is as before, both copies, but for the copies `s` selects of the registers `ex` holds of. -/
def DagKept (s t : State) (ex : DagType → RegNum → Prop) : Prop :=
  (∀ ty n, ¬ex ty n → dagRead (asBefore s t) ty n = dagRead s ty n) ∧
    ∀ ty n, dagHidden (asBefore s t) ty n = dagHidden s ty n

/-- Every data register is as before but for those `ex` holds of. -/
def DataKept (s t : State) (ex : Dreg → Prop) : Prop := ∀ d, ¬ex d → dataRead t d = dataRead s d

/-- Every other universal register is as before but for those `ex` holds of, and the set is the same. -/
def OthersKept (s t : State) (ex : Ident → Prop) : Prop :=
  (∀ name, ¬ex name → otherRead t name = otherRead s name) ∧ t.others.map Prod.fst = s.others.map Prod.fst

/-- MODE1, MMASK, the value BIT TST tested, the program and the platform are as before; no MODE1 write is in flight. -/
def ControlKept (s t : State) : Prop :=
  t.mode1 = s.mode1 ∧ t.mmask = s.mmask ∧ t.bitTested = s.bitTested ∧ t.prog = s.prog ∧ t.core = s.core ∧ t.plat = s.plat ∧
    t.mode1Changed = 0#32

/-- The value BIT TST tested, the program and the platform are as before. -/
def ProgramKept (s t : State) : Prop :=
  t.bitTested = s.bitTested ∧ t.prog = s.prog ∧ t.core = s.core ∧ t.plat = s.plat

/-- MODE1 and MMASK are as before and no MODE1 write is in flight, but for the one of them that `u`, the register written, is. -/
def ModesKept (s t : State) (u : Ureg) : Prop :=
  (u ≠ .system .mode1 → t.mode1 = s.mode1 ∧ t.mode1Changed = 0#32) ∧ (u ≠ .system .mmask → t.mmask = s.mmask)

/-- The overflow flags and requests are as before. -/
def OverflowKept (s t : State) : Prop := t.stkyx = s.stkyx ∧ t.irqCb7 = s.irqCb7 ∧ t.irqCb15 = s.irqCb15

/-- STKYX and the requests are as before but for the flag and request of the index register `n`, if it has one (R120), the flags
at the platform's positions (R29, log 9). -/
def OverflowOnly (s t : State) (n : RegNum) : Prop :=
  (∀ k : Nat, (k = s.plat.stkyCb7s → n ≠ 7) → (k = s.plat.stkyCb15s → n ≠ 15) → t.stkyx.getLsbD k = s.stkyx.getLsbD k) ∧
    (n ≠ 7 → t.irqCb7 = s.irqCb7) ∧ (n ≠ 15 → t.irqCb15 = s.irqCb15)

/-- The state with the STKYX on which the index update of the access sets its flag: the word loaded, if the access loads STKYX,
since the access comes before the update (R73, R120). -/
def statusBefore (s : State) (x : Access) : State :=
  match x.xfer with
  | .load (.system .stkyx) _ => { s with stkyx := (cellRead s.mem (accessAddress s x).toNat).getD 0#32 }
  | _ => s

/-- The registers a load writes: the named one, I with B (R24), and for a long word the partner and its I (R178). -/
def loadWritesDag (u : Ureg) (w : Width) (ty : DagType) (n : RegNum) : Prop :=
  ∃ ty' n', u = .dag ty' n' ∧ (ty = ty' ∨ (ty' = .b ∧ ty = .i)) ∧ (n = n' ∨ (w = .lw ∧ n = partner n'))

/-- The data registers a load writes: the named one, and its complement in a broadcast load (R183). -/
def loadWritesData (u : Ureg) (bc : Prop) (d : Dreg) : Prop := ∃ d', u = .data d' ∧ (d = d' ∨ (bc ∧ d = comp d'))

/-- The access stores. -/
def IsStore (x : Access) : Prop := (∃ u w, x.xfer = .store u w) ∨ ∃ n, x.xfer = .storeImm n

/-- The width an access moves. -/
def widthOf (x : Access) : Width :=
  match x.xfer with
  | .store _ w => w
  | .storeImm _ => .nw
  | .load _ w => w

/-- The statement names a DAG register with number `n`: as address register, modifier or Ureg (R263). -/
def NamesDag (i : Instr) (n : RegNum) : Prop :=
  (∃ x, i.shape = .access x ∧
      (x.idx = n ∨ x.mod = .reg n ∨ ∃ ty w, x.xfer = .store (.dag ty n) w ∨ x.xfer = .load (.dag ty n) w)) ∨
    (∃ r1 a b r2 c d, i.shape = .dual r1 a b r2 c d ∧ (a = n ∨ b = n ∨ c = n ∨ d = n)) ∨
    (∃ k m, i.shape = .modify k m ∧ (k = n ∨ m = .reg n)) ∨
    (∃ v, i.shape = .bitrev n v) ∨
    (∃ ty v, i = .ldiUreg (.dag ty n) v) ∨
    (∃ ty u, i = .movUreg (.dag ty n) u ∨ i = .movUreg u (.dag ty n))

/-- The statement is a load or store with index register `n` (R263). -/
def AccessesThrough (i : Instr) (n : RegNum) : Prop :=
  (∃ x, i.shape = .access x ∧ x.idx = n) ∨ ∃ r1 a b r2 c d, i.shape = .dual r1 a b r2 c d ∧ (a = n ∨ c = n)

/-- The statement is a data-register load with index register `n` (R263). -/
def LoadsDataThrough (i : Instr) (n : RegNum) : Prop :=
  (∃ x d w, i.shape = .access x ∧ x.idx = n ∧ x.xfer = .load (.data d) w) ∨
    ∃ r1 a b r2 c d, i.shape = .dual r1 a b r2 c d ∧ (a = n ∨ c = n)

/-- The statement is a post-modify load or store (R263). -/
def PostAccess (i : Instr) : Prop :=
  (∃ x, i.shape = .access x ∧ x.order = .post) ∨ ∃ r1 a b r2 c d, i.shape = .dual r1 a b r2 c d

/-- The statement reads or writes a data register (R263). -/
def TouchesData (i : Instr) : Prop :=
  (∃ x d w, i.shape = .access x ∧ (x.xfer = .store (.data d) w ∨ x.xfer = .load (.data d) w)) ∨
    (∃ r1 a b r2 c d, i.shape = .dual r1 a b r2 c d) ∨
    (∃ d v, i = .ldiUreg (.data d) v) ∨ ∃ d u, i = .movUreg (.data d) u ∨ i = .movUreg u (.data d)

/-- `Depends(stmt, ch)`, clause by clause as R263 lists it, by the bit numbers of R28. -/
def LatencyDepends (i : Instr) (ch : Word) : Prop :=
  (ch.getLsbD 4 = true ∧ ∃ n, n.val < 4 ∧ NamesDag i n) ∨
    (ch.getLsbD 3 = true ∧ ∃ n, 4 ≤ n.val ∧ n.val < 8 ∧ NamesDag i n) ∨
    (ch.getLsbD 6 = true ∧ ∃ n, 8 ≤ n.val ∧ n.val < 12 ∧ NamesDag i n) ∨
    (ch.getLsbD 5 = true ∧ ∃ n, 12 ≤ n.val ∧ NamesDag i n) ∨
    (ch.getLsbD 24 = true ∧ PostAccess i) ∨
    (ch.getLsbD 1 = true ∧ AccessesThrough i 0) ∨ (ch.getLsbD 0 = true ∧ AccessesThrough i 8) ∨
    (ch.getLsbD 23 = true ∧ LoadsDataThrough i 1) ∨ (ch.getLsbD 22 = true ∧ LoadsDataThrough i 9) ∨
    (ch.getLsbD 21 = true ∧ TouchesData i)

/-- A SIMD-mode access the spec refuses: it moves a data register or an immediate and is no broadcast load (R176, R140). -/
def SimdOpen (i : Instr) (s : State) : Prop :=
  (∃ x d w, i.shape = .access x ∧ x.xfer = .store (.data d) w) ∨
    (∃ x n, i.shape = .access x ∧ x.xfer = .storeImm n) ∨
    (∃ x d w, i.shape = .access x ∧ x.xfer = .load (.data d) w ∧ ¬Broadcast s x.idx) ∨
    ∃ r1 a b r2 c d, i.shape = .dual r1 a b r2 c d ∧ ¬(Broadcast s a ∧ Broadcast s c)

/-- STKYX and the requests after an overflow event of I7 (R120), the flag at the platform's position (R29, log 9). -/
def Raised7 (s t : State) : Prop :=
  t.irqCb7 = true ∧ t.stkyx.getLsbD s.plat.stkyCb7s = true ∧ t.irqCb15 = s.irqCb15 ∧
    ∀ k : Nat, k ≠ s.plat.stkyCb7s → t.stkyx.getLsbD k = s.stkyx.getLsbD k

/-- STKYX and the requests after an overflow event of I15 (R120), the flag at the platform's position (R29, log 9). -/
def Raised15 (s t : State) : Prop :=
  t.irqCb15 = true ∧ t.stkyx.getLsbD s.plat.stkyCb15s = true ∧ t.irqCb7 = s.irqCb7 ∧
    ∀ k : Nat, k ≠ s.plat.stkyCb15s → t.stkyx.getLsbD k = s.stkyx.getLsbD k

/-- The comparison of R115 that asks for a correction, evaluated on the registers of `n` with the length they hold (R115, R121). -/
def WrapCond (s : State) (n : RegNum) (m : Int) : Prop :=
  if 0 ≤ m then ((dagRead s .b n).toNat : Int) + (dagRead s .l n).toNat ≤ (dagRead s .i n).toNat + m
  else ((dagRead s .i n).toNat : Int) + m < (dagRead s .b n).toNat

/-- The index register `n` is inside its buffer. -/
def InBuffer (s : State) (n : RegNum) : Prop :=
  (dagRead s .b n).toNat ≤ (dagRead s .i n).toNat ∧
    (dagRead s .i n).toNat < (dagRead s .b n).toNat + (dagRead s .l n).toNat

/-- The instruction updates the index register `n` with circular buffering enabled: Modify always, a post-modify access if
CBUFEN is 1 (R114). -/
def UpdatesCircular (i : Instr) (s : State) (n : RegNum) : Prop :=
  (∃ m, i.shape = .modify n m) ∨
    (s.mode1.getLsbD 24 = true ∧
      ((∃ x, i.shape = .access x ∧ x.order = .post ∧ x.idx = n) ∨
        ∃ r1 a b r2 c d, i.shape = .dual r1 a b r2 c d ∧ (a = n ∨ c = n)))

/-- The instruction writes the register B[n] (R193). -/
def WritesBase (i : Instr) (n : RegNum) : Prop :=
  (∃ v, i = .ldiUreg (.dag .b n) v) ∨ (∃ u, i = .movUreg (.dag .b n) u) ∨
    ∃ x n' w, i.shape = .access x ∧ x.xfer = .load (.dag .b n') w ∧ (n = n' ∨ (w = .lw ∧ n = partner n'))

/-- The instruction writes the control register `r` as its Ureg (R241, log 30). -/
def WritesSystem (i : Instr) (r : SystemReg) : Prop :=
  (∃ x w, i.shape = .access x ∧ x.xfer = .load (.system r) w) ∨ (∃ v, i = .ldiUreg (.system r) v) ∨
    ∃ u, i = .movUreg (.system r) u

/-- The instruction reads the control register `r` as its Ureg. -/
def ReadsSystem (i : Instr) (r : SystemReg) : Prop :=
  (∃ x w, i.shape = .access x ∧ x.xfer = .store (.system r) w) ∨ ∃ u, i = .movUreg u (.system r)

/-- The outcome `o` with its next state changed by `f`. -/
def mapNext (f : State → State) (o : Host.Outcome State Fault Refusal) : Host.Outcome State Fault Refusal :=
  match o with
  | .next t => .next (f t)
  | .fault e => .fault e
  | .refused e => .refused e

/-- `Core` has no event at the coming boundary (R236, log 12). -/
def NoEvent (s : State) : Prop := s.core = [] ∨ ∃ rest, s.core = none :: rest

/-- The step runs a statement that writes the control register `r` as its Ureg. -/
def StatementWrites (s : State) (r : SystemReg) : Prop :=
  NoEvent s ∧ ∃ text i, s.prog[s.pc]? = some text ∧ decode s.plat text = .ok i ∧ WritesSystem i r

/-- `p` has the bits of `q` outside `bits`. -/
def AgreeOutside (bits : List Nat) (p q : Word) : Prop := ∀ k, k ∉ bits → p.getLsbD k = q.getLsbD k

/-- Two states that differ at most in DAG register copies that are not selected (R23). -/
def SameButHidden (s t : State) : Prop :=
  (∀ ty n, dagRead t ty n = dagRead s ty n) ∧ t = { s with prim := t.prim, alt := t.alt }

end Sys2Proof.Claims

open Sys2Proof Sys2Proof.Machine Sys2Proof.Claims

/-! ### Post-modify accesses (file 41) -/

/-- A normal-word post-modify load through In (LD.DM.POSTM, LD.PM.POSTM, LD.DM.POST6, LD.PM.POST6) completes: it reads at the old
index, loads the register (R177, R183), updates the index (R113) and advances pc. A load of STKYX leaves the word loaded, to which
the index update can add an overflow flag (AccessOverflow says when). That MODE1, STKYX and MMASK can be the register loaded is the
model's reading of R32 and R241 (log 30, 38), and so is that a load of MODE1 records the bits it changes of the word it replaces
(R37; right after a MODE1 write of the new one, log 39). -/
def Obligations.PostLoadCompletes : Prop :=
  ∀ (i : Instr) (x : Access) (u : Ureg) (s : State) (v : Word),
    i.shape = .access x → x.order = .post → x.xfer = .load u .nw → Passes i s →
    admitted s x.bus .nw (postAddress s x.idx) = true → cellRead s.mem (postAddress s x.idx).toNat = some v → Known s u →
    Updatable s x.idx (modifierValue s x.mod) (s.mode1.getLsbD 24) →
    ∃ t, exec i s = .next t ∧ (u ≠ .system .stkyx → Loaded s t u v (Broadcast s x.idx)) ∧
      (u = .system .stkyx → (∀ k, v.getLsbD k = true → t.stkyx.getLsbD k = true) ∧
        ∀ k : Nat, k ≠ s.plat.stkyCb7s → k ≠ s.plat.stkyCb15s → t.stkyx.getLsbD k = v.getLsbD k) ∧
      dagRead (asBefore s t) .i x.idx = nextIndex s x.idx (modifierValue s x.mod) (s.mode1.getLsbD 24) ∧ t.pc = s.pc + 1

/-- A long-word post-modify load of a DAG register (LD.DM.POSTM, LD.PM.POSTM with `(LW)`) completes: the named register gets
bits 31-0, its partner (PartnerNumber says which) bits 63-32 (R178), from the platform's two cells of the long word (R67, log 8). -/
def Obligations.PostLoadLongCompletes : Prop :=
  ∀ (i : Instr) (x : Access) (ty : DagType) (n : RegNum) (s : State) (lo hi : Word),
    i.shape = .access x → x.order = .post → x.xfer = .load (.dag ty n) .lw → Passes i s →
    admitted s x.bus .lw (postAddress s x.idx) = true →
    cellRead s.mem (longWordCells s (postAddress s x.idx)).1.toNat = some lo →
    cellRead s.mem (longWordCells s (postAddress s x.idx)).2.toNat = some hi →
    Updatable s x.idx (modifierValue s x.mod) (s.mode1.getLsbD 24) →
    ∃ t, exec i s = .next t ∧ LoadedLong t ty n lo hi ∧
      dagRead t .i x.idx = nextIndex s x.idx (modifierValue s x.mod) (s.mode1.getLsbD 24) ∧ t.pc = s.pc + 1

/-- A normal-word post-modify store of a register (ST.DM.POSTM, ST.PM.POSTM, ST.DM.POST6, ST.PM.POST6) completes: the old value
of the register goes to the cell at the old index, and the index is updated. That MODE1, STKYX and MMASK (R28, R29, R31, R241) can
be the register stored is the model's reading of R32 (log 30), and that right after a MODE1 write a store of MODE1 stores the new
word is the model's choice (log 39). -/
def Obligations.PostStoreCompletes : Prop :=
  ∀ (i : Instr) (x : Access) (u : Ureg) (s : State) (v : Word),
    i.shape = .access x → x.order = .post → x.xfer = .store u .nw → Passes i s →
    admitted s x.bus .nw (postAddress s x.idx) = true → StoredValue s u v →
    Updatable s x.idx (modifierValue s x.mod) (s.mode1.getLsbD 24) →
    ∃ t, exec i s = .next t ∧ cellRead t.mem (postAddress s x.idx).toNat = some v ∧
      dagRead t .i x.idx = nextIndex s x.idx (modifierValue s x.mod) (s.mode1.getLsbD 24) ∧ t.pc = s.pc + 1

/-- A long-word post-modify store of a DAG register (ST.DM.POSTM, ST.PM.POSTM with `(LW)`) completes: the named register goes to
the platform's cell of bits 31-0, its partner to that of bits 63-32 (R178, R67, log 8). -/
def Obligations.PostStoreLongCompletes : Prop :=
  ∀ (i : Instr) (x : Access) (ty : DagType) (n : RegNum) (s : State),
    i.shape = .access x → x.order = .post → x.xfer = .store (.dag ty n) .lw → Passes i s →
    admitted s x.bus .lw (postAddress s x.idx) = true →
    Updatable s x.idx (modifierValue s x.mod) (s.mode1.getLsbD 24) →
    ∃ t, exec i s = .next t ∧
      ((longWordCells s (postAddress s x.idx)).1 ≠ (longWordCells s (postAddress s x.idx)).2 →
        cellRead t.mem (longWordCells s (postAddress s x.idx)).1.toNat = some (dagRead s ty n)) ∧
      cellRead t.mem (longWordCells s (postAddress s x.idx)).2.toNat = some (dagRead s ty (partner n)) ∧
      dagRead t .i x.idx = nextIndex s x.idx (modifierValue s x.mod) (s.mode1.getLsbD 24) ∧ t.pc = s.pc + 1

/-- An immediate store (STI.DM.POSTM, STI.PM.POSTM) completes. -/
def Obligations.PostStoreImmediateCompletes : Prop :=
  ∀ (i : Instr) (x : Access) (n : Word) (s : State),
    i.shape = .access x → x.order = .post → x.xfer = .storeImm n → Passes i s →
    admitted s x.bus .nw (postAddress s x.idx) = true →
    Updatable s x.idx (modifierValue s x.mod) (s.mode1.getLsbD 24) →
    ∃ t, exec i s = .next t ∧ cellRead t.mem (postAddress s x.idx).toNat = some n ∧
      dagRead t .i x.idx = nextIndex s x.idx (modifierValue s x.mod) (s.mode1.getLsbD 24) ∧ t.pc = s.pc + 1

/-- The dual move (LD.DUAL) completes: both loads read at the old indexes, both registers are loaded, both indexes updated
(R140). Where the two registers are one pair, the PM load is written last, so a broadcast PM load leaves its word in both and a
broadcast DM load leaves the PM load's register as that load wrote it: R140's order of writing, DEDUCED, log 18. -/
def Obligations.DualMoveCompletes : Prop :=
  ∀ (r1 r2 : Dreg) (a b c d : Fin 8) (s : State) (v1 v2 : Word),
    Passes (.ldDual r1 a b r2 c d) s →
    admitted s .dm .nw (postAddress s (dag1 a)) = true → cellRead s.mem (postAddress s (dag1 a)).toNat = some v1 →
    admitted s .pm .nw (postAddress s (dag2 c)) = true → cellRead s.mem (postAddress s (dag2 c)).toNat = some v2 →
    Updatable s (dag1 a) (dagRead s .m (dag1 b)).toInt (s.mode1.getLsbD 24) →
    Updatable s (dag2 c) (dagRead s .m (dag2 d)).toInt (s.mode1.getLsbD 24) →
    ∃ t, exec (.ldDual r1 a b r2 c d) s = .next t ∧
      (r1.num ≠ r2.num → Loaded s t (.data r1) v1 (Broadcast s (dag1 a)) ∧ Loaded s t (.data r2) v2 (Broadcast s (dag2 c))) ∧
      (r1.num = r2.num → dataRead t r2 = v2 ++ 0#8 ∧ (Broadcast s (dag2 c) → dataRead t r1 = v2 ++ 0#8) ∧
        (¬Broadcast s (dag2 c) → dataRead t r1 = v1 ++ 0#8)) ∧
      dagRead t .i (dag1 a) = nextIndex s (dag1 a) (dagRead s .m (dag1 b)).toInt (s.mode1.getLsbD 24) ∧
      dagRead t .i (dag2 c) = nextIndex s (dag2 c) (dagRead s .m (dag2 d)).toInt (s.mode1.getLsbD 24) ∧ t.pc = s.pc + 1

/-! ### Pre-modify accesses (file 42) -/

/-- A normal-word pre-modify load (LD.DM.PREM, LD.PM.PREM, LD.DM.PRE6, LD.PM.PRE6, LD.DM.PRE32, LD.PM.PRE32) completes: it reads at
index plus modifier, with no wrap, and loads the register; a same-DAG DAG register is allowed. That MODE1, STKYX and MMASK can be
the register loaded is the model's reading of R32 and R241 (log 30): a load of MODE1 records the bits it changes of the word it
replaces (R37; right after a MODE1 write of the new one: the model's choice, log 39), and a load of STKYX leaves the word loaded, so
that it can clear a flag (the model's choice, log 30). -/
def Obligations.PreLoadCompletes : Prop :=
  ∀ (i : Instr) (x : Access) (u : Ureg) (s : State) (v : Word),
    i.shape = .access x → x.order = .pre → x.xfer = .load u .nw → Passes i s →
    sameSpace s (dagRead s .i x.idx) (trunc32 ((dagRead s .i x.idx).toNat + modifierValue s x.mod)) = true →
    admitted s x.bus .nw (preAddress s x.idx (modifierValue s x.mod)) = true →
    cellRead s.mem (preAddress s x.idx (modifierValue s x.mod)).toNat = some v → Known s u →
    ∃ t, exec i s = .next t ∧ Loaded s t u v (Broadcast s x.idx) ∧ t.pc = s.pc + 1

/-- A long-word pre-modify load of a DAG register (LD.DM.PREM, LD.PM.PREM, LD.DM.PRE32, LD.PM.PRE32 with `(LW)`) completes. -/
def Obligations.PreLoadLongCompletes : Prop :=
  ∀ (i : Instr) (x : Access) (ty : DagType) (n : RegNum) (s : State) (lo hi : Word),
    i.shape = .access x → x.order = .pre → x.xfer = .load (.dag ty n) .lw → Passes i s →
    sameSpace s (dagRead s .i x.idx) (trunc32 ((dagRead s .i x.idx).toNat + modifierValue s x.mod)) = true →
    admitted s x.bus .lw (preAddress s x.idx (modifierValue s x.mod)) = true →
    cellRead s.mem (longWordCells s (preAddress s x.idx (modifierValue s x.mod))).1.toNat = some lo →
    cellRead s.mem (longWordCells s (preAddress s x.idx (modifierValue s x.mod))).2.toNat = some hi →
    ∃ t, exec i s = .next t ∧ LoadedLong t ty n lo hi ∧ t.pc = s.pc + 1

/-- A normal-word pre-modify store (ST.DM.PREM, ST.PM.PREM, ST.DM.PRE6, ST.PM.PRE6, ST.DM.PRE32, ST.PM.PRE32) completes: the value
of the register goes to the cell at index plus modifier. That MODE1, STKYX and MMASK (R28, R29, R31, R241) can be the register stored
is the model's reading of R32 (log 30), and that right after a MODE1 write a store of MODE1 stores the new word is the model's
choice (log 39). -/
def Obligations.PreStoreCompletes : Prop :=
  ∀ (i : Instr) (x : Access) (u : Ureg) (s : State) (v : Word),
    i.shape = .access x → x.order = .pre → x.xfer = .store u .nw → Passes i s →
    sameSpace s (dagRead s .i x.idx) (trunc32 ((dagRead s .i x.idx).toNat + modifierValue s x.mod)) = true →
    admitted s x.bus .nw (preAddress s x.idx (modifierValue s x.mod)) = true → StoredValue s u v →
    ∃ t, exec i s = .next t ∧ cellRead t.mem (preAddress s x.idx (modifierValue s x.mod)).toNat = some v ∧
      t.pc = s.pc + 1

/-- A long-word pre-modify store of a DAG register (ST.DM.PREM, ST.PM.PREM, ST.DM.PRE32, ST.PM.PRE32 with `(LW)`) completes. -/
def Obligations.PreStoreLongCompletes : Prop :=
  ∀ (i : Instr) (x : Access) (ty : DagType) (n : RegNum) (s : State),
    i.shape = .access x → x.order = .pre → x.xfer = .store (.dag ty n) .lw → Passes i s →
    sameSpace s (dagRead s .i x.idx) (trunc32 ((dagRead s .i x.idx).toNat + modifierValue s x.mod)) = true →
    admitted s x.bus .lw (preAddress s x.idx (modifierValue s x.mod)) = true →
    ∃ t, exec i s = .next t ∧
      ((longWordCells s (preAddress s x.idx (modifierValue s x.mod))).1 ≠
          (longWordCells s (preAddress s x.idx (modifierValue s x.mod))).2 →
        cellRead t.mem (longWordCells s (preAddress s x.idx (modifierValue s x.mod))).1.toNat = some (dagRead s ty n)) ∧
      cellRead t.mem (longWordCells s (preAddress s x.idx (modifierValue s x.mod))).2.toNat = some (dagRead s ty (partner n)) ∧
      t.pc = s.pc + 1

/-- The partner of a register in a long-word transfer (R26, R178): of an even number the next one, of an odd number the one before.
It is of the same type: the statements read it as `dagRead _ ty (partner n)`. -/
def Obligations.PartnerNumber : Prop :=
  ∀ n : RegNum, (partner n).val = if n.val % 2 = 0 then n.val + 1 else n.val - 1

/-- The value of a modifier (R111): of a modify register its selected copy, of a Data32 the number itself, both read as signed
(R97; two's complement is PRESUMED, log 34); of a Data6 the signed or the unsigned reading of its six bits, as the platform says
(R96, decision D6, log 7). -/
def Obligations.ModifierValues : Prop :=
  ∀ (s : State) (k : RegNum) (n : Word) (d : BitVec 6),
    modifierValue s (.reg k) =
        (if (dagRead s .m k).toNat < 2 ^ 31 then ((dagRead s .m k).toNat : Int) else (dagRead s .m k).toNat - 2 ^ 32) ∧
      modifierValue s (.imm32 n) = (if n.toNat < 2 ^ 31 then (n.toNat : Int) else n.toNat - 2 ^ 32) ∧
      (s.plat.data6Signed = true → modifierValue s (.imm6 d) = if d.toNat < 32 then (d.toNat : Int) else d.toNat - 64) ∧
      (s.plat.data6Signed = false → modifierValue s (.imm6 d) = (d.toNat : Int))

/-- The default cells of a long word (R67, decision D5; log 8): where the platform lists no other, as at reset, the long word at
an address is the even address and the one after it. -/
def Obligations.LongWordDefault : Prop :=
  State.reset.plat.longWords = [] ∧
    ∀ (s : State) (a : Word), s.plat.longWords = [] →
      (longWordCells s a).1.toNat = 2 * (a.toNat / 2) ∧ (longWordCells s a).2.toNat = 2 * (a.toNat / 2) + 1

/-! ### Modify and Bitrev (file 43) -/

/-- Modify (MODIFY.M.DAG1, MODIFY.M.DAG2, MODIFY.I.DAG1, MODIFY.I.DAG2) completes exactly if buffer n is not active or the
requirements of R116 hold, wraps whatever CBUFEN is, and faults otherwise (the spec's decision D9). -/
def Obligations.ModifyUpdatesIndex : Prop :=
  ∀ (i : Instr) (n : RegNum) (m : Modifier) (s : State),
    i.shape = .modify n m → Passes i s →
    (¬Updatable s n (modifierValue s m) true → exec i s = .fault .circularPrecondition) ∧
    (Updatable s n (modifierValue s m) true →
      ∃ t, exec i s = .next t ∧ dagRead t .i n = nextIndex s n (modifierValue s m) true ∧ t.pc = s.pc + 1)

/-- Bitrev (BITREV.DAG1, BITREV.DAG2): the index register gets the reversal of index plus Data32 modulo 2^32; every other part of
the state is as before but pc and the MODE1 write in flight. With a zero Data32 a second Bitrev restores the register. -/
def Obligations.BitrevReverses : Prop :=
  (∀ (i : Instr) (n : RegNum) (v : Word) (s : State),
    i.shape = .bitrev n v → Passes i s →
    ∃ t, exec i s = .next t ∧ dagRead t .i n = rev32 (dagRead s .i n + v) ∧
      t = { s with prim := t.prim, alt := t.alt, pc := s.pc + 1, mode1Changed := 0#32 } ∧
      DagKept s t (fun ty k => ty = .i ∧ k = n)) ∧
    ∀ (i : Instr) (n : RegNum) (s t t' : State), i.shape = .bitrev n 0#32 →
      exec i s = .next t → exec i t = .next t' → dagRead t' .i n = dagRead s .i n

/-! ### Register transfers and support instructions (file 44) -/

/-- LDI.UREG completes: the register holds the immediate; a B register's I holds it too, and loading I leaves B. A data register
gets it in bits 39-8, its complement is untouched; a control register holds it whole (R241, log 30),
and MODE1 records the bits it changes of the word it replaces (R37, log 30, 39). Nothing else changes but pc and
the MODE1 write in flight. -/
def Obligations.LoadImmediateCompletes : Prop :=
  ∀ (u : Ureg) (v : Word) (s : State), Passes (.ldiUreg u v) s → Known s u →
    ∃ t, exec (.ldiUreg u v) s = .next t ∧ Loaded s t u v False ∧
      DagKept s t (loadWritesDag u .nw) ∧ DataKept s t (loadWritesData u False) ∧ OthersKept s t (fun nm => u = .other nm) ∧
      ModesKept s t u ∧ (u ≠ .system .stkyx → t.stkyx = s.stkyx) ∧
      t = { s with
        prim := t.prim, alt := t.alt, pex := t.pex, pey := t.pey, others := t.others, mode1 := t.mode1, stkyx := t.stkyx,
        mmask := t.mmask, pc := s.pc + 1, mode1Changed := t.mode1Changed }

/-- MOV.UREG completes, case by case as R172 lists them, with the SIMD behaviour of R174 and R175, and changes nothing else but pc
and the MODE1 write in flight. That a move of B[n] to itself also writes I[n] (R24, R193), though R172 calls a move of a register to
itself a no-op, is the model's choice (log 37); so are that a control register can be an operand (log 30) and that
right after a MODE1 write a move from MODE1 moves the new word (log 39). -/
def Obligations.MoveRegisterCompletes : Prop :=
  ∀ (u1 u2 : Ureg) (s : State), Passes (.movUreg u1 u2) s → Known s u1 → Known s u2 →
    ∃ t, exec (.movUreg u1 u2) s = .next t ∧
      (∀ ty n ty' n', u1 = .dag ty n → u2 = .dag ty' n' → Loaded s t u1 (dagRead s ty' n') False) ∧
      (∀ d ty n, u1 = .data d → u2 = .dag ty n → Loaded s t u1 (dagRead s ty n) (s.mode1.getLsbD 21 = true)) ∧
      (∀ ty n d, u1 = .dag ty n → u2 = .data d → s.mode1.getLsbD 21 = false →
        Loaded s t u1 ((dataRead s d).extractLsb' 8 32) False) ∧
      (∀ ty n d, u1 = .dag ty n → u2 = .data d → s.mode1.getLsbD 21 = true →
        Loaded s t u1 ((dataRead s ⟨.x, d.num⟩).extractLsb' 8 32) False) ∧
      (∀ r ty n, u1 = .system r → u2 = .dag ty n → Loaded s t u1 (dagRead s ty n) False) ∧
      (∀ ty n r v, u1 = .dag ty n → u2 = .system r → StoredValue s u2 v → Loaded s t u1 v False) ∧
      (∀ name ty n, u1 = .other name → u2 = .dag ty n → Loaded s t u1 (dagRead s ty n) False) ∧
      (∀ ty n name v, u1 = .dag ty n → u2 = .other name → otherRead s name = some v → Loaded s t u1 v False) ∧
      DagKept s t (loadWritesDag u1 .nw) ∧ DataKept s t (loadWritesData u1 (s.mode1.getLsbD 21 = true)) ∧
      OthersKept s t (fun nm => u1 = .other nm) ∧ ModesKept s t u1 ∧ (u1 ≠ .system .stkyx → t.stkyx = s.stkyx) ∧
      t = { s with
        prim := t.prim, alt := t.alt, pex := t.pex, pey := t.pey, others := t.others, mode1 := t.mode1, stkyx := t.stkyx,
        mmask := t.mmask, pc := s.pc + 1, mode1Changed := t.mode1Changed }

/-- BITSET.MODE1 completes in every state: the mask's bits are set, the bits that were 0 are recorded as changed, pc advances, and
nothing else changes. A mask whose bits are all 1 already records nothing. -/
def Obligations.BitSetMode1Completes : Prop :=
  ∀ (n : Word) (s : State),
    ∃ t, exec (.bitsetMode1 n) s = .next t ∧
      (∀ k, t.mode1.getLsbD k = (s.mode1.getLsbD k || n.getLsbD k)) ∧
      (∀ k, t.mode1Changed.getLsbD k = (n.getLsbD k && !s.mode1.getLsbD k)) ∧
      (s.mode1 &&& n = n → t.mode1Changed = 0#32) ∧
      t = { s with mode1 := t.mode1, mode1Changed := t.mode1Changed, pc := s.pc + 1 }

/-- NOP completes in every state and changes nothing but pc; it ends the MODE1 write in flight. -/
def Obligations.NopCompletes : Prop :=
  ∀ s : State, exec .nop s = .next { s with pc := s.pc + 1, mode1Changed := 0#32 }

/-- BITTST.STKYX completes in every state: the value tested says that every bit of the mask is set in STKYX, STKYX and the requests
are as before, and at most one bit of ASTAT takes the value tested (log 11). -/
def Obligations.BitTestCompletes : Prop :=
  ∀ (n : Word) (s : State),
    ∃ t, exec (.bittstStkyx n) s = .next t ∧
      (t.bitTested = true ↔ ∀ k, n.getLsbD k = true → s.stkyx.getLsbD k = true) ∧
      OthersKept s t (fun name => name = astatName) ∧
      (∀ v v', otherRead s astatName = some v → otherRead t astatName = some v' →
        ∃ p, ∀ k, v'.getLsbD k = if k = p ∧ k < 32 then t.bitTested else v.getLsbD k) ∧
      t = { s with bitTested := t.bitTested, others := t.others, pc := s.pc + 1, mode1Changed := 0#32 }

/-- PUSH.STS completes in every state: CBUFEN is cleared if MMASK.CBUFEN is 1, the change is recorded, pc advances, and nothing
else changes. An event of `Core` of kind external, timer or vectored clears CBUFEN on the same condition and leaves no MODE1
write in flight; an overflow interrupt or another event does not clear it. -/
def Obligations.PushStsClearsCbufen : Prop :=
  (∀ s : State, ∃ t, exec .pushSts s = .next t ∧
    (∀ k, t.mode1.getLsbD k = (s.mode1.getLsbD k && !(decide (k = 24) && s.mmask.getLsbD 24))) ∧
    (∀ k, t.mode1Changed.getLsbD k = (decide (k = 24) && s.mmask.getLsbD 24 && s.mode1.getLsbD 24)) ∧
    t = { s with mode1 := t.mode1, mode1Changed := t.mode1Changed, pc := s.pc + 1 }) ∧
  (∀ (e : CoreEvent) (s : State), e.kind = .external ∨ e.kind = .timer ∨ e.kind = .vectored →
    (∀ k, (takeEvent e s).mode1.getLsbD k = (s.mode1.getLsbD k && !(decide (k = 24) && s.mmask.getLsbD 24))) ∧
    (takeEvent e s).mode1Changed = 0#32) ∧
  ∀ (e : CoreEvent) (s : State), e.kind = .cb7 ∨ e.kind = .cb15 ∨ e.kind = .other → (takeEvent e s).mode1 = s.mode1

/-- An ordinary instruction writes MMASK (R241): where MMASK is a universal register of the platform (as at reset, log 30), after
`MMASK=v;` MMASK holds v, and the PUSH STS after it clears CBUFEN exactly if bit 24 of v is 1 (R31, R238). -/
def Obligations.MmaskWriteGovernsPush : Prop :=
  .mmask ∈ State.reset.plat.systemUregs ∧
    ∀ (v : Word) (s : State), .mmask ∈ s.plat.systemUregs →
      ∃ t t', exec (.ldiUreg (.system .mmask) v) s = .next t ∧ t.mmask = v ∧ exec .pushSts t = .next t' ∧
        (v.getLsbD 24 = true → t'.mode1.getLsbD 24 = false) ∧ (v.getLsbD 24 = false → t'.mode1 = s.mode1)

/-- DO.UNTIL is refused, by a step and by its meaning. -/
def Obligations.DoUntilIsRefused : Prop :=
  ∀ (n : Word) (l : Ident) (s : State) (text : List Byte),
    exec (.doUntil n l) s = .refused .loopNotSpecified ∧
      (NoEvent s → s.prog[s.pc]? = some text → decode s.plat text = .ok (.doUntil n l) →
        step s = .refused (.illFormed .loopStatement))

/-! ### Frames -/

/-- What a store leaves unchanged, post- or pre-modify, of a register or an immediate: all of memory but the cells at the address
the meaning computes; every DAG register but the index of a post-modify store; every other register; MODE1; of the overflow
status, all but that of I7 or I15 when it is the index of a post-modify store. -/
def Obligations.StoreFrame : Prop :=
  ∀ (i : Instr) (x : Access) (s t : State),
    i.shape = .access x → IsStore x → exec i s = .next t →
    (∀ a, (∀ c ∈ cellsOf s (widthOf x) (accessAddress s x), c.toNat ≠ a) → cellRead t.mem a = cellRead s.mem a) ∧
      DagKept s t (fun ty k => x.order = .post ∧ ty = .i ∧ k = x.idx) ∧
      t.pex = s.pex ∧ t.pey = s.pey ∧ t.others = s.others ∧ ControlKept s t ∧
      OverflowOnly s t x.idx ∧ (x.order = .pre → OverflowKept s t)

/-- What a load leaves unchanged, post- or pre-modify: all of memory; every register but the ones the load writes and the index
of a post-modify load; MODE1 and MMASK but where one is the register loaded; of the overflow status, all but that of I7 or I15 when
it is the index of a post-modify load, on the STKYX the load leaves where it loads STKYX. -/
def Obligations.LoadFrame : Prop :=
  ∀ (i : Instr) (x : Access) (u : Ureg) (w : Width) (s t : State),
    i.shape = .access x → x.xfer = .load u w → exec i s = .next t →
    t.mem = s.mem ∧
      DagKept s t (fun ty k => (x.order = .post ∧ ty = .i ∧ k = x.idx) ∨ loadWritesDag u w ty k) ∧
      DataKept s t (loadWritesData u (Broadcast s x.idx)) ∧ OthersKept s t (fun nm => u = .other nm) ∧
      ProgramKept s t ∧ ModesKept s t u ∧
      OverflowOnly (statusBefore s x) t x.idx ∧ (x.order = .pre → OverflowKept (statusBefore s x) t)

/-- What the dual move leaves unchanged: all of memory; every register but its two destinations, their complements in broadcast
loads and its two index registers; MODE1; every bit of STKYX and every request but the flag and the request of I7 where it is the
first index and those of I15 where it is the second (R120), the flags at the platform's positions (R29, log 9). -/
def Obligations.DualMoveFrame : Prop :=
  ∀ (r1 r2 : Dreg) (a b c d : Fin 8) (s t : State),
    exec (.ldDual r1 a b r2 c d) s = .next t →
    t.mem = s.mem ∧ DagKept s t (fun ty k => ty = .i ∧ (k = dag1 a ∨ k = dag2 c)) ∧
      DataKept s t (fun r => r = r1 ∨ r = r2 ∨ (Broadcast s (dag1 a) ∧ r = comp r1) ∨ (Broadcast s (dag2 c) ∧ r = comp r2)) ∧
      t.others = s.others ∧ ControlKept s t ∧
      (∀ k : Nat, (k = s.plat.stkyCb7s → a ≠ 7) → (k = s.plat.stkyCb15s → c ≠ 7) → t.stkyx.getLsbD k = s.stkyx.getLsbD k) ∧
      (a ≠ 7 → t.irqCb7 = s.irqCb7) ∧ (c ≠ 7 → t.irqCb15 = s.irqCb15)

/-- What Modify leaves unchanged. -/
def Obligations.ModifyFrame : Prop :=
  ∀ (i : Instr) (n : RegNum) (m : Modifier) (s t : State),
    i.shape = .modify n m → exec i s = .next t →
    t.mem = s.mem ∧ DagKept s t (fun ty k => ty = .i ∧ k = n) ∧ t.pex = s.pex ∧ t.pey = s.pey ∧ t.others = s.others ∧
      ControlKept s t ∧ OverflowOnly s t n

/-! ### Overflow status (file 40) -/

/-- A post-modify access through I7 or I15 sets the flag and raises the request exactly if an active buffer wraps, in either
direction (the spec's decision D10); with CBUFEN = 0 it sets nothing; with a zero length it sets nothing unless the comparison of
R121 succeeds, and then nothing or both (a free value, log 10). Through any other index register it sets nothing. The flags are the
bits of STKYX the platform names (R29; bits 17 and 18 at reset, PRESUMED, log 9). A load of STKYX (log 30) writes it before the update (log 38). -/
def Obligations.AccessOverflow : Prop :=
  ∀ (i : Instr) (x : Access) (s t : State),
    i.shape = .access x → x.order = .post → exec i s = .next t →
    (s.mode1.getLsbD 24 = false → OverflowKept (statusBefore s x) t) ∧
      (¬WrapCond s x.idx (modifierValue s x.mod) → OverflowKept (statusBefore s x) t) ∧
      (x.idx ≠ 7 → x.idx ≠ 15 → OverflowKept (statusBefore s x) t) ∧
      (s.mode1.getLsbD 24 = true → WrapCond s x.idx (modifierValue s x.mod) → dagRead s .l x.idx ≠ 0#32 →
        (x.idx = 7 → Raised7 (statusBefore s x) t) ∧ (x.idx = 15 → Raised15 (statusBefore s x) t)) ∧
      (s.mode1.getLsbD 24 = true → WrapCond s x.idx (modifierValue s x.mod) → dagRead s .l x.idx = 0#32 →
        (x.idx = 7 → OverflowKept (statusBefore s x) t ∨ Raised7 (statusBefore s x) t) ∧
          (x.idx = 15 → OverflowKept (statusBefore s x) t ∨ Raised15 (statusBefore s x) t))

/-- The overflow status of the dual move, each DAG's part as for a single access: without a wrap the flag and the request are as
before, a wrap of I7 or of I15 in an active buffer sets both, and with a zero length both are as before or both are set (R121, a
free value, log 10); both DAGs can set theirs in one instruction (R239). The flags are the bits of STKYX the platform names, two
different bits (R29; bits 17 and 18 at reset, PRESUMED, log 9). -/
def Obligations.DualMoveOverflow : Prop :=
  ∀ (r1 r2 : Dreg) (a b c d : Fin 8) (s t : State), s.plat.stkyCb7s ≠ s.plat.stkyCb15s →
    exec (.ldDual r1 a b r2 c d) s = .next t →
    let w1 := s.mode1.getLsbD 24 = true ∧ WrapCond s (dag1 a) (dagRead s .m (dag1 b)).toInt
    let w2 := s.mode1.getLsbD 24 = true ∧ WrapCond s (dag2 c) (dagRead s .m (dag2 d)).toInt
    let kept7 := t.irqCb7 = s.irqCb7 ∧ t.stkyx.getLsbD s.plat.stkyCb7s = s.stkyx.getLsbD s.plat.stkyCb7s
    let kept15 := t.irqCb15 = s.irqCb15 ∧ t.stkyx.getLsbD s.plat.stkyCb15s = s.stkyx.getLsbD s.plat.stkyCb15s
    let set7 := t.irqCb7 = true ∧ t.stkyx.getLsbD s.plat.stkyCb7s = true
    let set15 := t.irqCb15 = true ∧ t.stkyx.getLsbD s.plat.stkyCb15s = true
    (¬w1 ∨ a ≠ 7 → kept7) ∧ (¬w2 ∨ c ≠ 7 → kept15) ∧
      (w1 → a = 7 → dagRead s .l 7 ≠ 0#32 → set7) ∧ (w2 → c = 7 → dagRead s .l 15 ≠ 0#32 → set15) ∧
      (w1 → a = 7 → dagRead s .l 7 = 0#32 → kept7 ∨ set7) ∧ (w2 → c = 7 → dagRead s .l 15 = 0#32 → kept15 ∨ set15)

/-- The overflow status of Modify through I7 or I15: where the comparison of R115 asks for a correction (with a zero length: where
the comparison of R121 succeeds) the flag and the request are left or both set, a free value (log 10); else they are left. The
flags are the bits of STKYX the platform names (R29; bits 17 and 18 at reset, PRESUMED, log 9). -/
def Obligations.ModifyOverflow : Prop :=
  ∀ (i : Instr) (n : RegNum) (m : Modifier) (s t : State),
    i.shape = .modify n m → exec i s = .next t →
    (¬WrapCond s n (modifierValue s m) → OverflowKept s t) ∧ (n ≠ 7 → n ≠ 15 → OverflowKept s t) ∧
      (n = 7 → OverflowKept s t ∨ Raised7 s t) ∧ (n = 15 → OverflowKept s t ∨ Raised15 s t)

/-- An active circular buffer keeps an index that is inside it inside it, whatever instruction updates the index: at most one
correction by L is needed. -/
def Obligations.CircularIndexStaysInBuffer : Prop :=
  ∀ (i : Instr) (n : RegNum) (s t : State), UpdatesCircular i s n → dagRead s .l n ≠ 0#32 → InBuffer s n →
    exec i s = .next t → InBuffer (asBefore s t) n

/-! ### Stops -/

/-- When buffer n is active and a requirement of R116 does not hold, a post-modify access that otherwise completes is a fault. -/
def Obligations.CircularPreconditionFaults : Prop :=
  ∀ (i : Instr) (x : Access) (s s1 : State),
    i.shape = .access x → x.order = .post → Passes i s → move x (accessAddress s x) (clearLatency s) = .ok s1 →
    ¬Updatable s x.idx (modifierValue s x.mod) (s.mode1.getLsbD 24) → exec i s = .fault .circularPrecondition

/-- `Check` (R187 items 6 and 7): a well-formed instruction that R176 refuses in SIMD mode faults so; one that R176 does not refuse
and that is in the latency slot as R263 lists faults so; the others pass `Check`. That the SIMD fault wins where both apply is the
model's choice (log 17), and so are which loads are broadcast (log 24) and that a Ureg operand MODE1, which R263's list does not
have, is no dependence (log 39). -/
def Obligations.CheckIsTheSpecs : Prop :=
  ∀ (i : Instr) (s : State), i.illFormed = none →
    ((s.mode1.getLsbD 21 = true ∧ SimdOpen i s) → exec i s = .fault .simdDataMovement) ∧
      (¬(s.mode1.getLsbD 21 = true ∧ SimdOpen i s) → LatencyDepends i s.mode1Changed → exec i s = .fault .mode1Latency) ∧
      (Passes i s ↔ ¬(s.mode1.getLsbD 21 = true ∧ SimdOpen i s) ∧ ¬LatencyDepends i s.mode1Changed)

/-- The end of the latency slot: after a statement that does not write MODE1 no MODE1 write is in flight. -/
def Obligations.LatencyLastsOneStatement : Prop :=
  ∀ (i : Instr) (s t : State), exec i s = .next t → (∀ n, i ≠ .bitsetMode1 n) → i ≠ .pushSts → ¬WritesSystem i .mode1 →
    t.mode1Changed = 0#32 ∧ t.mode1 = s.mode1

/-- A memory access to an address the platform does not admit is stuck; a load from a cell nothing has written faults; a pre-modify
access that leaves the memory space faults. -/
def Obligations.MemoryStops : Prop :=
  ∀ (i : Instr) (x : Access) (s : State), i.shape = .access x → Passes i s →
    (x.order = .pre →
        sameSpace s (dagRead s .i x.idx) (trunc32 ((dagRead s .i x.idx).toNat + modifierValue s x.mod)) = false →
        exec i s = .fault .memorySpaceChanged) ∧
      (x.order = .post ∨
          sameSpace s (dagRead s .i x.idx) (trunc32 ((dagRead s .i x.idx).toNat + modifierValue s x.mod)) = true →
        (∀ u w, x.xfer = .store u w → Known s u) →
        (admitted s x.bus (widthOf x) (accessAddress s x) = false → exec i s = .fault .notAdmitted) ∧
        (admitted s x.bus (widthOf x) (accessAddress s x) = true →
          (∃ u w, x.xfer = .load u w ∧ ∃ c ∈ cellsOf s w (accessAddress s x), cellRead s.mem c.toNat = none) →
          exec i s = .fault .unwrittenMemory))

/-- Where the dual move stops: an address the platform does not admit, a cell nothing has written, a broken requirement of R116 in
either buffer. The DM load is read before the PM load, and both before the buffers are tried: the model's order (log 17). -/
def Obligations.DualMoveStops : Prop :=
  ∀ (r1 r2 : Dreg) (a b c d : Fin 8) (s : State), Passes (.ldDual r1 a b r2 c d) s →
    let ok1 := admitted s .dm .nw (postAddress s (dag1 a)) = true
    let ok2 := admitted s .pm .nw (postAddress s (dag2 c)) = true
    let written1 := ∃ v, cellRead s.mem (postAddress s (dag1 a)).toNat = some v
    let written2 := ∃ v, cellRead s.mem (postAddress s (dag2 c)).toNat = some v
    (¬ok1 → exec (.ldDual r1 a b r2 c d) s = .fault .notAdmitted) ∧
      (ok1 → ¬written1 → exec (.ldDual r1 a b r2 c d) s = .fault .unwrittenMemory) ∧
      (ok1 → written1 → ¬ok2 → exec (.ldDual r1 a b r2 c d) s = .fault .notAdmitted) ∧
      (ok1 → written1 → ok2 → ¬written2 → exec (.ldDual r1 a b r2 c d) s = .fault .unwrittenMemory) ∧
      (ok1 → written1 → ok2 → written2 →
        ¬Updatable s (dag1 a) (dagRead s .m (dag1 b)).toInt (s.mode1.getLsbD 24) ∨
          ¬Updatable s (dag2 c) (dagRead s .m (dag2 d)).toInt (s.mode1.getLsbD 24) →
        exec (.ldDual r1 a b r2 c d) s = .fault .circularPrecondition)

/-- An operand that names no register of the platform, a control register outside UregSet included, is refused by name (R32, log 7,
log 30): by a load whose word can be read, by a store, by LDI.UREG and by MOV.UREG on either side. -/
def Obligations.UnknownRegisterIsRefused : Prop :=
  ∀ (i : Instr) (s : State) (u : Ureg) (name : Ident), Passes i s → Outside s u name →
    (∀ x v, i.shape = .access x → x.xfer = .load u .nw →
        (x.order = .pre →
          sameSpace s (dagRead s .i x.idx) (trunc32 ((dagRead s .i x.idx).toNat + modifierValue s x.mod)) = true) →
        admitted s x.bus .nw (accessAddress s x) = true → cellRead s.mem (accessAddress s x).toNat = some v →
        exec i s = .refused (.notUniversalRegister name)) ∧
      (∀ x, i.shape = .access x → x.xfer = .store u .nw →
        (x.order = .pre →
          sameSpace s (dagRead s .i x.idx) (trunc32 ((dagRead s .i x.idx).toNat + modifierValue s x.mod)) = true) →
        exec i s = .refused (.notUniversalRegister name)) ∧
      (∀ v, i = .ldiUreg u v → exec i s = .refused (.notUniversalRegister name)) ∧
      ∀ u', i = .movUreg u u' ∨ i = .movUreg u' u → exec i s = .refused (.notUniversalRegister name)

/-- The statements the assembler flags or the spec refuses are never run: a step refuses them by name, and the meanings of R179,
R185 and R186 fault. -/
def Obligations.IllFormedNeverRuns : Prop :=
  ∀ (i : Instr) (s : State) (text : List Byte) (w : IllFormed), i.illFormed = some w →
    (∀ t, exec i s ≠ .next t) ∧
      (NoEvent s → s.prog[s.pc]? = some text → decode s.plat text = .ok i → step s = .refused (.illFormed w)) ∧
      (w = .sameDagStore → exec i s = .fault .sameDagStore) ∧ (w = .sameDagLoad → exec i s = .fault .sameDagLoad) ∧
      (w = .longWordNonDag → exec i s = .fault .longWordNonDag)

/-- Which accesses are ill formed: a store of a register of the DAG that drives the bus (R185), a post-modify load of one (R186),
and `(LW)` with a register that is not a DAG register (R179); no other access is. -/
def Obligations.ForbiddenAccesses : Prop :=
  ∀ (i : Instr) (x : Access), i.shape = .access x →
    (i.illFormed = some .sameDagStore ↔
      ∃ ty n w, x.xfer = .store (.dag ty n) w ∧ (x.bus = .dm ∧ n.val < 8 ∨ x.bus = .pm ∧ 8 ≤ n.val)) ∧
      (i.illFormed = some .sameDagLoad ↔
        x.order = .post ∧ ∃ ty n w, x.xfer = .load (.dag ty n) w ∧ (x.bus = .dm ∧ n.val < 8 ∨ x.bus = .pm ∧ 8 ≤ n.val)) ∧
      (i.illFormed = some .longWordNonDag ↔
        ∃ u, (x.xfer = .store u .lw ∨ x.xfer = .load u .lw) ∧ ∀ ty n, u ≠ .dag ty n) ∧
      (∀ w, i.illFormed = some w → w = .sameDagStore ∨ w = .sameDagLoad ∨ w = .longWordNonDag)

/-! ### Rules of the whole machine -/

/-- Decode and encode agree on every platform: every instruction whose names can be written is read back from its text, as itself
or, where one text has two rows, as the other row of that text (`Instr.canon`, log 25). -/
def Obligations.DecodeEncode : Prop :=
  ∀ (p : Platform) (i : Instr), i.spellable = true → decode p (encode p i) = .ok (i.canon p)

/-- The row read back has the meaning of the row written (log 25); and it is another row only for a pre-modify access of a data
register in a normal word with an offset that a Data6 has too: 0 to 31 if Data6 is signed, else 0 to 63 (R96). -/
def Obligations.CanonKeepsMeaning : Prop :=
  (∀ (i : Instr) (s : State), exec (i.canon s.plat) s = exec i s) ∧
    ∀ (p : Platform) (i : Instr), i.canon p ≠ i →
      ∃ x n r, i.shape = .access x ∧ x.order = .pre ∧ x.mod = .imm32 n ∧
        n.toNat < (if p.data6Signed = true then 32 else 64) ∧
        (x.xfer = .load (.data r) .nw ∨ x.xfer = .store (.data r) .nw)

/-- A few texts of the spec, read by the decoder on the platform of reset. -/
def Obligations.DecodeSpecTexts : Prop :=
  decode Platform.default (txt ['P', 'M', '(', 'I', '8', ',', 'M', '9', ')', '=', 'I', '3', ';']) =
      .ok (.stPmPostm 0 1 (.dag .i 3) .nw) ∧
    decode Platform.default (txt ['R', '0', '=', 'd', 'm', '(', 'i', '0', ',', 'm', '1', ')', ';']) =
      .ok (.ldDmPostm (.data ⟨.x, 0⟩) 0 1 .nw) ∧
    decode Platform.default (txt ['B', 'i', 't', 'r', 'e', 'v', '(', 'I', '1', ',', '4', ')', ';']) =
      .ok (.bitrevDag1 1 4#32) ∧
    decode Platform.default (txt ['I', '0', '=', '0', 'x', '8', 'a', '0', '0', '0', ';']) =
      .ok (.ldiUreg (.dag .i 0) 0x8a000#32)

/-- A step runs the decoded instruction: with no event of `Core` due, when the text at pc decodes to a well-formed instruction, the
step is `exec` of it, after the answer "none" of `Core` is used up if there is one. -/
def Obligations.StepRunsDecoded : Prop :=
  ∀ (s : State) (text : List Byte) (i : Instr), s.prog[s.pc]? = some text → decode s.plat text = .ok i → i.WellFormed →
    (s.core = [] → step s = exec i s) ∧ ∀ rest, s.core = none :: rest → step s = exec i { s with core := rest }

/-- Where a step stops before an instruction runs: past the last statement, whatever `Core` answers (R34; the model's choice, log 2),
and at a text that spells no instruction. An event of `Core` is taken before a statement (log 12): its latch is cleared, pc goes
where `Core` says, CBUFEN is cleared on the kinds and the condition of R238, and registers and memory are as before; that no MODE1
write stays in flight after a kind R238 does not name is the model's choice (log 12). -/
def Obligations.StepAround : Prop :=
  ∀ s : State,
    (s.prog.length ≤ s.pc → step s = .fault .endOfProgram) ∧
      (∀ text e, NoEvent s → s.prog[s.pc]? = some text → decode s.plat text = .error e → step s = .refused (.undecodable e)) ∧
      ∀ e rest, s.pc < s.prog.length → s.core = some e :: rest →
        ∃ t, step s = .next t ∧ t.pc = e.pc ∧ t.core = rest ∧ t.mode1Changed = 0#32 ∧
          (e.kind = .external ∨ e.kind = .timer ∨ e.kind = .vectored →
            ∀ k, t.mode1.getLsbD k = (s.mode1.getLsbD k && !(decide (k = 24) && s.mmask.getLsbD 24))) ∧
          (e.kind = .cb7 ∨ e.kind = .cb15 ∨ e.kind = .other → t.mode1 = s.mode1) ∧
          (t.irqCb7 = if e.kind = .cb7 then false else s.irqCb7) ∧
          (t.irqCb15 = if e.kind = .cb15 then false else s.irqCb15) ∧
          t = { s with
            pc := t.pc, core := t.core, mode1 := t.mode1, mode1Changed := t.mode1Changed, irqCb7 := t.irqCb7, irqCb15 := t.irqCb15 }

/-- Every step keeps the machine's invariant: memory in canonical form, the names of the other universal registers distinct, the
two overflow flags different bits. -/
def Obligations.StepKeepsInvariant : Prop :=
  ∀ s t : State, s.inv = true → step s = .next t → t.inv = true

/-- The invariant holds at reset. -/
def Obligations.ResetMeetsInvariant : Prop := State.reset.inv = true

/-- After reset: the primary registers are selected, CBUFEN is 0, no request is latched, pc is 0 (R36); no program is loaded and
nothing is written in memory. The other MODE1 bits of R28 and the overflow flags are 0 by the model's choice (log 4). -/
def Obligations.ResetValues : Prop :=
  (∀ n, altSelected State.reset n = false) ∧ State.reset.mode1.getLsbD 24 = false ∧ State.reset.irqCb7 = false ∧
    State.reset.irqCb15 = false ∧ State.reset.pc = 0 ∧ State.reset.prog = [] ∧ (∀ a, cellRead State.reset.mem a = none) ∧
    State.reset.mode1 = 0#32 ∧ State.reset.stkyx = 0#32

/-- No step changes the program, the platform or the set of universal registers: a store cannot change the program (R77). MMASK
(R31) is changed by nothing but a statement that writes it as its Ureg (R241, log 30). -/
def Obligations.ProgramIsFixed : Prop :=
  ∀ s t : State, step s = .next t →
    t.prog = s.prog ∧ t.plat = s.plat ∧ t.others.map Prod.fst = s.others.map Prod.fst ∧
      (t.mmask ≠ s.mmask → StatementWrites s .mmask)

/-- The overflow flags are sticky: no step but a statement that writes STKYX as its Ureg clears a bit of STKYX or sets one that is no
flag; a request is raised only beside its flag, and only `Core`'s own event clears a request. The model's choices: the flags are the
bits the platform names (17 and 18 at reset) and the other bits mean nothing (PRESUMED, log 9), and software clears a bit by writing
STKYX and in no other way, since R29 does not say how (DESIGN CHOICE, log 30). -/
def Obligations.FlagsAreSticky : Prop :=
  ∀ s t : State, step s = .next t →
    (¬StatementWrites s .stkyx → (∀ k, s.stkyx.getLsbD k = true → t.stkyx.getLsbD k = true) ∧
        ∀ k : Nat, k ≠ s.plat.stkyCb7s → k ≠ s.plat.stkyCb15s → t.stkyx.getLsbD k = s.stkyx.getLsbD k) ∧
      (t.irqCb7 = true → s.irqCb7 = true ∨ t.stkyx.getLsbD s.plat.stkyCb7s = true) ∧
      (t.irqCb15 = true → s.irqCb15 = true ∨ t.stkyx.getLsbD s.plat.stkyCb15s = true) ∧
      (s.irqCb7 = true → t.irqCb7 = false → ∃ e rest, s.core = some e :: rest ∧ e.kind = .cb7) ∧
      (s.irqCb15 = true → t.irqCb15 = false → ∃ e rest, s.core = some e :: rest ∧ e.kind = .cb15)

/-- The copies that are not selected are neither written nor read (R23): no instruction changes one that was hidden before it, and
two states that differ only in hidden copies stop alike or go to states that agree in everything but the copies that were hidden. -/
def Obligations.HiddenCopiesAreInert : Prop :=
  (∀ (i : Instr) (s t : State), exec i s = .next t →
    ∀ ty n, bankRead (if altSelected s n then t.prim else t.alt) ty n = dagHidden s ty n) ∧
  ∀ (i : Instr) (s s' : State), SameButHidden s s' →
    (∀ f, exec i s = .fault f → exec i s' = .fault f) ∧ (∀ r, exec i s = .refused r → exec i s' = .refused r) ∧
      ∀ t, exec i s = .next t →
        ∃ t', exec i s' = .next t' ∧ t'.mode1 = t.mode1 ∧ SameButHidden (asBefore s t) (asBefore s t')

/-- MODE1 is written by BIT SET MODE1, by PUSH STS, by a statement with MODE1 as its Ureg destination (R241; the model's choice,
log 30) and by an event of `Core` of a kind R238 names, and by nothing else. That an event of `Core` changes no other bit of MODE1
and none on other kinds is the model's choice (log 12). -/
def Obligations.Mode1Writers : Prop :=
  ∀ s t : State, step s = .next t → t.mode1 ≠ s.mode1 →
    (∃ e rest, s.core = some e :: rest ∧ (e.kind = .external ∨ e.kind = .timer ∨ e.kind = .vectored)) ∨
      StatementWrites s .mode1 ∨
      ∃ text i, s.prog[s.pc]? = some text ∧ decode s.plat text = .ok i ∧ ((∃ n, i = .bitsetMode1 n) ∨ i = .pushSts)

/-- Every instruction that completes advances pc by one. -/
def Obligations.PcAdvances : Prop := ∀ (i : Instr) (s t : State), exec i s = .next t → t.pc = s.pc + 1

/-- Writing a B register writes the I register of the same number with the same value (R24), for every instruction that writes one
(R193): after it I and B are equal. This takes in a move of B[n] to itself, where R172 speaks of a no-op and the model goes by R24 and
R193 (DESIGN CHOICE, log 37). In either copy, a B register that changed has its value in the I register of its number, so
both writes go to the selected copy. -/
def Obligations.BaseWritesIndex : Prop :=
  ∀ (i : Instr) (s t : State) (n : RegNum), exec i s = .next t →
    (WritesBase i n → dagRead t .i n = dagRead t .b n) ∧
      (bankRead t.prim .b n ≠ bankRead s.prim .b n → bankRead t.prim .i n = bankRead t.prim .b n) ∧
      (bankRead t.alt .b n ≠ bankRead s.alt .b n → bankRead t.alt .i n = bankRead t.alt .b n)

/-- Writing an I, an L or an M register changes that register and nothing else; an I write leaves B (R25). -/
def Obligations.IndexLoadKeepsBase : Prop :=
  ∀ (ty : DagType) (n : RegNum) (v : Word) (s : State), ty ≠ .b →
    dagRead (dagWrite s ty n v) ty n = v ∧
      (∀ ty' n', (ty' ≠ ty ∨ n' ≠ n) → dagRead (dagWrite s ty n v) ty' n' = dagRead s ty' n') ∧
      (∀ ty' n', dagHidden (dagWrite s ty n v) ty' n' = dagHidden s ty' n') ∧
      dagWrite s ty n v = { s with prim := (dagWrite s ty n v).prim, alt := (dagWrite s ty n v).alt }

/-- The selected copy of a DAG register: the alternate one if its group's MODE1 bit is 1 (R22), by the bit numbers of R28. -/
def Obligations.CopySelection : Prop :=
  ∀ (s : State) (ty : DagType) (n : RegNum),
    dagRead s ty n =
      bankRead
        (if s.mode1.getLsbD (if n.val < 4 then 4 else if n.val < 8 then 3 else if n.val < 12 then 6 else 5) = true
          then s.alt else s.prim) ty n

/-- Bit reversal (R110): bit i of the result is bit 31 - i; it is its own inverse; the source's two pairs. -/
def Obligations.BitReversal : Prop :=
  (∀ (v : Word) (k : Nat), k < 32 → (rev32 v).getLsbD k = v.getLsbD (31 - k)) ∧ (∀ v : Word, rev32 (rev32 v) = v) ∧
    rev32 0x0008A000#32 = 0x00051000#32 ∧ rev32 0x00051000#32 = 0x0008A000#32 ∧
    rev32 0x0408A000#32 = 0x00051020#32 ∧ rev32 0x00051020#32 = 0x0408A000#32

/-- SIMD mode changes no address, no modifier and no index update (R123). -/
def Obligations.SimdKeepsAddressing : Prop :=
  ∀ (s : State) (p : Word), AgreeOutside [21] p s.mode1 →
    (∀ x, accessAddress { s with mode1 := p } x = accessAddress s x) ∧
      (∀ m, modifierValue { s with mode1 := p } m = modifierValue s m) ∧
      (∀ n m c, indexUpdate { s with mode1 := p } n m (cbufen { s with mode1 := p }) c = indexUpdate s n m (cbufen s) c) ∧
      ∀ n m c, indexUpdate { s with mode1 := p } n m true c = indexUpdate s n m true c

/-- A DAG register read as data is its content, whatever the bit-reverse mode, and the read changes no DAG register (R194): a
normal word, both halves of a long word, and a register move, a control register as its destination included (log 30). -/
def Obligations.DataReadsAreUnreversed : Prop :=
  ∀ (s : State) (ty : DagType) (n : RegNum) (p : Word), AgreeOutside [0, 1] p s.mode1 →
    getNw { s with mode1 := p } (.dag ty n) = .ok (dagRead s ty n) ∧
      getLw { s with mode1 := p } (.dag ty n) = .ok (dagRead s ty (partner n) ++ dagRead s ty n) ∧
      (∀ ty' n' t, exec (.movUreg (.dag ty' n') (.dag ty n)) { s with mode1 := p } = .next t →
        dagRead t ty' n' = dagRead s ty n) ∧
      ∀ u t, (∀ ty' n', u ≠ .dag ty' n') → exec (.movUreg u (.dag ty n)) { s with mode1 := p } = .next t →
        (∀ d, u = .data d → (dataRead t d).extractLsb' 8 32 = dagRead s ty n) ∧
          (∀ name, u = .other name → otherRead t name = some (dagRead s ty n)) ∧
          (u = .system .mode1 → t.mode1 = dagRead s ty n) ∧ (u = .system .stkyx → t.stkyx = dagRead s ty n) ∧
          (u = .system .mmask → t.mmask = dagRead s ty n) ∧ ∀ ty' k, dagRead (asBefore s t) ty' k = dagRead s ty' k

/-- What broadcast loading does not change (R184): BDCST1 and BDCST9 have no effect on a store, on a load of a register that is no
data register, on a load through another index register or on any other instruction, but that one which reads or writes MODE1 itself
(BIT SET MODE1, PUSH STS, MODE1 as a Ureg: log 30) reads or records these bits; and PEYEN has none on a broadcast load. -/
def Obligations.BroadcastChangesOnlyDataLoads : Prop :=
  (∀ (i : Instr) (s : State) (p : Word), AgreeOutside [22, 23] p s.mode1 → ¬LoadsDataThrough i 1 → ¬LoadsDataThrough i 9 →
    (∀ n, i ≠ .bitsetMode1 n) → i ≠ .pushSts → ¬ReadsSystem i .mode1 →
    (¬WritesSystem i .mode1 → exec i { s with mode1 := p } = mapNext (fun t => { t with mode1 := p }) (exec i s)) ∧
      (WritesSystem i .mode1 →
        exec i { s with mode1 := p } = mapNext (fun t => { t with mode1Changed := p ^^^ t.mode1 }) (exec i s))) ∧
    ∀ (i : Instr) (s : State) (p : Word), AgreeOutside [21] p s.mode1 →
      ((∃ x d w, i.shape = .access x ∧ x.xfer = .load (.data d) w ∧ Broadcast s x.idx) ∨
        ∃ r1 a b r2 c d, i.shape = .dual r1 a b r2 c d ∧ Broadcast s a ∧ Broadcast s c) →
      exec i { s with mode1 := p } = mapNext (fun t => { t with mode1 := p }) (exec i s)

/-- Modify and Bitrev depend on no MODE1 bit but the four that select register copies: not on CBUFEN, PEYEN, BDCST1, BDCST9, BR0 or
BR8 (R160). -/
def Obligations.ModifyAndBitrevIgnoreModes : Prop :=
  ∀ (i : Instr) (s : State) (p : Word), ((∃ n m, i.shape = .modify n m) ∨ ∃ n v, i.shape = .bitrev n v) →
    (∀ k, k = 3 ∨ k = 4 ∨ k = 5 ∨ k = 6 → p.getLsbD k = s.mode1.getLsbD k) →
    exec i { s with mode1 := p } = mapNext (fun t => { t with mode1 := p }) (exec i s)
end

