-- ==== Sys2Proof/Laws/State.lean ====
section
/-! SUPPORT. One lemma per field of State and per update of it, so that no later proof unfolds a record update. A field an update
can change has a lemma only where its new value is plain. -/

namespace Sys2Proof.Machine

variable (s : State)

/-! ### advance -/

@[simp] theorem advance_prim : (advance s).prim = s.prim := rfl
@[simp] theorem advance_alt : (advance s).alt = s.alt := rfl
@[simp] theorem advance_mode1 : (advance s).mode1 = s.mode1 := rfl
@[simp] theorem advance_stkyx : (advance s).stkyx = s.stkyx := rfl
@[simp] theorem advance_mmask : (advance s).mmask = s.mmask := rfl
@[simp] theorem advance_irqCb7 : (advance s).irqCb7 = s.irqCb7 := rfl
@[simp] theorem advance_irqCb15 : (advance s).irqCb15 = s.irqCb15 := rfl
@[simp] theorem advance_pex : (advance s).pex = s.pex := rfl
@[simp] theorem advance_pey : (advance s).pey = s.pey := rfl
@[simp] theorem advance_others : (advance s).others = s.others := rfl
@[simp] theorem advance_mem : (advance s).mem = s.mem := rfl
@[simp] theorem advance_mode1Changed : (advance s).mode1Changed = s.mode1Changed := rfl
@[simp] theorem advance_pc : (advance s).pc = s.pc + 1 := rfl
@[simp] theorem advance_bitTested : (advance s).bitTested = s.bitTested := rfl
@[simp] theorem advance_draws : (advance s).draws = s.draws := rfl
@[simp] theorem advance_prog : (advance s).prog = s.prog := rfl
@[simp] theorem advance_core : (advance s).core = s.core := rfl
@[simp] theorem advance_plat : (advance s).plat = s.plat := rfl

/-! ### clearLatency -/

@[simp] theorem clearLatency_prim : (clearLatency s).prim = s.prim := rfl
@[simp] theorem clearLatency_alt : (clearLatency s).alt = s.alt := rfl
@[simp] theorem clearLatency_mode1 : (clearLatency s).mode1 = s.mode1 := rfl
@[simp] theorem clearLatency_stkyx : (clearLatency s).stkyx = s.stkyx := rfl
@[simp] theorem clearLatency_mmask : (clearLatency s).mmask = s.mmask := rfl
@[simp] theorem clearLatency_irqCb7 : (clearLatency s).irqCb7 = s.irqCb7 := rfl
@[simp] theorem clearLatency_irqCb15 : (clearLatency s).irqCb15 = s.irqCb15 := rfl
@[simp] theorem clearLatency_pex : (clearLatency s).pex = s.pex := rfl
@[simp] theorem clearLatency_pey : (clearLatency s).pey = s.pey := rfl
@[simp] theorem clearLatency_others : (clearLatency s).others = s.others := rfl
@[simp] theorem clearLatency_mem : (clearLatency s).mem = s.mem := rfl
@[simp] theorem clearLatency_mode1Changed : (clearLatency s).mode1Changed = 0#32 := rfl
@[simp] theorem clearLatency_pc : (clearLatency s).pc = s.pc := rfl
@[simp] theorem clearLatency_bitTested : (clearLatency s).bitTested = s.bitTested := rfl
@[simp] theorem clearLatency_draws : (clearLatency s).draws = s.draws := rfl
@[simp] theorem clearLatency_prog : (clearLatency s).prog = s.prog := rfl
@[simp] theorem clearLatency_core : (clearLatency s).core = s.core := rfl
@[simp] theorem clearLatency_plat : (clearLatency s).plat = s.plat := rfl

/-! ### writeMode1 -/

@[simp] theorem writeMode1_prim (v : Word) : (writeMode1 s v).prim = s.prim := rfl
@[simp] theorem writeMode1_alt (v : Word) : (writeMode1 s v).alt = s.alt := rfl
@[simp] theorem writeMode1_mode1 (v : Word) : (writeMode1 s v).mode1 = v := rfl
@[simp] theorem writeMode1_stkyx (v : Word) : (writeMode1 s v).stkyx = s.stkyx := rfl
@[simp] theorem writeMode1_mmask (v : Word) : (writeMode1 s v).mmask = s.mmask := rfl
@[simp] theorem writeMode1_irqCb7 (v : Word) : (writeMode1 s v).irqCb7 = s.irqCb7 := rfl
@[simp] theorem writeMode1_irqCb15 (v : Word) : (writeMode1 s v).irqCb15 = s.irqCb15 := rfl
@[simp] theorem writeMode1_pex (v : Word) : (writeMode1 s v).pex = s.pex := rfl
@[simp] theorem writeMode1_pey (v : Word) : (writeMode1 s v).pey = s.pey := rfl
@[simp] theorem writeMode1_others (v : Word) : (writeMode1 s v).others = s.others := rfl
@[simp] theorem writeMode1_mem (v : Word) : (writeMode1 s v).mem = s.mem := rfl
@[simp] theorem writeMode1_mode1Changed (v : Word) : (writeMode1 s v).mode1Changed = s.mode1 ^^^ v := rfl
@[simp] theorem writeMode1_pc (v : Word) : (writeMode1 s v).pc = s.pc := rfl
@[simp] theorem writeMode1_bitTested (v : Word) : (writeMode1 s v).bitTested = s.bitTested := rfl
@[simp] theorem writeMode1_draws (v : Word) : (writeMode1 s v).draws = s.draws := rfl
@[simp] theorem writeMode1_prog (v : Word) : (writeMode1 s v).prog = s.prog := rfl
@[simp] theorem writeMode1_core (v : Word) : (writeMode1 s v).core = s.core := rfl
@[simp] theorem writeMode1_plat (v : Word) : (writeMode1 s v).plat = s.plat := rfl

/-! ### systemWrite -/

@[simp] theorem systemWrite_prim (r : SystemReg) (v : Word) : (systemWrite s r v).prim = s.prim := by cases r <;> rfl
@[simp] theorem systemWrite_alt (r : SystemReg) (v : Word) : (systemWrite s r v).alt = s.alt := by cases r <;> rfl
@[simp] theorem systemWrite_irqCb7 (r : SystemReg) (v : Word) : (systemWrite s r v).irqCb7 = s.irqCb7 := by cases r <;> rfl
@[simp] theorem systemWrite_irqCb15 (r : SystemReg) (v : Word) : (systemWrite s r v).irqCb15 = s.irqCb15 := by cases r <;> rfl
@[simp] theorem systemWrite_pex (r : SystemReg) (v : Word) : (systemWrite s r v).pex = s.pex := by cases r <;> rfl
@[simp] theorem systemWrite_pey (r : SystemReg) (v : Word) : (systemWrite s r v).pey = s.pey := by cases r <;> rfl
@[simp] theorem systemWrite_others (r : SystemReg) (v : Word) : (systemWrite s r v).others = s.others := by cases r <;> rfl
@[simp] theorem systemWrite_mem (r : SystemReg) (v : Word) : (systemWrite s r v).mem = s.mem := by cases r <;> rfl
@[simp] theorem systemWrite_pc (r : SystemReg) (v : Word) : (systemWrite s r v).pc = s.pc := by cases r <;> rfl
@[simp] theorem systemWrite_bitTested (r : SystemReg) (v : Word) : (systemWrite s r v).bitTested = s.bitTested := by cases r <;> rfl
@[simp] theorem systemWrite_draws (r : SystemReg) (v : Word) : (systemWrite s r v).draws = s.draws := by cases r <;> rfl
@[simp] theorem systemWrite_prog (r : SystemReg) (v : Word) : (systemWrite s r v).prog = s.prog := by cases r <;> rfl
@[simp] theorem systemWrite_core (r : SystemReg) (v : Word) : (systemWrite s r v).core = s.core := by cases r <;> rfl
@[simp] theorem systemWrite_plat (r : SystemReg) (v : Word) : (systemWrite s r v).plat = s.plat := by cases r <;> rfl
@[simp] theorem systemWrite_mode1 (v : Word) : systemWrite s .mode1 v = writeMode1 s v := rfl
theorem systemWrite_mode1_other (r : SystemReg) (v : Word) (h : r ≠ .mode1) : (systemWrite s r v).mode1 = s.mode1 := by
  cases r <;> first | rfl | exact absurd rfl h
theorem systemWrite_mode1Changed_other (r : SystemReg) (v : Word) (h : r ≠ .mode1) :
    (systemWrite s r v).mode1Changed = s.mode1Changed := by
  cases r <;> first | rfl | exact absurd rfl h
theorem systemWrite_stkyx_other (r : SystemReg) (v : Word) (h : r ≠ .stkyx) : (systemWrite s r v).stkyx = s.stkyx := by
  cases r <;> first | rfl | exact absurd rfl h
theorem systemWrite_mmask_other (r : SystemReg) (v : Word) (h : r ≠ .mmask) : (systemWrite s r v).mmask = s.mmask := by
  cases r <;> first | rfl | exact absurd rfl h

/-- A control register reads as the word written to it. -/
@[simp] theorem systemRead_systemWrite (r : SystemReg) (v : Word) : systemRead (systemWrite s r v) r = v := by cases r <;> rfl

/-- A write of one control register leaves the others. -/
theorem systemRead_systemWrite_other (r r' : SystemReg) (v : Word) (h : r' ≠ r) :
    systemRead (systemWrite s r v) r' = systemRead s r' := by
  cases r <;> cases r' <;> first | rfl | exact absurd rfl h

/-! ### underMode -/

@[simp] theorem underMode_mode1 (m : Word) (f : State → State) : (underMode m f s).mode1 = s.mode1 := rfl

/-- A statement that does not write MODE1 updates its index register with the MODE1 it leaves. -/
theorem underMode_applyUpdate {s : State} {m : Word} (h : s.mode1 = m) (n : RegNum) (u : IndexUpdate) :
    underMode m (applyUpdate n u) s = applyUpdate n u s := by
  subst h
  obtain ⟨i, k⟩ := u
  cases k <;> rfl

/-- After a load of MODE1 the index update is that of the state before it; MODE1 is written last. -/
theorem underMode_load_mode1 (n : RegNum) (u : IndexUpdate) (v : Word) :
    underMode s.mode1 (applyUpdate n u) (systemWrite s .mode1 v) = systemWrite (applyUpdate n u s) .mode1 v := by
  obtain ⟨i, k⟩ := u
  cases k <;> rfl

/-- After a load of STKYX the index update can still set a flag. -/
theorem underMode_load_stkyx (n : RegNum) (u : IndexUpdate) (v : Word) :
    underMode s.mode1 (applyUpdate n u) (systemWrite s .stkyx v) = applyUpdate n u (systemWrite s .stkyx v) := by
  obtain ⟨i, k⟩ := u
  cases k <;> rfl

/-- A load of MMASK and an index update do not meet. -/
theorem underMode_load_mmask (n : RegNum) (u : IndexUpdate) (v : Word) :
    underMode s.mode1 (applyUpdate n u) (systemWrite s .mmask v) = systemWrite (applyUpdate n u s) .mmask v := by
  obtain ⟨i, k⟩ := u
  cases k <;> rfl

/-- Seen with the MODE1 the update was made under, the state is that of a plain update. -/
theorem underMode_applyUpdate_at (m : Word) (n : RegNum) (u : IndexUpdate) :
    { underMode m (applyUpdate n u) s with mode1 := m } = applyUpdate n u { s with mode1 := m } := by
  obtain ⟨i, k⟩ := u
  cases k <;> rfl

/-- The overflow status an index update leaves does not depend on MODE1. -/
theorem underMode_applyUpdate_status (m : Word) (n : RegNum) (u : IndexUpdate) :
    (underMode m (applyUpdate n u) s).stkyx = (applyUpdate n u s).stkyx ∧
      (underMode m (applyUpdate n u) s).irqCb7 = (applyUpdate n u s).irqCb7 ∧
      (underMode m (applyUpdate n u) s).irqCb15 = (applyUpdate n u s).irqCb15 := by
  obtain ⟨i, k⟩ := u
  cases k <;> exact ⟨rfl, rfl, rfl⟩

/-- What an index update under another MODE1 leaves: all but the banks, the overflow status and the draws. -/
theorem underMode_applyUpdate_fields (m : Word) (n : RegNum) (u : IndexUpdate) :
    underMode m (applyUpdate n u) s =
      { s with
        prim := (underMode m (applyUpdate n u) s).prim
        alt := (underMode m (applyUpdate n u) s).alt
        stkyx := (underMode m (applyUpdate n u) s).stkyx
        irqCb7 := (underMode m (applyUpdate n u) s).irqCb7
        irqCb15 := (underMode m (applyUpdate n u) s).irqCb15
        draws := (underMode m (applyUpdate n u) s).draws } := by
  obtain ⟨i, k⟩ := u
  cases k <;> rfl

/-! ### setCell -/

@[simp] theorem setCell_prim (a v : Word) : (setCell s a v).prim = s.prim := rfl
@[simp] theorem setCell_alt (a v : Word) : (setCell s a v).alt = s.alt := rfl
@[simp] theorem setCell_mode1 (a v : Word) : (setCell s a v).mode1 = s.mode1 := rfl
@[simp] theorem setCell_stkyx (a v : Word) : (setCell s a v).stkyx = s.stkyx := rfl
@[simp] theorem setCell_mmask (a v : Word) : (setCell s a v).mmask = s.mmask := rfl
@[simp] theorem setCell_irqCb7 (a v : Word) : (setCell s a v).irqCb7 = s.irqCb7 := rfl
@[simp] theorem setCell_irqCb15 (a v : Word) : (setCell s a v).irqCb15 = s.irqCb15 := rfl
@[simp] theorem setCell_pex (a v : Word) : (setCell s a v).pex = s.pex := rfl
@[simp] theorem setCell_pey (a v : Word) : (setCell s a v).pey = s.pey := rfl
@[simp] theorem setCell_others (a v : Word) : (setCell s a v).others = s.others := rfl
@[simp] theorem setCell_mem (a v : Word) : (setCell s a v).mem = cellWrite s.mem a.toNat v := rfl
@[simp] theorem setCell_mode1Changed (a v : Word) : (setCell s a v).mode1Changed = s.mode1Changed := rfl
@[simp] theorem setCell_pc (a v : Word) : (setCell s a v).pc = s.pc := rfl
@[simp] theorem setCell_bitTested (a v : Word) : (setCell s a v).bitTested = s.bitTested := rfl
@[simp] theorem setCell_draws (a v : Word) : (setCell s a v).draws = s.draws := rfl
@[simp] theorem setCell_prog (a v : Word) : (setCell s a v).prog = s.prog := rfl
@[simp] theorem setCell_core (a v : Word) : (setCell s a v).core = s.core := rfl
@[simp] theorem setCell_plat (a v : Word) : (setCell s a v).plat = s.plat := rfl

/-! ### dagPut -/

@[simp] theorem dagPut_prim (t : DagType) (n : RegNum) (v : Word) : (dagPut s t n v).prim = if altSelected s n then s.prim else bankWrite s.prim t n v := rfl
@[simp] theorem dagPut_alt (t : DagType) (n : RegNum) (v : Word) : (dagPut s t n v).alt = if altSelected s n then bankWrite s.alt t n v else s.alt := rfl
@[simp] theorem dagPut_mode1 (t : DagType) (n : RegNum) (v : Word) : (dagPut s t n v).mode1 = s.mode1 := rfl
@[simp] theorem dagPut_stkyx (t : DagType) (n : RegNum) (v : Word) : (dagPut s t n v).stkyx = s.stkyx := rfl
@[simp] theorem dagPut_mmask (t : DagType) (n : RegNum) (v : Word) : (dagPut s t n v).mmask = s.mmask := rfl
@[simp] theorem dagPut_irqCb7 (t : DagType) (n : RegNum) (v : Word) : (dagPut s t n v).irqCb7 = s.irqCb7 := rfl
@[simp] theorem dagPut_irqCb15 (t : DagType) (n : RegNum) (v : Word) : (dagPut s t n v).irqCb15 = s.irqCb15 := rfl
@[simp] theorem dagPut_pex (t : DagType) (n : RegNum) (v : Word) : (dagPut s t n v).pex = s.pex := rfl
@[simp] theorem dagPut_pey (t : DagType) (n : RegNum) (v : Word) : (dagPut s t n v).pey = s.pey := rfl
@[simp] theorem dagPut_others (t : DagType) (n : RegNum) (v : Word) : (dagPut s t n v).others = s.others := rfl
@[simp] theorem dagPut_mem (t : DagType) (n : RegNum) (v : Word) : (dagPut s t n v).mem = s.mem := rfl
@[simp] theorem dagPut_mode1Changed (t : DagType) (n : RegNum) (v : Word) : (dagPut s t n v).mode1Changed = s.mode1Changed := rfl
@[simp] theorem dagPut_pc (t : DagType) (n : RegNum) (v : Word) : (dagPut s t n v).pc = s.pc := rfl
@[simp] theorem dagPut_bitTested (t : DagType) (n : RegNum) (v : Word) : (dagPut s t n v).bitTested = s.bitTested := rfl
@[simp] theorem dagPut_draws (t : DagType) (n : RegNum) (v : Word) : (dagPut s t n v).draws = s.draws := rfl
@[simp] theorem dagPut_prog (t : DagType) (n : RegNum) (v : Word) : (dagPut s t n v).prog = s.prog := rfl
@[simp] theorem dagPut_core (t : DagType) (n : RegNum) (v : Word) : (dagPut s t n v).core = s.core := rfl
@[simp] theorem dagPut_plat (t : DagType) (n : RegNum) (v : Word) : (dagPut s t n v).plat = s.plat := rfl

/-! ### dagWrite -/

@[simp] theorem dagWrite_mode1 (t : DagType) (n : RegNum) (v : Word) : (dagWrite s t n v).mode1 = s.mode1 := by cases t <;> rfl
@[simp] theorem dagWrite_stkyx (t : DagType) (n : RegNum) (v : Word) : (dagWrite s t n v).stkyx = s.stkyx := by cases t <;> rfl
@[simp] theorem dagWrite_mmask (t : DagType) (n : RegNum) (v : Word) : (dagWrite s t n v).mmask = s.mmask := by cases t <;> rfl
@[simp] theorem dagWrite_irqCb7 (t : DagType) (n : RegNum) (v : Word) : (dagWrite s t n v).irqCb7 = s.irqCb7 := by cases t <;> rfl
@[simp] theorem dagWrite_irqCb15 (t : DagType) (n : RegNum) (v : Word) : (dagWrite s t n v).irqCb15 = s.irqCb15 := by cases t <;> rfl
@[simp] theorem dagWrite_pex (t : DagType) (n : RegNum) (v : Word) : (dagWrite s t n v).pex = s.pex := by cases t <;> rfl
@[simp] theorem dagWrite_pey (t : DagType) (n : RegNum) (v : Word) : (dagWrite s t n v).pey = s.pey := by cases t <;> rfl
@[simp] theorem dagWrite_others (t : DagType) (n : RegNum) (v : Word) : (dagWrite s t n v).others = s.others := by cases t <;> rfl
@[simp] theorem dagWrite_mem (t : DagType) (n : RegNum) (v : Word) : (dagWrite s t n v).mem = s.mem := by cases t <;> rfl
@[simp] theorem dagWrite_mode1Changed (t : DagType) (n : RegNum) (v : Word) : (dagWrite s t n v).mode1Changed = s.mode1Changed := by cases t <;> rfl
@[simp] theorem dagWrite_pc (t : DagType) (n : RegNum) (v : Word) : (dagWrite s t n v).pc = s.pc := by cases t <;> rfl
@[simp] theorem dagWrite_bitTested (t : DagType) (n : RegNum) (v : Word) : (dagWrite s t n v).bitTested = s.bitTested := by cases t <;> rfl
@[simp] theorem dagWrite_draws (t : DagType) (n : RegNum) (v : Word) : (dagWrite s t n v).draws = s.draws := by cases t <;> rfl
@[simp] theorem dagWrite_prog (t : DagType) (n : RegNum) (v : Word) : (dagWrite s t n v).prog = s.prog := by cases t <;> rfl
@[simp] theorem dagWrite_core (t : DagType) (n : RegNum) (v : Word) : (dagWrite s t n v).core = s.core := by cases t <;> rfl
@[simp] theorem dagWrite_plat (t : DagType) (n : RegNum) (v : Word) : (dagWrite s t n v).plat = s.plat := by cases t <;> rfl

/-! ### dataWrite -/

@[simp] theorem dataWrite_prim (d : Dreg) (v : DataWord) : (dataWrite s d v).prim = s.prim := by unfold dataWrite; split <;> rfl
@[simp] theorem dataWrite_alt (d : Dreg) (v : DataWord) : (dataWrite s d v).alt = s.alt := by unfold dataWrite; split <;> rfl
@[simp] theorem dataWrite_mode1 (d : Dreg) (v : DataWord) : (dataWrite s d v).mode1 = s.mode1 := by unfold dataWrite; split <;> rfl
@[simp] theorem dataWrite_stkyx (d : Dreg) (v : DataWord) : (dataWrite s d v).stkyx = s.stkyx := by unfold dataWrite; split <;> rfl
@[simp] theorem dataWrite_mmask (d : Dreg) (v : DataWord) : (dataWrite s d v).mmask = s.mmask := by unfold dataWrite; split <;> rfl
@[simp] theorem dataWrite_irqCb7 (d : Dreg) (v : DataWord) : (dataWrite s d v).irqCb7 = s.irqCb7 := by unfold dataWrite; split <;> rfl
@[simp] theorem dataWrite_irqCb15 (d : Dreg) (v : DataWord) : (dataWrite s d v).irqCb15 = s.irqCb15 := by unfold dataWrite; split <;> rfl
@[simp] theorem dataWrite_others (d : Dreg) (v : DataWord) : (dataWrite s d v).others = s.others := by unfold dataWrite; split <;> rfl
@[simp] theorem dataWrite_mem (d : Dreg) (v : DataWord) : (dataWrite s d v).mem = s.mem := by unfold dataWrite; split <;> rfl
@[simp] theorem dataWrite_mode1Changed (d : Dreg) (v : DataWord) : (dataWrite s d v).mode1Changed = s.mode1Changed := by unfold dataWrite; split <;> rfl
@[simp] theorem dataWrite_pc (d : Dreg) (v : DataWord) : (dataWrite s d v).pc = s.pc := by unfold dataWrite; split <;> rfl
@[simp] theorem dataWrite_bitTested (d : Dreg) (v : DataWord) : (dataWrite s d v).bitTested = s.bitTested := by unfold dataWrite; split <;> rfl
@[simp] theorem dataWrite_draws (d : Dreg) (v : DataWord) : (dataWrite s d v).draws = s.draws := by unfold dataWrite; split <;> rfl
@[simp] theorem dataWrite_prog (d : Dreg) (v : DataWord) : (dataWrite s d v).prog = s.prog := by unfold dataWrite; split <;> rfl
@[simp] theorem dataWrite_core (d : Dreg) (v : DataWord) : (dataWrite s d v).core = s.core := by unfold dataWrite; split <;> rfl
@[simp] theorem dataWrite_plat (d : Dreg) (v : DataWord) : (dataWrite s d v).plat = s.plat := by unfold dataWrite; split <;> rfl

/-! ### otherWrite -/

@[simp] theorem otherWrite_prim (name : Ident) (v : Word) : (otherWrite s name v).prim = s.prim := rfl
@[simp] theorem otherWrite_alt (name : Ident) (v : Word) : (otherWrite s name v).alt = s.alt := rfl
@[simp] theorem otherWrite_mode1 (name : Ident) (v : Word) : (otherWrite s name v).mode1 = s.mode1 := rfl
@[simp] theorem otherWrite_stkyx (name : Ident) (v : Word) : (otherWrite s name v).stkyx = s.stkyx := rfl
@[simp] theorem otherWrite_mmask (name : Ident) (v : Word) : (otherWrite s name v).mmask = s.mmask := rfl
@[simp] theorem otherWrite_irqCb7 (name : Ident) (v : Word) : (otherWrite s name v).irqCb7 = s.irqCb7 := rfl
@[simp] theorem otherWrite_irqCb15 (name : Ident) (v : Word) : (otherWrite s name v).irqCb15 = s.irqCb15 := rfl
@[simp] theorem otherWrite_pex (name : Ident) (v : Word) : (otherWrite s name v).pex = s.pex := rfl
@[simp] theorem otherWrite_pey (name : Ident) (v : Word) : (otherWrite s name v).pey = s.pey := rfl
@[simp] theorem otherWrite_others (name : Ident) (v : Word) : (otherWrite s name v).others = s.others.map fun e => if e.1 = name then (e.1, v) else e := rfl
@[simp] theorem otherWrite_mem (name : Ident) (v : Word) : (otherWrite s name v).mem = s.mem := rfl
@[simp] theorem otherWrite_mode1Changed (name : Ident) (v : Word) : (otherWrite s name v).mode1Changed = s.mode1Changed := rfl
@[simp] theorem otherWrite_pc (name : Ident) (v : Word) : (otherWrite s name v).pc = s.pc := rfl
@[simp] theorem otherWrite_bitTested (name : Ident) (v : Word) : (otherWrite s name v).bitTested = s.bitTested := rfl
@[simp] theorem otherWrite_draws (name : Ident) (v : Word) : (otherWrite s name v).draws = s.draws := rfl
@[simp] theorem otherWrite_prog (name : Ident) (v : Word) : (otherWrite s name v).prog = s.prog := rfl
@[simp] theorem otherWrite_core (name : Ident) (v : Word) : (otherWrite s name v).core = s.core := rfl
@[simp] theorem otherWrite_plat (name : Ident) (v : Word) : (otherWrite s name v).plat = s.plat := rfl

/-! ### setOverflow -/

@[simp] theorem setOverflow_prim (n : RegNum) (on : Bool) : (setOverflow n on s).prim = s.prim := rfl
@[simp] theorem setOverflow_alt (n : RegNum) (on : Bool) : (setOverflow n on s).alt = s.alt := rfl
@[simp] theorem setOverflow_mode1 (n : RegNum) (on : Bool) : (setOverflow n on s).mode1 = s.mode1 := rfl
@[simp] theorem setOverflow_mmask (n : RegNum) (on : Bool) : (setOverflow n on s).mmask = s.mmask := rfl
@[simp] theorem setOverflow_irqCb7 (n : RegNum) (on : Bool) : (setOverflow n on s).irqCb7 = (s.irqCb7 || (on && n.val == 7)) := rfl
@[simp] theorem setOverflow_irqCb15 (n : RegNum) (on : Bool) : (setOverflow n on s).irqCb15 = (s.irqCb15 || (on && n.val == 15)) := rfl
@[simp] theorem setOverflow_pex (n : RegNum) (on : Bool) : (setOverflow n on s).pex = s.pex := rfl
@[simp] theorem setOverflow_pey (n : RegNum) (on : Bool) : (setOverflow n on s).pey = s.pey := rfl
@[simp] theorem setOverflow_others (n : RegNum) (on : Bool) : (setOverflow n on s).others = s.others := rfl
@[simp] theorem setOverflow_mem (n : RegNum) (on : Bool) : (setOverflow n on s).mem = s.mem := rfl
@[simp] theorem setOverflow_mode1Changed (n : RegNum) (on : Bool) : (setOverflow n on s).mode1Changed = s.mode1Changed := rfl
@[simp] theorem setOverflow_pc (n : RegNum) (on : Bool) : (setOverflow n on s).pc = s.pc := rfl
@[simp] theorem setOverflow_bitTested (n : RegNum) (on : Bool) : (setOverflow n on s).bitTested = s.bitTested := rfl
@[simp] theorem setOverflow_draws (n : RegNum) (on : Bool) : (setOverflow n on s).draws = s.draws := rfl
@[simp] theorem setOverflow_prog (n : RegNum) (on : Bool) : (setOverflow n on s).prog = s.prog := rfl
@[simp] theorem setOverflow_core (n : RegNum) (on : Bool) : (setOverflow n on s).core = s.core := rfl
@[simp] theorem setOverflow_plat (n : RegNum) (on : Bool) : (setOverflow n on s).plat = s.plat := rfl

/-! ### applyOverflow -/

@[simp] theorem applyOverflow_prim (n : RegNum) (k : OverflowKind) : (applyOverflow n k s).prim = s.prim := by cases k <;> rfl
@[simp] theorem applyOverflow_alt (n : RegNum) (k : OverflowKind) : (applyOverflow n k s).alt = s.alt := by cases k <;> rfl
@[simp] theorem applyOverflow_mode1 (n : RegNum) (k : OverflowKind) : (applyOverflow n k s).mode1 = s.mode1 := by cases k <;> rfl
@[simp] theorem applyOverflow_mmask (n : RegNum) (k : OverflowKind) : (applyOverflow n k s).mmask = s.mmask := by cases k <;> rfl
@[simp] theorem applyOverflow_pex (n : RegNum) (k : OverflowKind) : (applyOverflow n k s).pex = s.pex := by cases k <;> rfl
@[simp] theorem applyOverflow_pey (n : RegNum) (k : OverflowKind) : (applyOverflow n k s).pey = s.pey := by cases k <;> rfl
@[simp] theorem applyOverflow_others (n : RegNum) (k : OverflowKind) : (applyOverflow n k s).others = s.others := by cases k <;> rfl
@[simp] theorem applyOverflow_mem (n : RegNum) (k : OverflowKind) : (applyOverflow n k s).mem = s.mem := by cases k <;> rfl
@[simp] theorem applyOverflow_mode1Changed (n : RegNum) (k : OverflowKind) : (applyOverflow n k s).mode1Changed = s.mode1Changed := by cases k <;> rfl
@[simp] theorem applyOverflow_pc (n : RegNum) (k : OverflowKind) : (applyOverflow n k s).pc = s.pc := by cases k <;> rfl
@[simp] theorem applyOverflow_bitTested (n : RegNum) (k : OverflowKind) : (applyOverflow n k s).bitTested = s.bitTested := by cases k <;> rfl
@[simp] theorem applyOverflow_prog (n : RegNum) (k : OverflowKind) : (applyOverflow n k s).prog = s.prog := by cases k <;> rfl
@[simp] theorem applyOverflow_core (n : RegNum) (k : OverflowKind) : (applyOverflow n k s).core = s.core := by cases k <;> rfl
@[simp] theorem applyOverflow_plat (n : RegNum) (k : OverflowKind) : (applyOverflow n k s).plat = s.plat := by cases k <;> rfl

/-! ### applyUpdate -/

@[simp] theorem applyUpdate_mode1 (n : RegNum) (u : IndexUpdate) : (applyUpdate n u s).mode1 = s.mode1 := by simp [applyUpdate]
@[simp] theorem applyUpdate_mmask (n : RegNum) (u : IndexUpdate) : (applyUpdate n u s).mmask = s.mmask := by simp [applyUpdate]
@[simp] theorem applyUpdate_pex (n : RegNum) (u : IndexUpdate) : (applyUpdate n u s).pex = s.pex := by simp [applyUpdate]
@[simp] theorem applyUpdate_pey (n : RegNum) (u : IndexUpdate) : (applyUpdate n u s).pey = s.pey := by simp [applyUpdate]
@[simp] theorem applyUpdate_others (n : RegNum) (u : IndexUpdate) : (applyUpdate n u s).others = s.others := by simp [applyUpdate]
@[simp] theorem applyUpdate_mem (n : RegNum) (u : IndexUpdate) : (applyUpdate n u s).mem = s.mem := by simp [applyUpdate]
@[simp] theorem applyUpdate_mode1Changed (n : RegNum) (u : IndexUpdate) : (applyUpdate n u s).mode1Changed = s.mode1Changed := by simp [applyUpdate]
@[simp] theorem applyUpdate_pc (n : RegNum) (u : IndexUpdate) : (applyUpdate n u s).pc = s.pc := by simp [applyUpdate]
@[simp] theorem applyUpdate_bitTested (n : RegNum) (u : IndexUpdate) : (applyUpdate n u s).bitTested = s.bitTested := by simp [applyUpdate]
@[simp] theorem applyUpdate_prog (n : RegNum) (u : IndexUpdate) : (applyUpdate n u s).prog = s.prog := by simp [applyUpdate]
@[simp] theorem applyUpdate_core (n : RegNum) (u : IndexUpdate) : (applyUpdate n u s).core = s.core := by simp [applyUpdate]
@[simp] theorem applyUpdate_plat (n : RegNum) (u : IndexUpdate) : (applyUpdate n u s).plat = s.plat := by simp [applyUpdate]

/-! ### recordTest -/

@[simp] theorem recordTest_prim (b : Bool) : (recordTest s b).prim = s.prim := rfl
@[simp] theorem recordTest_alt (b : Bool) : (recordTest s b).alt = s.alt := rfl
@[simp] theorem recordTest_mode1 (b : Bool) : (recordTest s b).mode1 = s.mode1 := rfl
@[simp] theorem recordTest_stkyx (b : Bool) : (recordTest s b).stkyx = s.stkyx := rfl
@[simp] theorem recordTest_mmask (b : Bool) : (recordTest s b).mmask = s.mmask := rfl
@[simp] theorem recordTest_irqCb7 (b : Bool) : (recordTest s b).irqCb7 = s.irqCb7 := rfl
@[simp] theorem recordTest_irqCb15 (b : Bool) : (recordTest s b).irqCb15 = s.irqCb15 := rfl
@[simp] theorem recordTest_pex (b : Bool) : (recordTest s b).pex = s.pex := rfl
@[simp] theorem recordTest_pey (b : Bool) : (recordTest s b).pey = s.pey := rfl
@[simp] theorem recordTest_mem (b : Bool) : (recordTest s b).mem = s.mem := rfl
@[simp] theorem recordTest_mode1Changed (b : Bool) : (recordTest s b).mode1Changed = s.mode1Changed := rfl
@[simp] theorem recordTest_pc (b : Bool) : (recordTest s b).pc = s.pc := rfl
@[simp] theorem recordTest_bitTested (b : Bool) : (recordTest s b).bitTested = b := rfl
@[simp] theorem recordTest_draws (b : Bool) : (recordTest s b).draws = s.draws := rfl
@[simp] theorem recordTest_prog (b : Bool) : (recordTest s b).prog = s.prog := rfl
@[simp] theorem recordTest_core (b : Bool) : (recordTest s b).core = s.core := rfl
@[simp] theorem recordTest_plat (b : Bool) : (recordTest s b).plat = s.plat := rfl

/-! ### takeEvent -/

@[simp] theorem takeEvent_prim (e : CoreEvent) : (takeEvent e s).prim = s.prim := rfl
@[simp] theorem takeEvent_alt (e : CoreEvent) : (takeEvent e s).alt = s.alt := rfl
@[simp] theorem takeEvent_mode1 (e : CoreEvent) : (takeEvent e s).mode1 = if e.kind.clearsCbufen then mode1Masked s else s.mode1 := rfl
@[simp] theorem takeEvent_stkyx (e : CoreEvent) : (takeEvent e s).stkyx = s.stkyx := rfl
@[simp] theorem takeEvent_mmask (e : CoreEvent) : (takeEvent e s).mmask = s.mmask := rfl
@[simp] theorem takeEvent_irqCb7 (e : CoreEvent) : (takeEvent e s).irqCb7 = (s.irqCb7 && decide (e.kind ≠ .cb7)) := rfl
@[simp] theorem takeEvent_irqCb15 (e : CoreEvent) : (takeEvent e s).irqCb15 = (s.irqCb15 && decide (e.kind ≠ .cb15)) := rfl
@[simp] theorem takeEvent_pex (e : CoreEvent) : (takeEvent e s).pex = s.pex := rfl
@[simp] theorem takeEvent_pey (e : CoreEvent) : (takeEvent e s).pey = s.pey := rfl
@[simp] theorem takeEvent_others (e : CoreEvent) : (takeEvent e s).others = s.others := rfl
@[simp] theorem takeEvent_mem (e : CoreEvent) : (takeEvent e s).mem = s.mem := rfl
@[simp] theorem takeEvent_mode1Changed (e : CoreEvent) : (takeEvent e s).mode1Changed = 0#32 := rfl
@[simp] theorem takeEvent_pc (e : CoreEvent) : (takeEvent e s).pc = e.pc := rfl
@[simp] theorem takeEvent_bitTested (e : CoreEvent) : (takeEvent e s).bitTested = s.bitTested := rfl
@[simp] theorem takeEvent_draws (e : CoreEvent) : (takeEvent e s).draws = s.draws := rfl
@[simp] theorem takeEvent_prog (e : CoreEvent) : (takeEvent e s).prog = s.prog := rfl
@[simp] theorem takeEvent_core (e : CoreEvent) : (takeEvent e s).core = s.core := rfl
@[simp] theorem takeEvent_plat (e : CoreEvent) : (takeEvent e s).plat = s.plat := rfl

end Sys2Proof.Machine
end

