-- ==== Sys2Proof/Laws/Memory.lean ====
section
/-! SUPPORT. Memory: a read after a write, and the canonical form every operation keeps (rules R62, R64). -/

namespace Sys2Proof.Machine

@[simp] theorem cellRead_cellWrite_same (m : Memory) (a : Nat) (v : Word) : cellRead (cellWrite m a v) a = some v := by
  induction m with
  | nil => simp [cellWrite, cellRead]
  | cons e m ih =>
    rcases e with ⟨k, u⟩
    simp only [cellWrite]
    split
    · simp [cellRead]
    · split
      · simp [cellRead]
      · rename_i h1 h2
        simp [cellRead, Ne.symm h2, ih]

theorem cellRead_cellWrite_other (m : Memory) (a b : Nat) (v : Word) (h : b ≠ a) :
    cellRead (cellWrite m a v) b = cellRead m b := by
  induction m with
  | nil => simp [cellWrite, cellRead, Ne.symm h]
  | cons e m ih =>
    rcases e with ⟨k, u⟩
    simp only [cellWrite]
    split
    · simp [cellRead, Ne.symm h]
    · split
      · rename_i h1 h2
        subst h2
        simp [cellRead, Ne.symm h]
      · simp [cellRead, ih]

/-- Every address of the memory is above `lo`, below 2^32, and above the addresses before it. -/
theorem Memory.wfFrom_cellWrite (m : Memory) (lo a : Nat) (v : Word) (hlo : lo ≤ a) (ha : a < 4294967296)
    (h : Memory.wfFrom lo m = true) : Memory.wfFrom lo (cellWrite m a v) = true := by
  induction m generalizing lo with
  | nil => simp [cellWrite, Memory.wfFrom, hlo, ha]
  | cons e m ih =>
    rcases e with ⟨k, u⟩
    simp only [Memory.wfFrom, Bool.and_eq_true, decide_eq_true_eq] at h
    obtain ⟨⟨h1, h2⟩, h3⟩ := h
    simp only [cellWrite]
    split
    · rename_i hk
      simp [Memory.wfFrom, hlo, ha, h2, h3]
      omega
    · split
      · rename_i hk he
        subst he
        simp [Memory.wfFrom, h1, ha, h3]
      · rename_i hk he
        simp [Memory.wfFrom, h1, h2, ih (k + 1) (by omega) h3]

/-- A write keeps the canonical form. -/
theorem setCell_wf (s : State) (a v : Word) (h : Memory.wf s.mem = true) : Memory.wf (setCell s a v).mem = true := by
  have ha : a.toNat < 4294967296 := a.isLt
  exact Memory.wfFrom_cellWrite s.mem 0 a.toNat v (Nat.zero_le _) ha h

theorem memWriteNw_ok {s t : State} {bus : Bus} {a v : Word} (h : memWriteNw s bus a v = .ok t) :
    admitted s bus .nw a = true ∧ t = setCell s a v := by
  unfold memWriteNw at h
  split at h
  · exact ⟨by assumption, by cases h; rfl⟩
  · cases h

theorem memWriteLw_ok {s t : State} {bus : Bus} {a : Word} {v : LongWord} (h : memWriteLw s bus a v = .ok t) :
    admitted s bus .lw a = true ∧
      t = setCell (setCell s (longWordCells s a).1 (v.extractLsb' 0 32)) (longWordCells s a).2
        (v.extractLsb' 32 32) := by
  unfold memWriteLw at h
  split at h
  · exact ⟨by assumption, by cases h; rfl⟩
  · cases h

theorem memReadNw_ok {s : State} {bus : Bus} {a v : Word} (h : memReadNw s bus a = .ok v) :
    admitted s bus .nw a = true ∧ cellRead s.mem a.toNat = some v := by
  unfold memReadNw cell at h
  split at h
  · refine ⟨by assumption, ?_⟩
    split at h
    · cases h; assumption
    · cases h
  · cases h

theorem memReadNw_eq {s : State} {bus : Bus} {a v : Word} (h1 : admitted s bus .nw a = true)
    (h2 : cellRead s.mem a.toNat = some v) : memReadNw s bus a = .ok v := by
  simp [memReadNw, cell, h1, h2]

theorem memReadLw_eq {s : State} {bus : Bus} {a lo hi : Word} (h1 : admitted s bus .lw a = true)
    (h2 : cellRead s.mem (longWordCells s a).1.toNat = some lo)
    (h3 : cellRead s.mem (longWordCells s a).2.toNat = some hi) : memReadLw s bus a = .ok (hi ++ lo) := by
  simp [memReadLw, cell, h1, h2, h3]

/-- On a platform that lists no range, the cells of a long word are the even address and the one after it (R67). -/
theorem longWordCells_default {s : State} (h : s.plat.longWords = []) (a : Word) :
    longWordCells s a = (a &&& ~~~1#32, (a &&& ~~~1#32) + 1#32) := by
  rw [longWordCells, h, cellsIn]

/-- The even address below an address, as a number. -/
theorem evenBelow_toNat (a : Word) : (a &&& ~~~1#32).toNat = 2 * (a.toNat / 2) := by
  have hs : (a &&& ~~~1#32) = (a >>> 1) <<< 1 := by
    apply BitVec.eq_of_getLsbD_eq
    intro k hk
    simp only [BitVec.getLsbD_and, BitVec.getLsbD_shiftLeft, BitVec.getLsbD_ushiftRight, BitVec.getLsbD_not, hk,
      BitVec.getLsbD_one]
    rcases k with _ | k
    · simp
    · simp [Nat.add_comm]
  rw [hs]
  have := a.isLt
  simp only [BitVec.toNat_shiftLeft, BitVec.toNat_ushiftRight, Nat.shiftLeft_eq, Nat.shiftRight_eq_div_pow]
  omega

/-- The choice of a long word's cells looks at nothing but the platform. -/
theorem longWordCells_congr {s t : State} (h : t.plat = s.plat) (a : Word) : longWordCells t a = longWordCells s a := by
  rw [longWordCells, longWordCells, h]

/-- The halves of a long word (R64). -/
theorem extract_low (hi lo : Word) : (hi ++ lo).extractLsb' 0 32 = lo := by
  apply BitVec.eq_of_getLsbD_eq
  intro k hk
  have h := BitVec.getLsbD_append (x := hi) (y := lo) (i := 0 + k)
  rw [BitVec.getLsbD_extractLsb']
  simp_all

theorem extract_high (hi lo : Word) : (hi ++ lo).extractLsb' 32 32 = hi := by
  apply BitVec.eq_of_getLsbD_eq
  intro k hk
  have h := BitVec.getLsbD_append (x := hi) (y := lo) (i := 32 + k)
  rw [BitVec.getLsbD_extractLsb']
  simp_all

end Sys2Proof.Machine
end

