-- ==== Sys2Proof/Laws/Registers.lean ====
section
/-! SUPPORT. What reads of registers see after writes (rules R22 to R25): DAG registers, data registers, other universal
registers. -/

namespace Sys2Proof.Machine

variable (s : State)

/-! ### Banks -/

@[simp] theorem bankRead_bankWrite_same (k : DagBank) (t : DagType) (n : RegNum) (v : Word) :
    bankRead (bankWrite k t n v) t n = v := by
  cases t <;> simp [bankRead, bankWrite]

theorem bankRead_bankWrite_other (k : DagBank) (t t' : DagType) (n n' : RegNum) (v : Word)
    (h : ¬(t' = t ∧ n' = n)) : bankRead (bankWrite k t n v) t' n' = bankRead k t' n' := by
  have hn : t' = t → n.val ≠ n'.val := fun ht hv => h ⟨ht, Fin.ext hv.symm⟩
  cases t <;> cases t' <;> simp_all [bankRead, bankWrite]

/-! ### The selection of a copy depends on MODE1 alone -/

/-- Two states with one MODE1 select the same copies. -/
theorem altSelected_congr {s s' : State} (h : s'.mode1 = s.mode1) (n : RegNum) : altSelected s' n = altSelected s n := by
  simp [altSelected, mode1Bit, h]

@[simp] theorem altSelected_dagPut (t : DagType) (n : RegNum) (v : Word) (n' : RegNum) :
    altSelected (dagPut s t n v) n' = altSelected s n' := rfl

@[simp] theorem altSelected_dagWrite (t : DagType) (n : RegNum) (v : Word) (n' : RegNum) :
    altSelected (dagWrite s t n v) n' = altSelected s n' := altSelected_congr (by simp) n'

/-- A DAG register read depends on MODE1 and the two banks alone. -/
theorem dagRead_congr {s s' : State} (hm : s'.mode1 = s.mode1) (hp : s'.prim = s.prim) (ha : s'.alt = s.alt)
    (t : DagType) (n : RegNum) : dagRead s' t n = dagRead s t n := by
  unfold dagRead
  rw [altSelected_congr hm, hp, ha]

/-! ### DAG register writes -/

@[simp] theorem dagRead_dagPut_same (t : DagType) (n : RegNum) (v : Word) : dagRead (dagPut s t n v) t n = v := by
  simp only [dagRead, altSelected_dagPut, dagPut_alt, dagPut_prim]
  split <;> simp

theorem dagRead_dagPut_other (t t' : DagType) (n n' : RegNum) (v : Word) (h : ¬(t' = t ∧ n' = n)) :
    dagRead (dagPut s t n v) t' n' = dagRead s t' n' := by
  simp only [dagRead, altSelected_dagPut, dagPut_alt, dagPut_prim]
  by_cases ha : altSelected s n' = true <;> by_cases hb : altSelected s n = true <;>
    simp [ha, hb, bankRead_bankWrite_other _ _ _ _ _ _ h]

/-- After a write of X[n]: X[n] holds the value, and I[n] too if X is B (R24); every other register holds what it held (R25). -/
theorem dagRead_dagWrite (t t' : DagType) (n n' : RegNum) (v : Word) :
    dagRead (dagWrite s t n v) t' n' =
      if n' = n ∧ (t' = t ∨ (t = .b ∧ t' = .i)) then v else dagRead s t' n' := by
  by_cases hn : n' = n
  · subst hn
    cases t <;> cases t' <;> simp [dagWrite, dagRead_dagPut_other]
  · cases t <;> simp [dagWrite, hn, dagRead_dagPut_other]

/-- A write leaves every copy that is not selected as it was (R23). -/
@[simp] theorem dagHidden_dagPut (t t' : DagType) (n n' : RegNum) (v : Word) :
    dagHidden (dagPut s t n v) t' n' = dagHidden s t' n' := by
  simp only [dagHidden, altSelected_dagPut, dagPut_alt, dagPut_prim]
  by_cases hn : n' = n
  · subst hn
    by_cases ha : altSelected s n' = true <;> simp [ha]
  · by_cases ha : altSelected s n' = true <;> by_cases hb : altSelected s n = true <;>
      simp [ha, hb, bankRead_bankWrite_other, hn]

@[simp] theorem dagHidden_dagWrite (t t' : DagType) (n n' : RegNum) (v : Word) :
    dagHidden (dagWrite s t n v) t' n' = dagHidden s t' n' := by
  cases t <;> simp [dagWrite]

/-- The copy that is not selected depends on MODE1 and the two banks alone. -/
theorem dagHidden_congr {s s' : State} (hm : s'.mode1 = s.mode1) (hp : s'.prim = s.prim) (ha : s'.alt = s.alt)
    (t : DagType) (n : RegNum) : dagHidden s' t n = dagHidden s t n := by
  unfold dagHidden
  rw [altSelected_congr hm, hp, ha]

/-- The partner of an even register is the next one, of an odd one the one before (R26, R178). -/
theorem partner_val (n : RegNum) : (partner n).val = if n.val % 2 = 0 then n.val + 1 else n.val - 1 := by revert n; decide

/-- `partner` is an involution without fixed points that keeps the group (R26, R22). -/
theorem partner_partner (n : RegNum) : partner (partner n) = n := by revert n; decide

theorem partner_ne (n : RegNum) : partner n ≠ n := by revert n; decide

theorem groupBit_partner (n : RegNum) : groupBit (partner n) = groupBit n := by revert n; decide

/-! ### Data registers -/

@[simp] theorem comp_comp (d : Dreg) : comp (comp d) = d := by
  rcases d with ⟨pe, num⟩; cases pe <;> rfl

theorem comp_ne (d : Dreg) : comp d ≠ d := by
  rcases d with ⟨pe, num⟩; cases pe <;> simp [comp]

@[simp] theorem dataRead_dataWrite_same (d : Dreg) (v : DataWord) : dataRead (dataWrite s d v) d = v := by
  rcases d with ⟨pe, num⟩; cases pe <;> simp [dataRead, dataWrite]

theorem dataRead_dataWrite_other (d d' : Dreg) (v : DataWord) (h : d' ≠ d) :
    dataRead (dataWrite s d v) d' = dataRead s d' := by
  rcases d with ⟨pe, num⟩
  rcases d' with ⟨pe', num'⟩
  have hn : pe' = pe → num.val ≠ num'.val := by
    intro hp hv
    exact h (by rw [hp, Fin.ext hv.symm])
  cases pe <;> cases pe' <;> simp_all [dataRead, dataWrite]

/-- A data register read depends on the two files alone. -/
theorem dataRead_congr {s s' : State} (hx : s'.pex = s.pex) (hy : s'.pey = s.pey) (d : Dreg) :
    dataRead s' d = dataRead s d := by
  simp [dataRead, hx, hy]

/-! ### Other universal registers -/

theorem otherRead_otherWrite (name name' : Ident) (v : Word) :
    otherRead (otherWrite s name v) name' =
      if name' = name then (otherRead s name).map fun _ => v else otherRead s name' := by
  simp only [otherRead, otherWrite_others]
  generalize s.others = l
  induction l with
  | nil => simp
  | cons e l ih =>
    rcases e with ⟨k, u⟩
    by_cases hk : k = name
    · subst hk
      by_cases hn : name' = k
      · subst hn; simp
      · have hb : (name' == k) = false := by simpa using hn
        simp [List.lookup_cons, hb, hn, ih]
    · have hc : (name == k) = false := by simpa using Ne.symm hk
      by_cases hn : name' = k
      · subst hn; simp [hk]
      · have hb : (name' == k) = false := by simpa using hn
        simp [List.lookup_cons, hb, hc, hk, ih]

/-- The set of other universal registers is not changed by a write (R32). -/
theorem otherWrite_names (name : Ident) (v : Word) : (otherWrite s name v).others.map Prod.fst = s.others.map Prod.fst := by
  simp only [otherWrite_others, List.map_map]
  congr 1
  funext e
  simp only [Function.comp]
  split <;> rfl

theorem recordTest_names (b : Bool) : (recordTest s b).others.map Prod.fst = s.others.map Prod.fst := by
  simp only [recordTest, List.map_map]
  congr 1
  funext e
  simp only [Function.comp]
  split <;> rfl

end Sys2Proof.Machine
end

