-- ==== Sys2Proof/Laws/Frame.lean ====
section
/-! SUPPORT. What no part of a statement but a MODE1 write and the advance of pc can change, said once for every register write,
memory write and overflow event, and closed under doing one after another. -/

namespace Sys2Proof.Machine

/-- `t` comes from `s` by writes of registers and memory and by overflow events. -/
structure Quiet (s t : State) : Prop where
  mode1 : t.mode1 = s.mode1
  mode1Changed : t.mode1Changed = s.mode1Changed
  mmask : t.mmask = s.mmask
  pc : t.pc = s.pc
  prog : t.prog = s.prog
  plat : t.plat = s.plat
  core : t.core = s.core
  names : t.others.map Prod.fst = s.others.map Prod.fst
  hidden : ∀ ty n, dagHidden t ty n = dagHidden s ty n
  sticky : ∀ k, s.stkyx.getLsbD k = true → t.stkyx.getLsbD k = true
  flags : ∀ k : Nat, k ≠ s.plat.stkyCb7s → k ≠ s.plat.stkyCb15s → t.stkyx.getLsbD k = s.stkyx.getLsbD k
  keep7 : s.irqCb7 = true → t.irqCb7 = true
  keep15 : s.irqCb15 = true → t.irqCb15 = true
  raise7 : t.irqCb7 = true → s.irqCb7 = true ∨ t.stkyx.getLsbD s.plat.stkyCb7s = true
  raise15 : t.irqCb15 = true → s.irqCb15 = true ∨ t.stkyx.getLsbD s.plat.stkyCb15s = true
  memory : Memory.wf s.mem = true → Memory.wf t.mem = true

theorem Quiet.refl (s : State) : Quiet s s where
  mode1 := rfl
  mode1Changed := rfl
  mmask := rfl
  pc := rfl
  prog := rfl
  plat := rfl
  core := rfl
  names := rfl
  hidden _ _ := rfl
  sticky _ h := h
  flags _ _ _ := rfl
  keep7 h := h
  keep15 h := h
  raise7 h := .inl h
  raise15 h := .inl h
  memory h := h

theorem Quiet.trans {s t u : State} (h : Quiet s t) (k : Quiet t u) : Quiet s u where
  mode1 := k.mode1.trans h.mode1
  mode1Changed := k.mode1Changed.trans h.mode1Changed
  mmask := k.mmask.trans h.mmask
  pc := k.pc.trans h.pc
  prog := k.prog.trans h.prog
  plat := k.plat.trans h.plat
  core := k.core.trans h.core
  names := k.names.trans h.names
  hidden ty n := (k.hidden ty n).trans (h.hidden ty n)
  sticky b hb := k.sticky b (h.sticky b hb)
  flags b h7 h15 := (k.flags b (by rwa [h.plat]) (by rwa [h.plat])).trans (h.flags b h7 h15)
  keep7 hs := k.keep7 (h.keep7 hs)
  keep15 hs := k.keep15 (h.keep15 hs)
  raise7 hu := (k.raise7 hu).elim (fun ht => (h.raise7 ht).imp_right (k.sticky _)) (h.plat ▸ .inr ·)
  raise15 hu := (k.raise15 hu).elim (fun ht => (h.raise15 ht).imp_right (k.sticky _)) (h.plat ▸ .inr ·)
  memory hm := k.memory (h.memory hm)

/-- A change of registers and memory that keeps MODE1, the status and the program state is quiet if it keeps the hidden copies,
the names and the form of memory. -/
theorem quiet_of_status {s t : State} (hm : t.mode1 = s.mode1) (hc : t.mode1Changed = s.mode1Changed)
    (hk : t.mmask = s.mmask) (hp : t.pc = s.pc) (hg : t.prog = s.prog) (hl : t.plat = s.plat) (he : t.core = s.core)
    (hy : t.stkyx = s.stkyx) (h7 : t.irqCb7 = s.irqCb7) (h15 : t.irqCb15 = s.irqCb15)
    (hn : t.others.map Prod.fst = s.others.map Prod.fst) (hh : ∀ ty n, dagHidden t ty n = dagHidden s ty n)
    (hw : Memory.wf s.mem = true → Memory.wf t.mem = true) : Quiet s t where
  mode1 := hm
  mode1Changed := hc
  mmask := hk
  pc := hp
  prog := hg
  plat := hl
  core := he
  names := hn
  hidden := hh
  sticky _ h := by rw [hy]; exact h
  flags _ _ _ := by rw [hy]
  keep7 h := by rw [h7]; exact h
  keep15 h := by rw [h15]; exact h
  raise7 h := .inl (by rw [← h7]; exact h)
  raise15 h := .inl (by rw [← h15]; exact h)
  memory := hw

theorem quiet_dagPut (s : State) (ty : DagType) (n : RegNum) (v : Word) : Quiet s (dagPut s ty n v) := by
  apply quiet_of_status <;> simp

theorem quiet_dagWrite (s : State) (ty : DagType) (n : RegNum) (v : Word) : Quiet s (dagWrite s ty n v) := by
  apply quiet_of_status <;> simp

theorem quiet_dataWrite (s : State) (d : Dreg) (v : DataWord) : Quiet s (dataWrite s d v) := by
  apply quiet_of_status
  case hh => exact dagHidden_congr (by simp) (by simp) (by simp)
  all_goals simp

theorem quiet_otherWrite (s : State) (name : Ident) (v : Word) : Quiet s (otherWrite s name v) := by
  apply quiet_of_status
  case hh => exact dagHidden_congr rfl rfl rfl
  case hn => exact otherWrite_names s name v
  all_goals simp

theorem quiet_setCell (s : State) (a v : Word) : Quiet s (setCell s a v) := by
  apply quiet_of_status
  case hh => exact dagHidden_congr rfl rfl rfl
  case hw => exact setCell_wf s a v
  all_goals rfl

theorem quiet_recordTest (s : State) (b : Bool) : Quiet s (recordTest s b) := by
  apply quiet_of_status
  case hh => exact dagHidden_congr rfl rfl rfl
  case hn => exact recordTest_names s b
  all_goals simp

theorem bitMask_getLsbD (j k : Nat) (hj : j < 32) : (bitMask j).getLsbD k = decide (j = k) := by
  simp only [bitMask, BitVec.getLsbD_shiftLeft, BitVec.getLsbD_one]
  by_cases hk : k < 32 <;> by_cases hjk : k < j <;> simp [hk, hjk] <;> omega

/-- Setting the overflow status keeps the other bits of STKYX, clears none, and raises a request only beside its flag (R120). -/
theorem quiet_setOverflow (s : State) (n : RegNum) (on : Bool) : Quiet s (setOverflow n on s) := by
  have hb : ∀ (j : Fin 32) (k : Nat), (bitMask j).getLsbD k = decide (j.val = k) := fun j k => bitMask_getLsbD j k j.isLt
  have hx : (n.val == 15) = true → (n.val == 7) = false := by simp; omega
  constructor
  case hidden => exact dagHidden_congr (s := s) (s' := setOverflow n on s) rfl rfl rfl
  case sticky =>
    intro k hk
    simp only [setOverflow]
    split
    · simp [hk]
    · split <;> simp [hk]
  case flags =>
    intro k h7 h15
    simp only [setOverflow]
    split
    · rw [BitVec.getLsbD_or, hb]; simp [Ne.symm h7]
    · split
      · rw [BitVec.getLsbD_or, hb]; simp [Ne.symm h15]
      · rfl
  case raise7 =>
    simp only [setOverflow, Bool.or_eq_true]
    rintro (h | h)
    · exact .inl h
    · refine .inr ?_
      rw [if_pos h, BitVec.getLsbD_or, hb]; simp
  case raise15 =>
    simp only [setOverflow, Bool.or_eq_true]
    rintro (h | h)
    · exact .inl h
    · refine .inr ?_
      have h' := h
      rw [Bool.and_eq_true] at h'
      rw [if_neg (by simp [hx h'.2]), if_pos h, BitVec.getLsbD_or, hb]; simp
  all_goals first | rfl | (intro h; simp [h])

theorem quiet_draws (s : State) (k : Nat) : Quiet s { s with draws := k } := by
  apply quiet_of_status
  case hh => exact dagHidden_congr rfl rfl rfl
  case hw => exact id
  all_goals rfl

theorem quiet_applyOverflow (s : State) (n : RegNum) (k : OverflowKind) : Quiet s (applyOverflow n k s) := by
  cases k
  · exact Quiet.refl s
  · exact quiet_setOverflow s n true
  · exact (quiet_setOverflow s n _).trans (quiet_draws _ _)

theorem quiet_applyUpdate (s : State) (n : RegNum) (u : IndexUpdate) : Quiet s (applyUpdate n u s) :=
  (quiet_dagPut s .i n u.index).trans (quiet_applyOverflow _ n u.overflow)

/-- A register write that is not of a control register is quiet. -/
theorem quiet_putNw {s t : State} {u : Ureg} {v : Word} {bc : Bool} (hu : ∀ r, u ≠ .system r) (h : putNw s u v bc = .ok t) :
    Quiet s t := by
  cases u with
  | system r => exact absurd rfl (hu r)
  | dag ty n => cases h; exact quiet_dagWrite s ty n v
  | data d =>
    cases bc <;> cases h
    · exact quiet_dataWrite s d _
    · exact (quiet_dataWrite s d _).trans (quiet_dataWrite _ _ _)
  | other name =>
    simp only [putNw] at h
    split at h
    · cases h; exact quiet_otherWrite s name v
    · cases h

theorem quiet_putLw {s t : State} {u : Ureg} {v : LongWord} (h : putLw s u v = .ok t) : Quiet s t := by
  cases u with
  | dag ty n => cases h; exact (quiet_dagWrite s ty n _).trans (quiet_dagWrite _ _ _ _)
  | data d => cases h
  | system r => cases h
  | other name => cases h

theorem quiet_memWriteNw {s t : State} {bus : Bus} {a v : Word} (h : memWriteNw s bus a v = .ok t) : Quiet s t := by
  obtain ⟨-, rfl⟩ := memWriteNw_ok h
  exact quiet_setCell s a v

theorem quiet_memWriteLw {s t : State} {bus : Bus} {a : Word} {v : LongWord} (h : memWriteLw s bus a v = .ok t) :
    Quiet s t := by
  obtain ⟨-, rfl⟩ := memWriteLw_ok h
  exact (quiet_setCell s _ _).trans (quiet_setCell _ _ _)

end Sys2Proof.Machine
end

