-- ==== Sys2Proof/Laws/Meaning.lean ====
section
/-! SUPPORT. The meanings by shape: what a statement can do, said once, so that a proof over all instructions splits on the eleven
shapes and not on the thirty-six rows. -/

namespace Sys2Proof.Machine

/-- The effect of a statement that passes `Check`, by its shape. -/
def effect (sh : Shape) (s : State) : Except Stop State :=
  match sh with
  | .access x =>
    match x.order with
    | .post => postAccess x s
    | .pre => preAccess x s
  | .dual r1 a b r2 c d => dualMove r1 a b r2 c d s
  | .modify n m => modifyIndex n m s
  | .bitrev n v => bitrevIndex n v s
  | .ldi u n => (putNw s u n false).bind fun s1 => .ok (advance s1)
  | .mov u1 u2 => (moveRegister u1 u2 s).bind fun s1 => .ok (advance s1)
  | .bitset n => .ok (advance (writeMode1 s (s.mode1 ||| n)))
  | .nop => .ok (advance s)
  | .bittst n => .ok (advance (recordTest s (stkyxTest s n)))
  | .pushSts => .ok (advance (writeMode1 s (mode1Masked s)))
  | .doUntil _ _ => .error (.refused .loopNotSpecified)

/-- Every meaning is its shape's effect behind `Check`. -/
theorem exec_eq (i : Instr) (s : State) : exec i s = statement i.shape s (effect i.shape) := by
  cases i <;> rfl

theorem finish_eq_next {r : Except Stop State} {t : State} : finish r = .next t ↔ r = .ok t := by
  cases r with
  | ok a => simp [finish]
  | error e => cases e <;> simp [finish, halt]

/-- A statement answers a next state exactly if it passes `Check` and its effect gives that state. -/
theorem statement_eq_next {sh : Shape} {s t : State} {f : State → Except Stop State} :
    statement sh s f = .next t ↔ check sh s = none ∧ f (clearLatency s) = .ok t := by
  unfold statement
  cases h : check sh s with
  | none => simp [finish_eq_next]
  | some e => cases e <;> simp [halt]

/-- An instruction answers a next state exactly if it passes `Check` and its effect gives that state. -/
theorem exec_eq_next {i : Instr} {s t : State} :
    exec i s = .next t ↔ check i.shape s = none ∧ effect i.shape (clearLatency s) = .ok t := by
  rw [exec_eq, statement_eq_next]

theorem bind_ok {α β : Type} {x : Except Stop α} {f : α → Except Stop β} {b : β} :
    x.bind f = .ok b ↔ ∃ a, x = .ok a ∧ f a = .ok b := by
  cases x <;> simp [Except.bind]

/-- A register write of a control register writes it whole, and only where the platform has it (R32). -/
theorem putNw_system {s t : State} {r : SystemReg} {v : Word} {bc : Bool} (h : putNw s (.system r) v bc = .ok t) :
    isSystemUreg s r = true ∧ t = systemWrite s r v := by
  simp only [putNw] at h
  split at h
  · exact ⟨by assumption, by cases h; rfl⟩
  · cases h

/-- The control register an access loads. -/
def systemLoaded (x : Access) : Option SystemReg :=
  match x.xfer with
  | .load (.system r) _ => some r
  | _ => none

/-- The control register a statement writes as its Ureg. -/
def systemDest (sh : Shape) : Option SystemReg :=
  match sh with
  | .access x => systemLoaded x
  | .ldi (.system r) _ => some r
  | .mov (.system r) _ => some r
  | _ => none

/-- A load of a control register writes the word read from memory; it is a normal word (R179). -/
theorem move_system {x : Access} {a : Word} {s t : State} {r : SystemReg} (hx : systemLoaded x = some r)
    (h : move x a s = .ok t) :
    x.xfer = .load (.system r) .nw ∧ ∃ v, memReadNw s x.bus a = .ok v ∧ isSystemUreg s r = true ∧ t = systemWrite s r v := by
  unfold systemLoaded at hx
  split at hx
  · rename_i r' w hl
    cases hx
    unfold move at h
    rw [hl] at h
    cases w
    · obtain ⟨v, hv, h⟩ := bind_ok.1 h
      obtain ⟨h1, h2⟩ := putNw_system h
      exact ⟨hl, v, hv, h1, h2⟩
    · obtain ⟨v, hv, h⟩ := bind_ok.1 h
      cases h
  · cases hx

/-- An access that loads no control register moves a word by quiet changes. -/
theorem move_quiet {x : Access} {a : Word} {s t : State} (hx : systemLoaded x = none) (h : move x a s = .ok t) : Quiet s t := by
  unfold move at h
  split at h
  · obtain ⟨v, -, h⟩ := bind_ok.1 h; exact quiet_memWriteNw h
  · obtain ⟨v, -, h⟩ := bind_ok.1 h; exact quiet_memWriteLw h
  · exact quiet_memWriteNw h
  · rename_i u hl
    obtain ⟨v, -, h⟩ := bind_ok.1 h
    exact quiet_putNw (fun r hr => by rw [systemLoaded, hl, hr] at hx; cases hx) h
  · obtain ⟨v, -, h⟩ := bind_ok.1 h; exact quiet_putLw h

theorem moveRegister_quiet {u1 u2 : Ureg} {s t : State} (hu : ∀ r, u1 ≠ .system r) (h : moveRegister u1 u2 s = .ok t) :
    Quiet s t := by
  unfold moveRegister at h
  split at h
  · cases h; exact quiet_dagWrite _ _ _ _
  · exact quiet_putNw hu h
  · cases h; exact quiet_dagWrite _ _ _ _
  · exact absurd rfl (hu _)
  · obtain ⟨v, -, h⟩ := bind_ok.1 h; cases h; exact quiet_dagWrite _ _ _ _
  · exact quiet_putNw hu h
  · obtain ⟨v, -, h⟩ := bind_ok.1 h; cases h; exact quiet_dagWrite _ _ _ _
  · cases h

/-- The shapes that write MODE1. -/
def writesMode1 (sh : Shape) : Bool :=
  match sh with
  | .bitset _ => true
  | .pushSts => true
  | _ => false

/-- A statement that writes no control register makes quiet changes and advances pc. -/
theorem effect_quiet {sh : Shape} {s t : State} (hw : writesMode1 sh = false) (hd : systemDest sh = none)
    (h : effect sh s = .ok t) : ∃ u, Quiet s u ∧ t = advance u := by
  cases sh with
  | access x =>
    simp only [effect] at h
    split at h
    · obtain ⟨s1, h1, h⟩ := bind_ok.1 h
      obtain ⟨u, -, h⟩ := bind_ok.1 h
      cases h
      have hq := move_quiet hd h1
      rw [underMode_applyUpdate hq.mode1]
      exact ⟨_, hq.trans (quiet_applyUpdate _ _ _), rfl⟩
    · unfold preAccess at h
      split at h
      · obtain ⟨s1, h1, h⟩ := bind_ok.1 h
        cases h
        exact ⟨_, move_quiet hd h1, rfl⟩
      · cases h
  | dual r1 a b r2 c d =>
    simp only [effect, dualMove] at h
    obtain ⟨v1, -, h⟩ := bind_ok.1 h
    obtain ⟨v2, -, h⟩ := bind_ok.1 h
    obtain ⟨s1, h1, h⟩ := bind_ok.1 h
    obtain ⟨s2, h2, h⟩ := bind_ok.1 h
    obtain ⟨u1, -, h⟩ := bind_ok.1 h
    obtain ⟨u2, -, h⟩ := bind_ok.1 h
    cases h
    have hq := (quiet_putNw (fun _ => Ureg.noConfusion) h1).trans (quiet_putNw (fun _ => Ureg.noConfusion) h2)
    exact ⟨_, (hq.trans (quiet_applyUpdate _ _ _)).trans (quiet_applyUpdate _ _ _), rfl⟩
  | modify n m =>
    simp only [effect, modifyIndex] at h
    obtain ⟨u, -, h⟩ := bind_ok.1 h
    cases h
    exact ⟨_, quiet_applyUpdate _ _ _, rfl⟩
  | bitrev n v => cases h; exact ⟨_, quiet_dagPut _ _ _ _, rfl⟩
  | ldi u n =>
    simp only [effect] at h
    obtain ⟨s1, h1, h⟩ := bind_ok.1 h
    cases h
    exact ⟨_, quiet_putNw (fun r hr => by rw [hr] at hd; cases hd) h1, rfl⟩
  | mov u1 u2 =>
    simp only [effect] at h
    obtain ⟨s1, h1, h⟩ := bind_ok.1 h
    cases h
    exact ⟨_, moveRegister_quiet (fun r hr => by rw [hr] at hd; cases hd) h1, rfl⟩
  | bitset n => cases hw
  | nop => cases h; exact ⟨_, Quiet.refl _, rfl⟩
  | bittst n => cases h; exact ⟨_, quiet_recordTest _ _, rfl⟩
  | pushSts => cases hw
  | doUntil n l => cases h

theorem shape_bitset {i : Instr} {n : Word} (h : i.shape = .bitset n) : i = .bitsetMode1 n := by
  cases i <;> simp_all [Instr.shape]

theorem shape_pushSts {i : Instr} (h : i.shape = .pushSts) : i = .pushSts := by
  cases i <;> simp_all [Instr.shape]

/-- A statement whose Ureg destination is a control register writes it and makes quiet changes: after the write of STKYX, whose
overflow flag an index update can still set (R73), before the write of MODE1 or MMASK. -/
theorem effect_system {sh : Shape} {s t : State} {r : SystemReg} (hd : systemDest sh = some r) (h : effect sh s = .ok t) :
    ∃ v q, (r ≠ .stkyx ∧ Quiet s q ∧ t = advance (systemWrite q r v)) ∨
      (r = .stkyx ∧ Quiet (systemWrite s .stkyx v) q ∧ t = advance q) := by
  have plain (v : Word) (h : t = advance (systemWrite s r v)) :
      ∃ v q, (r ≠ .stkyx ∧ Quiet s q ∧ t = advance (systemWrite q r v)) ∨
        (r = .stkyx ∧ Quiet (systemWrite s .stkyx v) q ∧ t = advance q) := by
    by_cases hr : r = .stkyx
    · exact ⟨v, _, .inr ⟨hr, Quiet.refl _, by rw [h, hr]⟩⟩
    · exact ⟨v, s, .inl ⟨hr, Quiet.refl s, h⟩⟩
  cases sh with
  | access x =>
    simp only [effect] at h
    split at h
    · obtain ⟨s1, h1, h⟩ := bind_ok.1 h
      obtain ⟨u, -, h⟩ := bind_ok.1 h
      cases h
      obtain ⟨-, v, -, -, rfl⟩ := move_system hd h1
      cases r with
      | mode1 => exact ⟨v, _, .inl ⟨SystemReg.noConfusion, quiet_applyUpdate s x.idx u, by rw [underMode_load_mode1]⟩⟩
      | mmask => exact ⟨v, _, .inl ⟨SystemReg.noConfusion, quiet_applyUpdate s x.idx u, by rw [underMode_load_mmask]⟩⟩
      | stkyx => exact ⟨v, _, .inr ⟨rfl, quiet_applyUpdate _ x.idx u, by rw [underMode_load_stkyx]⟩⟩
    · unfold preAccess at h
      split at h
      · obtain ⟨s1, h1, h⟩ := bind_ok.1 h
        cases h
        obtain ⟨-, v, -, -, rfl⟩ := move_system hd h1
        exact plain v rfl
      · cases h
  | ldi u n =>
    simp only [effect] at h
    obtain ⟨s1, h1, h⟩ := bind_ok.1 h
    cases h
    cases u with
    | system r' => cases hd; exact plain n (by rw [(putNw_system h1).2])
    | _ => cases hd
  | mov u1 u2 =>
    simp only [effect] at h
    obtain ⟨s1, h1, h⟩ := bind_ok.1 h
    cases h
    cases u1 with
    | system r' =>
      cases hd
      cases u2 with
      | dag ty n => exact plain _ (by rw [(putNw_system (bc := false) h1).2])
      | _ => cases h1
    | _ => cases hd
  | _ => cases hd

/-- What any instruction leaves: quiet changes from the state with no MODE1 write in flight, a write of a control register as its
Ureg beside quiet changes, or a MODE1 write; pc advances. -/
theorem exec_next {i : Instr} {s t : State} (h : exec i s = .next t) :
    (writesMode1 i.shape = false ∧ systemDest i.shape = none ∧ ∃ u, Quiet (clearLatency s) u ∧ t = advance u) ∨
      (∃ r v q, systemDest i.shape = some r ∧ ((r ≠ .stkyx ∧ Quiet (clearLatency s) q ∧ t = advance (systemWrite q r v)) ∨
        (r = .stkyx ∧ Quiet (systemWrite (clearLatency s) .stkyx v) q ∧ t = advance q))) ∨
      (∃ n, i = .bitsetMode1 n ∧ t = advance (writeMode1 (clearLatency s) (s.mode1 ||| n))) ∨
      (i = .pushSts ∧ t = advance (writeMode1 (clearLatency s) (mode1Masked s))) := by
  obtain ⟨-, h⟩ := exec_eq_next.1 h
  by_cases hw : writesMode1 i.shape = false
  · cases hd : systemDest i.shape with
    | none => exact .inl ⟨hw, rfl, effect_quiet hw hd h⟩
    | some r =>
      obtain ⟨v, q, hq⟩ := effect_system hd h
      exact .inr (.inl ⟨r, v, q, rfl, hq⟩)
  · refine .inr (.inr ?_)
    generalize hs : i.shape = sh at h hw
    cases sh
    case bitset n => exact .inl ⟨n, shape_bitset hs, (Except.ok.inj h).symm⟩
    case pushSts => exact .inr ⟨shape_pushSts hs, (Except.ok.inj h).symm⟩
    all_goals exact absurd rfl hw

/-- What a statement that answers a next state was: a text that decodes to a well-formed instruction. -/
theorem runStatement_next {s t : State} (h : runStatement s = .next t) :
    ∃ text i, s.prog[s.pc]? = some text ∧ decode s.plat text = .ok i ∧ i.illFormed = none ∧ exec i s = .next t := by
  unfold runStatement fetchText at h
  split at h
  · cases h
  · rename_i text ht
    split at h
    · cases h
    · rename_i i hi
      split at h
      · cases h
      · rename_i hf
        exact ⟨text, i, ht, hi, hf, h⟩

/-- A step is an event of `Core` at a statement of the program, or that statement. -/
theorem step_next {s t : State} (h : step s = .next t) :
    (∃ e rest, s.pc < s.prog.length ∧ s.core = some e :: rest ∧ t = takeEvent e { s with core := rest }) ∨
      (∃ text i rest, s.prog[s.pc]? = some text ∧ decode s.plat text = .ok i ∧ i.illFormed = none ∧
        (rest = s.core ∧ rest = [] ∨ s.core = none :: rest) ∧ exec i { s with core := rest } = .next t) := by
  unfold step at h
  split at h
  · cases h
  · rename_i text0 ht0
    split at h
    · rename_i hc
      obtain ⟨text, i, ht, hi, hf, h⟩ := runStatement_next h
      exact .inr ⟨text, i, [], ht, hi, hf, .inl ⟨hc.symm, rfl⟩, by rw [← hc]; exact h⟩
    · rename_i rest hc
      obtain ⟨text, i, ht, hi, hf, h⟩ := runStatement_next h
      exact .inr ⟨text, i, rest, ht, hi, hf, .inr hc, h⟩
    · rename_i e rest hc
      cases h
      exact .inl ⟨e, rest, (List.getElem?_eq_some_iff.1 ht0).1, hc, rfl⟩

end Sys2Proof.Machine
end

