-- ==== Sys2Proof/Laws/Access.lean ====
section
/-! SUPPORT. One lemma per shared operation of an access: the address, the register side, the memory side, the index update and
the overflow status. -/

namespace Sys2Proof.Machine

/-! ### Registers an access names -/

/-- The index register of an access belongs to the DAG of its bus (R61). -/
theorem shape_owns {i : Instr} {x : Access} (h : i.shape = .access x) : x.bus.owns x.idx = true := by
  cases i <;> simp only [Instr.shape, Shape.access.injEq, reduceCtorEq] at h <;> subst h <;>
    simp [Bus.owns, dag1, dag2]

/-- A DAG1 register is no DAG2 register. -/
theorem dag1_ne_dag2 (a c : Fin 8) : dag1 a ≠ dag2 c := by
  intro h
  have := congrArg Fin.val h
  simp only [dag1, dag2] at this
  omega

/-- A well-formed post-modify load does not load a register with the index's number (R186). -/
theorem wellFormed_post_ne {i : Instr} {x : Access} {ty : DagType} {n : RegNum} {w : Width} (hs : i.shape = .access x)
    (ho : x.order = .post) (hx : x.xfer = .load (.dag ty n) w) (hw : i.shape.illFormed = none) : n ≠ x.idx := by
  rintro rfl
  rw [hs] at hw
  simp [Shape.illFormed, Access.illFormed, hx, ho, Bus.ownsUreg, shape_owns hs] at hw

/-- The partner of a register is of the same DAG (R26). -/
theorem owns_partner (b : Bus) (n : RegNum) : b.owns (partner n) = b.owns n := by
  cases b <;> revert n <;> decide

theorem wellFormed_post_partner_ne {i : Instr} {x : Access} {ty : DagType} {n : RegNum} {w : Width}
    (hs : i.shape = .access x) (ho : x.order = .post) (hx : x.xfer = .load (.dag ty n) w)
    (hw : i.shape.illFormed = none) : partner n ≠ x.idx := by
  intro h
  have ho' := shape_owns hs
  rw [← h, owns_partner] at ho'
  rw [hs] at hw
  simp [Shape.illFormed, Access.illFormed, hx, ho, Bus.ownsUreg, ho'] at hw

/-- A statement that passes `Check` is well formed. -/
theorem check_wellFormed {sh : Shape} {s : State} (h : check sh s = none) : sh.illFormed = none := by
  unfold check at h
  split at h
  · cases h
  · assumption

/-- What passing `Check` says (R187). -/
theorem check_eq_none {sh : Shape} {s : State} :
    check sh s = none ↔ sh.illFormed = none ∧ simdRefused s sh = false ∧ depends sh s.mode1Changed = false := by
  unfold check
  cases sh.illFormed <;> cases simdRefused s sh <;> cases depends sh s.mode1Changed <;> simp

/-- The statements that name no register pass `Check` in every state. -/
theorem check_plain (s : State) (n : Word) :
    check (.bitset n) s = none ∧ check .nop s = none ∧ check (.bittst n) s = none ∧ check .pushSts s = none := by
  simp [check, Shape.illFormed, simdRefused, depends, namedNums, isPostAccess, accessIndexes, dataLoadIndexes, usesData]

/-! ### The overflow status -/

@[simp] theorem dagRead_applyOverflow (s : State) (n : RegNum) (k : OverflowKind) (ty : DagType) (n' : RegNum) :
    dagRead (applyOverflow n k s) ty n' = dagRead s ty n' := by
  cases k <;> rfl

@[simp] theorem dagRead_advance (s : State) (ty : DagType) (n : RegNum) : dagRead (advance s) ty n = dagRead s ty n := rfl

@[simp] theorem dagRead_clearLatency (s : State) (ty : DagType) (n : RegNum) :
    dagRead (clearLatency s) ty n = dagRead s ty n := rfl

@[simp] theorem dagHidden_advance (s : State) (ty : DagType) (n : RegNum) :
    dagHidden (advance s) ty n = dagHidden s ty n := rfl

@[simp] theorem dagHidden_clearLatency (s : State) (ty : DagType) (n : RegNum) :
    dagHidden (clearLatency s) ty n = dagHidden s ty n := rfl

/-- After an index update the index register holds the update's value; every other DAG register is as before. -/
theorem dagRead_applyUpdate (s : State) (n : RegNum) (u : IndexUpdate) (ty : DagType) (n' : RegNum) :
    dagRead (applyUpdate n u s) ty n' = if ty = .i ∧ n' = n then u.index else dagRead s ty n' := by
  rw [applyUpdate, dagRead_applyOverflow]
  split
  · rename_i h; obtain ⟨rfl, rfl⟩ := h; simp
  · rename_i h; exact dagRead_dagPut_other _ _ _ _ _ _ h

@[simp] theorem dataRead_applyUpdate (s : State) (n : RegNum) (u : IndexUpdate) (d : Dreg) :
    dataRead (applyUpdate n u s) d = dataRead s d := by
  unfold applyUpdate
  cases u.overflow <;> rfl

/-- The status part of an index update does not depend on what the update writes to the index register. -/
theorem applyUpdate_status (s : State) (n : RegNum) (u : IndexUpdate) :
    (applyUpdate n u s).stkyx = (applyOverflow n u.overflow s).stkyx ∧
      (applyUpdate n u s).irqCb7 = (applyOverflow n u.overflow s).irqCb7 ∧
      (applyUpdate n u s).irqCb15 = (applyOverflow n u.overflow s).irqCb15 := by
  unfold applyUpdate
  cases u.overflow <;> exact ⟨rfl, rfl, rfl⟩

/-- Only I7 has a request CB7 and a flag CB7S, only I15 a request CB15 and a flag CB15S (R120). -/
theorem setOverflow_only (s : State) (n : RegNum) (on : Bool) :
    (∀ k : Nat, (k = s.plat.stkyCb7s → n ≠ 7) → (k = s.plat.stkyCb15s → n ≠ 15) → (setOverflow n on s).stkyx.getLsbD k = s.stkyx.getLsbD k) ∧
      (n ≠ 7 → (setOverflow n on s).irqCb7 = s.irqCb7) ∧ (n ≠ 15 → (setOverflow n on s).irqCb15 = s.irqCb15) := by
  have e7 : n.val = 7 ↔ n = 7 := ⟨fun h => Fin.ext h, fun h => by rw [h]; rfl⟩
  have e15 : n.val = 15 ↔ n = 15 := ⟨fun h => Fin.ext h, fun h => by rw [h]; rfl⟩
  refine ⟨fun k h7 h15 => ?_, fun h => ?_, fun h => ?_⟩
  · simp only [setOverflow, Bool.and_eq_true, beq_iff_eq, e7, e15]
    split
    · rename_i h
      rw [BitVec.getLsbD_or, bitMask_getLsbD _ _ (Fin.isLt _)]
      have : ¬s.plat.stkyCb7s.val = k := fun hk => h7 hk.symm h.2
      simp [this]
    · split
      · rename_i h
        rw [BitVec.getLsbD_or, bitMask_getLsbD _ _ (Fin.isLt _)]
        have : ¬s.plat.stkyCb15s.val = k := fun hk => h15 hk.symm h.2
        simp [this]
      · rfl
  · have : (n.val == 7) = false := by simpa [e7] using h
    simp [setOverflow, this]
  · have : (n.val == 15) = false := by simpa [e15] using h
    simp [setOverflow, this]

/-- What an index update can do to the overflow status (R120). -/
theorem applyUpdate_only (s : State) (n : RegNum) (u : IndexUpdate) :
    (∀ k : Nat, (k = s.plat.stkyCb7s → n ≠ 7) → (k = s.plat.stkyCb15s → n ≠ 15) → (applyUpdate n u s).stkyx.getLsbD k = s.stkyx.getLsbD k) ∧
      (n ≠ 7 → (applyUpdate n u s).irqCb7 = s.irqCb7) ∧ (n ≠ 15 → (applyUpdate n u s).irqCb15 = s.irqCb15) := by
  obtain ⟨h1, h2, h3⟩ := applyUpdate_status s n u
  rw [h1, h2, h3]
  cases u.overflow
  · exact ⟨fun _ _ _ => rfl, fun _ => rfl, fun _ => rfl⟩
  · exact setOverflow_only s n true
  · exact setOverflow_only s n _

/-- A sure overflow of I7 or I15 sets its flag and raises its request (R120). -/
theorem setOverflow_sets (s : State) :
    ((setOverflow 7 true s).irqCb7 = true ∧ (setOverflow 7 true s).stkyx.getLsbD s.plat.stkyCb7s = true) ∧
      ((setOverflow 15 true s).irqCb15 = true ∧ (setOverflow 15 true s).stkyx.getLsbD s.plat.stkyCb15s = true) := by
  refine ⟨⟨by simp [setOverflow], ?_⟩, ⟨by simp [setOverflow], ?_⟩⟩
  · show (s.stkyx ||| bitMask s.plat.stkyCb7s).getLsbD s.plat.stkyCb7s = true
    rw [BitVec.getLsbD_or, bitMask_getLsbD _ _ (Fin.isLt _)]; simp
  · show (s.stkyx ||| bitMask s.plat.stkyCb15s).getLsbD s.plat.stkyCb15s = true
    rw [BitVec.getLsbD_or, bitMask_getLsbD _ _ (Fin.isLt _)]; simp

/-! ### The index update -/

/-- An index update with an active circular buffer is enabled. -/
def circActive (s : State) (n : RegNum) (en : Bool) : Bool := en && decide (dagRead s .l n ≠ 0#32)

/-- `CircOK` of R116 for the index register `n`. -/
def circOkAt (s : State) (n : RegNum) (m : Int) : Bool :=
  circOk (dagRead s .i n).toNat (dagRead s .l n).toNat (dagRead s .b n).toNat m

theorem toNat_eq_zero (v : Word) : v.toNat = 0 ↔ v = 0#32 := by
  constructor
  · intro h; exact BitVec.eq_of_toNat_eq h
  · rintro rfl; rfl

/-- Everything an index update can answer (R113, R115, R116, R117). -/
theorem indexUpdate_cases (s : State) (n : RegNum) (m : Int) (en : Bool) (c : Cause) :
    (circActive s n en = false ∧ ∃ k, indexUpdate s n m en c = .ok ⟨linearIndex s n m, k⟩ ∧
        (en = false → k = .no) ∧
        (en = true → k = zeroLenOverflow n (dagRead s .i n).toNat (dagRead s .b n).toNat m)) ∨
      (circActive s n en = true ∧ circOkAt s n m = true ∧
        indexUpdate s n m en c =
          .ok ⟨trunc32 (circIndex (dagRead s .i n).toNat (dagRead s .l n).toNat (dagRead s .b n).toNat m),
            wrapOverflow n (circWraps (dagRead s .i n).toNat (dagRead s .l n).toNat (dagRead s .b n).toNat m) c⟩) ∨
      (circActive s n en = true ∧ circOkAt s n m = false ∧
        indexUpdate s n m en c = .error (.fault .circularPrecondition)) := by
  unfold indexUpdate circActive circOkAt
  cases en with
  | false => simp
  | true =>
    by_cases hl : dagRead s .l n = 0#32
    · simp [hl]
    · have h0 : ¬(dagRead s .l n).toNat = 0 := fun h => hl ((toNat_eq_zero _).1 h)
      by_cases hk : circOk (dagRead s .i n).toNat (dagRead s .l n).toNat (dagRead s .b n).toNat m = true
      · simp [hl, h0, hk]
      · simp [hl, h0, hk]

/-- Index plus a 32-bit immediate (R111, R117). -/
theorem linearIndex_toInt (s : State) (n : RegNum) (v : Word) : linearIndex s n v.toInt = dagRead s .i n + v := by
  unfold linearIndex trunc32
  rw [BitVec.ofInt_add]
  simp

/-! ### Bits -/

theorem putBit_getLsbD (v : Word) (p : Nat) (b : Bool) (k : Nat) :
    (putBit v p b).getLsbD k = if k = p ∧ k < 32 then b else v.getLsbD k := by
  unfold putBit
  have hm : (bitMask p).getLsbD k = decide (k = p ∧ k < 32) := by
    simp only [bitMask, BitVec.getLsbD_shiftLeft, BitVec.getLsbD_one]
    by_cases h : k < 32 <;> by_cases h2 : k < p <;> simp [h, h2] <;> omega
  cases b
  · simp only [Bool.false_eq_true, if_false, BitVec.getLsbD_and, BitVec.getLsbD_not, hm]
    by_cases h : k < 32 <;> by_cases h2 : k = p <;> simp_all
  · simp only [if_true, BitVec.getLsbD_or, hm]
    by_cases h : k < 32 <;> by_cases h2 : k = p <;> simp_all

/-- MODE1 with CBUFEN cleared if MMASK says so (R238). -/
theorem mode1Masked_getLsbD (s : State) (k : Nat) :
    (mode1Masked s).getLsbD k = (s.mode1.getLsbD k && !(decide (k = 24) && s.mmask.getLsbD 24)) := by
  by_cases h : mmaskCbufen s = true
  · rw [mode1Masked, if_pos h]
    have h' : s.mmask.getLsbD 24 = true := h
    rw [BitVec.getLsbD_and, BitVec.getLsbD_not, bitMask_getLsbD _ _ (by decide), h']
    by_cases hk : k < 32
    · simp [hk, eq_comm, bitCbufen]
    · have : s.mode1.getLsbD k = false := BitVec.getLsbD_of_ge _ _ (by omega)
      simp [this]
  · rw [mode1Masked, if_neg h]
    have h' : s.mmask.getLsbD 24 = false := by simpa using! h
    rw [h']; simp

/-! ### The register side -/

/-- Everything a normal-word register write can do (R177, R183). -/
theorem putNw_ok {s t : State} {u : Ureg} {v : Word} {bc : Bool} (h : putNw s u v bc = .ok t) :
    (∃ ty n, u = .dag ty n ∧ t = dagWrite s ty n v) ∨
      (∃ d, u = .data d ∧ bc = true ∧ t = dataWrite (dataWrite s d (toData v)) (comp d) (toData v)) ∨
      (∃ d, u = .data d ∧ bc = false ∧ t = dataWrite s d (toData v)) ∨
      (∃ r, u = .system r ∧ isSystemUreg s r = true ∧ t = systemWrite s r v) ∨
      (∃ nm old, u = .other nm ∧ otherRead s nm = some old ∧ t = otherWrite s nm v) := by
  cases u with
  | dag ty n => cases h; exact .inl ⟨ty, n, rfl, rfl⟩
  | data d =>
    cases bc <;> cases h
    · exact .inr (.inr (.inl ⟨d, rfl, rfl, rfl⟩))
    · exact .inr (.inl ⟨d, rfl, rfl, rfl⟩)
  | system r =>
    obtain ⟨h1, h2⟩ := putNw_system h
    exact .inr (.inr (.inr (.inl ⟨r, rfl, h1, h2⟩)))
  | other nm =>
    simp only [putNw] at h
    split at h
    · rename_i old ho; cases h; exact .inr (.inr (.inr (.inr ⟨nm, old, rfl, ho, rfl⟩)))
    · cases h

/-- A normal-word register write of a register of the platform has a next state. -/
theorem putNw_total (s : State) (u : Ureg) (v : Word) (bc : Bool) (h : ∀ nm, u = .other nm → ∃ w, otherRead s nm = some w)
    (hr : ∀ r, u = .system r → isSystemUreg s r = true) : ∃ t, putNw s u v bc = .ok t := by
  cases u with
  | system r => exact ⟨systemWrite s r v, by simp [putNw, hr r rfl]⟩
  | dag ty n => exact ⟨_, rfl⟩
  | data d => exact ⟨_, rfl⟩
  | other nm =>
    obtain ⟨w, hw⟩ := h nm rfl
    exact ⟨otherWrite s nm v, by simp [putNw, hw]⟩

/-- A long-word register write is of a DAG register and its partner (R178, R179). -/
theorem putLw_ok {s t : State} {u : Ureg} {v : LongWord} (h : putLw s u v = .ok t) :
    ∃ ty n, u = .dag ty n ∧
      t = dagWrite (dagWrite s ty n (v.extractLsb' 0 32)) ty (partner n) (v.extractLsb' 32 32) := by
  cases u with
  | dag ty n => cases h; exact ⟨ty, n, rfl, rfl⟩
  | data d => cases h
  | system r => cases h
  | other nm => cases h

/-! ### Fields a memory access leaves -/

theorem shape_ldi {i : Instr} {u : Ureg} {n : Word} (h : i.shape = .ldi u n) : i = .ldiUreg u n := by
  cases i <;> simp_all [Instr.shape]

theorem shape_mov {i : Instr} {u v : Ureg} (h : i.shape = .mov u v) : i = .movUreg u v := by
  cases i <;> simp_all [Instr.shape]

/-- A store's memory write is one or two cells (R64, R67). -/
theorem move_store {x : Access} {a : Word} {s t : State} {u : Ureg} {w : Width} (hx : x.xfer = .store u w)
    (h : move x a s = .ok t) : ∃ m, t = { s with mem := m } := by
  unfold move at h
  rw [hx] at h
  cases w
  · obtain ⟨v, -, h⟩ := bind_ok.1 h
    obtain ⟨-, rfl⟩ := memWriteNw_ok h
    exact ⟨_, rfl⟩
  · obtain ⟨v, -, h⟩ := bind_ok.1 h
    obtain ⟨-, rfl⟩ := memWriteLw_ok h
    exact ⟨_, rfl⟩

/-- A register write that is not of a control register changes no field but the register files, the banks and the other universal
registers. -/
theorem putNw_fields {s t : State} {u : Ureg} {v : Word} {bc : Bool} (hu : ∀ r, u ≠ .system r) (h : putNw s u v bc = .ok t) :
    t = { s with prim := t.prim, alt := t.alt, pex := t.pex, pey := t.pey, others := t.others } := by
  rcases putNw_ok h with ⟨ty, n, rfl, rfl⟩ | ⟨d, rfl, -, rfl⟩ | ⟨d, rfl, -, rfl⟩ | ⟨r, rfl, -, -⟩ | ⟨nm, old, rfl, ho, rfl⟩
  · cases ty <;> rfl
  · rcases d with ⟨p, n⟩; cases p <;> rfl
  · rcases d with ⟨p, n⟩; cases p <;> rfl
  · exact absurd rfl (hu r)
  · rfl

/-- The data action of an access that loads no control register leaves the overflow status. -/
theorem move_status {x : Access} {a : Word} {s t : State} (hx : systemLoaded x = none) (h : move x a s = .ok t) :
    t.stkyx = s.stkyx ∧ t.irqCb7 = s.irqCb7 ∧ t.irqCb15 = s.irqCb15 := by
  unfold move at h
  split at h
  · obtain ⟨v, -, h⟩ := bind_ok.1 h; obtain ⟨-, rfl⟩ := memWriteNw_ok h; exact ⟨rfl, rfl, rfl⟩
  · obtain ⟨v, -, h⟩ := bind_ok.1 h; obtain ⟨-, rfl⟩ := memWriteLw_ok h; exact ⟨rfl, rfl, rfl⟩
  · obtain ⟨-, rfl⟩ := memWriteNw_ok h; exact ⟨rfl, rfl, rfl⟩
  · rename_i u hl
    obtain ⟨v, -, h⟩ := bind_ok.1 h
    rw [putNw_fields (fun r hr => by rw [systemLoaded, hl, hr] at hx; cases hx) h]
    exact ⟨rfl, rfl, rfl⟩
  · obtain ⟨v, -, h⟩ := bind_ok.1 h; obtain ⟨ty, n, rfl, rfl⟩ := putLw_ok h; simp

/-- What an instruction that is one access does when it answers a next state: the data action at the address of R124, then, for a
post-modify one, the index update computed from the state before; pc advances. -/
theorem exec_access_next {i : Instr} {x : Access} {s t : State} (hs : i.shape = .access x) (h : exec i s = .next t) :
    check i.shape s = none ∧ ∃ s1, move x (accessAddress s x) (clearLatency s) = .ok s1 ∧
      ((x.order = .post ∧ ∃ u, indexUpdate s x.idx (modifierValue s x.mod) (cbufen s) .access = .ok u ∧
          t = advance (underMode s.mode1 (applyUpdate x.idx u) s1)) ∨
        (x.order = .pre ∧ t = advance s1)) := by
  obtain ⟨hc, h⟩ := exec_eq_next.1 h
  refine ⟨hc, ?_⟩
  rw [hs] at h
  simp only [effect] at h
  split at h
  · rename_i ho
    obtain ⟨s1, h1, h⟩ := bind_ok.1 h
    obtain ⟨u, h2, h⟩ := bind_ok.1 h
    cases h
    exact ⟨s1, h1, .inl ⟨ho, u, h2, rfl⟩⟩
  · rename_i ho
    unfold preAccess at h
    split at h
    · obtain ⟨s1, h1, h⟩ := bind_ok.1 h
      cases h
      exact ⟨s1, h1, .inr ⟨ho, rfl⟩⟩
    · cases h

theorem move_storeImm {x : Access} {a : Word} {s t : State} {n : Word} (hx : x.xfer = .storeImm n)
    (h : move x a s = .ok t) : t = setCell s a n := by
  unfold move at h
  rw [hx] at h
  exact (memWriteNw_ok h).2

end Sys2Proof.Machine
end

