-- ==== Sys2Proof/Laws/Text.lean ====
section
/-! SUPPORT. The text of a list of items reads back as those items: the lexer on words, numbers and punctuation (rule R91). -/

namespace Sys2Proof

/-- The item can be written so that it reads back as itself. -/
def Item.writable (it : Item) : Bool :=
  match it with
  | .num n => decide (n < 4294967296)
  | .ureg u => u.spellable
  | _ => true

/-- `r` with a token before its tokens. -/
def consToken (t : Token) (r : Except DecodeError (List Token)) : Except DecodeError (List Token) :=
  match r with
  | .ok ts => .ok (t :: ts)
  | .error e => .error e

/-- The characters of a name as the encoder writes them. -/
def nameChars (w : Ident) : Bool := w.all fun d => isNameChar d && upper d == d

/-- One character that ends no token. -/
theorem lex_quiet {mode mode' : LexMode} {c : Byte} {rest : List Byte} (h : lexStep mode c = .ok ([], mode')) :
    lex mode (c :: rest) = lex mode' rest := by
  simp only [lex, h]
  cases lex mode' rest <;> rfl

/-- One character that ends one token. -/
theorem lex_token {mode mode' : LexMode} {c : Byte} {t : Token} {rest : List Byte}
    (h : lexStep mode c = .ok ([t], mode')) : lex mode (c :: rest) = consToken t (lex mode' rest) := by
  simp only [lex, h]
  cases lex mode' rest <;> rfl

theorem lex_space (rest : List Byte) : lex .idle (ch ' ' :: rest) = lex .idle rest := lex_quiet (by decide)

/-- A word in the middle, ended by a space. -/
theorem lex_word_rest (cs acc : Ident) (rest : List Byte) (h : nameChars cs = true) :
    lex (.word acc) (cs ++ ch ' ' :: rest) = consToken (.word (acc ++ cs)) (lex .idle rest) := by
  induction cs generalizing acc with
  | nil =>
    rw [List.append_nil]
    exact lex_token rfl
  | cons c cs ih =>
    simp only [nameChars, List.all_cons, Bool.and_eq_true, beq_iff_eq] at h
    obtain ⟨⟨h1, h2⟩, h3⟩ := h
    have hs : lexStep (.word acc) c = .ok ([], .word (acc ++ [c])) := by simp [lexStep, h1, h2]
    rw [List.cons_append, lex_quiet hs, ih _ h3]
    simp

/-- No letter is a space. -/
theorem isSpace_of_isLetter {c : Byte} (h : isLetter c = true) : isSpace c = false := by
  simp only [isLetter, isSpace, Bool.or_eq_true, Bool.and_eq_true, decide_eq_true_eq, Bool.or_eq_false_iff] at *
  refine ⟨⟨⟨?_, ?_⟩, ?_⟩, ?_⟩ <;> (rw [beq_eq_false_iff_ne]; omega)

/-- A word and the space after it are one token. -/
theorem lex_word (c : Byte) (cs : Ident) (rest : List Byte) (hc : isLetter c = true)
    (h : nameChars (c :: cs) = true) :
    lex .idle (c :: cs ++ ch ' ' :: rest) = consToken (.word (c :: cs)) (lex .idle rest) := by
  simp only [nameChars, List.all_cons, Bool.and_eq_true, beq_iff_eq] at h
  obtain ⟨⟨h1, h2⟩, h3⟩ := h
  have hs : lexStep .idle c = .ok ([], .word [c]) := by simp [lexStep, lexStart, isSpace_of_isLetter hc, hc, h2]
  rw [List.cons_append, lex_quiet hs, lex_word_rest _ _ _ h3]
  rfl

theorem hexValue_hexDigit (v : Nat) (h : v < 16) : hexValue (hexDigit v) = some v := by
  have : ∀ v : Fin 16, hexValue (hexDigit v.val) = some v.val := by decide
  exact this ⟨v, h⟩

/-- The last `k + 1` hexadecimal digits of a number, read after `0x`. -/
theorem lex_hexDigits (k n : Nat) (rest : List Byte) :
    lex .hexStart (hexDigits (k + 1) n ++ rest) = lex (.hex (n % 16 ^ (k + 1))) rest := by
  induction k generalizing n rest with
  | zero =>
    have hs : lexStep .hexStart (hexDigit (n % 16)) = .ok ([], .hex (n % 16)) := by
      simp [lexStep, hexValue_hexDigit _ (Nat.mod_lt n (by decide))]
    simp only [hexDigits, List.nil_append, List.cons_append]
    rw [lex_quiet hs]
    simp
  | succ k ih =>
    have hs : lexStep (.hex (n / 16 % 16 ^ (k + 1))) (hexDigit (n % 16)) =
        .ok ([], .hex (n % 16 ^ (k + 1 + 1))) := by
      have hn : 16 * (n / 16 % 16 ^ (k + 1)) + n % 16 = n % 16 ^ (k + 1 + 1) := by
        rw [pow_succ' 16 (k + 1), Nat.mod_mul]
        omega
      simp [lexStep, hexValue_hexDigit _ (Nat.mod_lt n (by decide)), hn]
    rw [hexDigits, List.append_assoc, List.singleton_append, ih, lex_quiet hs]

/-- A number below 2^32 and the space after it are one token. -/
theorem lex_num (n : Nat) (h : n < 4294967296) (rest : List Byte) :
    lex .idle (Item.bytes (.num n) ++ rest) = consToken (.num n) (lex .idle rest) := by
  have h1 : lexStep .idle (ch '0') = .ok ([], .zero) := by decide
  have h2 : lexStep .zero (ch 'x') = .ok ([], .hexStart) := by decide
  have h3 : lexStep (.hex n) (ch ' ') = .ok ([.num n], .idle) := rfl
  simp only [Item.bytes, List.cons_append, List.append_assoc, List.nil_append]
  rw [lex_quiet h1, lex_quiet h2, lex_hexDigits 7 n, Nat.mod_eq_of_lt (by omega)]
  exact lex_token h3

/-- A keyword is spelled as a word that reads back as the keyword. -/
theorem keyword_spell (k : Keyword) :
    (∃ c cs, k.spell = c :: cs ∧ isLetter c = true ∧ nameChars (c :: cs) = true) ∧ itemOf (.word k.spell) = .kw k := by
  cases k <;> exact ⟨⟨_, _, rfl, by decide, by decide⟩, by decide⟩

/-- A register is spelled as a word that reads back as the register. -/
theorem register_spell (u : Ureg) (h : u.spellable = true) :
    (∃ c cs, u.spell = c :: cs ∧ isLetter c = true ∧ nameChars (c :: cs) = true) ∧ itemOf (.word u.spell) = .ureg u := by
  cases u with
  | dag t n =>
    have hc : isLetter t.letter = true := by cases t <;> decide
    have hn : ∀ t : DagType, ∀ n : RegNum, nameChars (t.letter :: regDigits n) = true := by
      intro t; cases t <;> decide
    have hi : ∀ t : DagType, ∀ n : RegNum, itemOf (.word (t.letter :: regDigits n)) = .ureg (.dag t n) := by
      intro t; cases t <;> decide
    exact ⟨⟨_, _, rfl, hc, hn t n⟩, hi t n⟩
  | data d =>
    rcases d with ⟨pe, n⟩
    cases pe
    · have hn : ∀ n : Fin 16, nameChars (ch 'R' :: regDigits n) = true := by decide
      have hi : ∀ n : Fin 16, itemOf (.word (ch 'R' :: regDigits n)) = .ureg (.data ⟨.x, n⟩) := by decide
      exact ⟨⟨_, _, rfl, by decide, hn n⟩, hi n⟩
    · have hn : ∀ n : Fin 16, nameChars (ch 'S' :: regDigits n) = true := by decide
      have hi : ∀ n : Fin 16, itemOf (.word (ch 'S' :: regDigits n)) = .ureg (.data ⟨.y, n⟩) := by decide
      exact ⟨⟨_, _, rfl, by decide, hn n⟩, hi n⟩
  | system r => cases r <;> exact ⟨⟨_, _, rfl, by decide, by decide⟩, by decide⟩
  | other w =>
    cases w with
    | nil => cases h
    | cons c cs =>
      simp only [Ureg.spellable, identOk, Bool.and_eq_true, Option.isNone_iff_eq_none] at h
      obtain ⟨⟨⟨h1, h2⟩, h3⟩, h4⟩ := h
      exact ⟨⟨c, cs, rfl, h1, h2⟩, by simp [itemOf, Ureg.spell, h3, h4]⟩

/-- A writable item reads back as one token that is the item. -/
theorem lex_item (it : Item) (h : it.writable = true) (rest : List Byte) :
    ∃ t, itemOf t = it ∧ lex .idle (it.bytes ++ rest) = consToken t (lex .idle rest) := by
  have punct (c : Byte) (t : Token) (hc : lexStep .idle c = .ok ([t], .idle)) :
      lex .idle ([c, ch ' '] ++ rest) = consToken t (lex .idle rest) := by
    rw [List.cons_append, List.singleton_append, lex_token hc, lex_space]
  cases it with
  | kw k =>
    obtain ⟨⟨c, cs, h1, h2, h3⟩, h4⟩ := keyword_spell k
    refine ⟨.word k.spell, h4, ?_⟩
    simp only [Item.bytes, h1, List.append_assoc, List.singleton_append]
    exact lex_word c cs rest h2 h3
  | ureg u =>
    obtain ⟨⟨c, cs, h1, h2, h3⟩, h4⟩ := register_spell u h
    refine ⟨.word u.spell, h4, ?_⟩
    simp only [Item.bytes, h1, List.append_assoc, List.singleton_append]
    exact lex_word c cs rest h2 h3
  | num n => exact ⟨.num n, rfl, lex_num n (of_decide_eq_true h) rest⟩
  | lpar => exact ⟨.lpar, rfl, punct _ _ (by decide)⟩
  | rpar => exact ⟨.rpar, rfl, punct _ _ (by decide)⟩
  | comma => exact ⟨.comma, rfl, punct _ _ (by decide)⟩
  | semi => exact ⟨.semi, rfl, punct _ _ (by decide)⟩
  | eq => exact ⟨.eq, rfl, punct _ _ (by decide)⟩
  | minus => exact ⟨.minus, rfl, punct _ _ (by decide)⟩
  | bar => exact ⟨.bar, rfl, punct _ _ (by decide)⟩
  | colon => exact ⟨.colon, rfl, punct _ _ (by decide)⟩
  | plus => exact ⟨.plus, rfl, punct _ _ (by decide)⟩

/-- The text of writable items reads back as those items. -/
theorem lex_items (its : List Item) (h : its.all Item.writable = true) :
    ∃ ts, lex .idle (its.flatMap Item.bytes) = .ok ts ∧ ts.map itemOf = its := by
  induction its with
  | nil => exact ⟨[], rfl, rfl⟩
  | cons it its ih =>
    rw [List.all_cons, Bool.and_eq_true] at h
    obtain ⟨ts, h1, h2⟩ := ih h.2
    obtain ⟨t, h3, h4⟩ := lex_item it h.1 (its.flatMap Item.bytes)
    exact ⟨t :: ts, by rw [List.flatMap_cons, h4, h1]; rfl, by simp [h2, h3]⟩

end Sys2Proof
end

