-- ==== Sys2Proof/Laws/PerInstr.lean ====
section
/-! SUPPORT. One lemma per instruction about its text: the items the encoder writes can be written, and they parse as the row of
the instruction (rules R92 to R97), or, where Tables 4-5 and 4-6 give one text two rows, as the row `Instr.canon` names. -/

namespace Sys2Proof

theorem data32_toNat (n : Word) : data32 (n.toNat : Int) = some n := by
  have := n.isLt
  have hi : BitVec.ofInt 32 (n.toNat : Int) = n := by simp
  rw [data32, if_pos (by omega), hi]

/-- The number a platform reads a Data6 as (R96). -/
def data6Value (p : Platform) (k : BitVec 6) : Int := if p.data6Signed then k.toInt else k.toNat

theorem data6_range (k : BitVec 6) : -32 ≤ k.toInt ∧ k.toInt ≤ 31 := by revert k; decide

theorem ofInt_data6Value (p : Platform) (k : BitVec 6) : BitVec.ofInt 6 (data6Value p k) = k := by
  unfold data6Value
  cases p.data6Signed
  · simp
  · revert k; decide

theorem inData6_data6Value (p : Platform) (k : BitVec 6) : inData6 p (data6Value p k) = true := by
  have := data6_range k
  have := k.isLt
  unfold inData6 data6Value
  cases p.data6Signed <;> simp <;> omega

theorem data6_data6Value (p : Platform) (k : BitVec 6) : data6 p (data6Value p k) = some k := by
  have := data6_range k
  have := k.isLt
  have h : (if p.data6Signed then -32 else 0) ≤ data6Value p k ∧ data6Value p k ≤ 63 := by
    unfold data6Value
    cases p.data6Signed <;> simp <;> omega
  rw [data6, if_pos h, ofInt_data6Value]

theorem imm6_writable (p : Platform) (k : BitVec 6) : ((Modifier.imm6 k).items p).all Item.writable = true := by
  have := k.isLt
  simp only [Modifier.items]
  split
  · simp [Item.writable]
    omega
  · simp [Item.writable]
    omega

/-- A Data6 is written as the number the platform reads it as (R96). -/
theorem literal_imm6 (p : Platform) (k : BitVec 6) (rest : List Item) :
    literal ((Modifier.imm6 k).items p ++ rest) = some (data6Value p k, rest) := by
  have hk := k.isLt
  cases hp : p.data6Signed
  · simp [Modifier.items, hp, literal, data6Value]
  · by_cases h : k.toNat < 32
    · have hi : k.toInt = k.toNat := BitVec.toInt_eq_toNat_of_lt (by omega)
      simp [Modifier.items, h, literal, hi, data6Value]
    · have hi : k.toInt = -((64 - k.toNat : Nat) : Int) := by
        rw [BitVec.toInt_eq_toNat_cond, if_neg (by omega)]
        omega
      simp [Modifier.items, hp, h, literal, hi, data6Value]

theorem addrOp_imm6 (p : Platform) (k : BitVec 6) (rest : List Item) :
    addrOp ((Modifier.imm6 k).items p ++ rest) = some (.lit (data6Value p k), rest) := by
  have hl := literal_imm6 p k rest
  by_cases h : p.data6Signed = false ∨ k.toNat < 32
  · simp only [Modifier.items, if_pos h, List.cons_append, List.nil_append] at hl ⊢
    simp [addrOp, hl]
  · simp only [Modifier.items, if_neg h, List.cons_append, List.nil_append] at hl ⊢
    simp [addrOp, hl]

theorem addrOp_idx (i : RegNum) (rest : List Item) : addrOp (.ureg (.dag .i i) :: rest) = some (.idx i, rest) := rfl

/-- Two operands between parentheses, the second a Data6. -/
theorem addrPair_post6 (p : Platform) (i : RegNum) (k : BitVec 6) (rest : List Item) :
    addrPair (.lpar :: .ureg (.dag .i i) :: .comma :: ((Modifier.imm6 k).items p ++ .rpar :: rest)) =
      some (.idx i, .lit (data6Value p k), rest) := by
  simp only [addrPair, addrOp_idx, addrOp_imm6]

/-- Two operands between parentheses, the first a Data6. -/
theorem addrPair_pre6 (p : Platform) (i : RegNum) (k : BitVec 6) (rest : List Item) :
    addrPair (.lpar :: ((Modifier.imm6 k).items p ++ .comma :: .ureg (.dag .i i) :: .rpar :: rest)) =
      some (.lit (data6Value p k), .idx i, rest) := by
  simp only [addrPair, addrOp_imm6, addrOp_idx]

/-- The bus word of an access starts its address. -/
theorem parse_store (p : Platform) (bus : Bus) (its : List Item) :
    parseStatement p (.kw bus.keyword :: its) = parseStore p bus its := by
  cases bus <;> rfl

theorem parse_load (p : Platform) (u : Ureg) (bus : Bus) (its : List Item) :
    parseStatement p (.ureg u :: .eq :: .kw bus.keyword :: its) = parseLoad p u bus its := by
  cases bus <;> cases u <;> rfl

/-- An access with a modify register is read back. -/
theorem parse_reg (p : Platform) (bus : Bus) (i m : RegNum) (o : Order) (t : Transfer) :
    parseStatement p (Access.items p ⟨bus, i, o, .reg m, t⟩) = some (.access ⟨bus, i, o, .reg m, t⟩) := by
  cases t with
  | store u w =>
    simp only [Access.items, Access.addrItems, List.cons_append]
    rw [parse_store]
    cases o <;> cases w <;> rfl
  | storeImm n =>
    simp only [Access.items, Access.addrItems, List.cons_append]
    rw [parse_store]
    cases o <;> simp [parseStore, addrPair, addrOp, literal, Modifier.items, data32_toNat, mkAccess]
  | load u w =>
    simp only [Access.items, Access.addrItems, List.cons_append]
    rw [parse_load]
    cases o <;> cases w <;> rfl

/-- A post-modify access of a data register with a Data6 is read back (Table 4-3). -/
theorem parse_post6 (p : Platform) (bus : Bus) (i : RegNum) (k : BitVec 6) (t : Transfer)
    (ht : (∃ r, t = .store (.data r) .nw) ∨ ∃ r, t = .load (.data r) .nw) :
    parseStatement p (Access.items p ⟨bus, i, .post, .imm6 k, t⟩) = some (.access ⟨bus, i, .post, .imm6 k, t⟩) := by
  rcases ht with ⟨r, rfl⟩ | ⟨r, rfl⟩
  · simp only [Access.items, Access.addrItems, List.cons_append, List.append_assoc]
    rw [parse_store]
    simp [parseStore, addrPair_post6, widthEnd, Width.items, mkAccess, data6_data6Value]
  · simp only [Access.items, Access.addrItems, List.cons_append, List.append_assoc]
    rw [parse_load]
    simp [parseLoad, addrPair_post6, widthEnd, Width.items, mkAccess, data6_data6Value]

/-- A pre-modify access of a data register with a Data6 is read back (Table 4-5). -/
theorem parse_pre6 (p : Platform) (bus : Bus) (i : RegNum) (k : BitVec 6) (t : Transfer)
    (ht : (∃ r, t = .store (.data r) .nw) ∨ ∃ r, t = .load (.data r) .nw) :
    parseStatement p (Access.items p ⟨bus, i, .pre, .imm6 k, t⟩) = some (.access ⟨bus, i, .pre, .imm6 k, t⟩) := by
  rcases ht with ⟨r, rfl⟩ | ⟨r, rfl⟩
  · simp only [Access.items, Access.addrItems, List.cons_append, List.append_assoc]
    rw [parse_store]
    simp [parseStore, addrPair_pre6, widthEnd, Width.items, mkAccess, Transfer.takesData6, inData6_data6Value, ofInt_data6Value]
  · simp only [Access.items, Access.addrItems, List.cons_append, List.append_assoc]
    rw [parse_load]
    simp [parseLoad, addrPair_pre6, widthEnd, Width.items, mkAccess, Transfer.takesData6, inData6_data6Value, ofInt_data6Value]

/-- How a pre-modify access with a Data32 is read: with a Data6 where Table 4-5 has that row too. -/
def readImm32 (p : Platform) (t : Transfer) (n : Word) : Modifier :=
  if t.takesData6 = true ∧ n.toNat < data6Limit p then .imm6 (n.setWidth 6) else .imm32 n

theorem mkAccess_imm32 (p : Platform) (bus : Bus) (i : RegNum) (n : Word) (t : Transfer) :
    mkAccess p bus (.lit n.toNat) (.idx i) t = some ⟨bus, i, .pre, readImm32 p t n, t⟩ := by
  have hl : inData6 p n.toNat = decide (n.toNat < data6Limit p) := by
    unfold inData6 data6Limit
    cases p.data6Signed <;> simp <;> omega
  simp only [mkAccess, readImm32]
  by_cases h : t.takesData6 = true ∧ n.toNat < data6Limit p
  · rw [if_pos (by simp [hl, h]), if_pos h, BitVec.ofInt_natCast, BitVec.ofNat_toNat]
  · rw [if_neg (by simpa [hl] using h), if_neg h, data32_toNat]
    rfl

/-- A pre-modify access with a Data32 is read back (Table 4-6). -/
theorem parse_pre32 (p : Platform) (bus : Bus) (i : RegNum) (n : Word) (t : Transfer)
    (ht : (∃ u w, t = .store u w) ∨ ∃ u w, t = .load u w) :
    parseStatement p (Access.items p ⟨bus, i, .pre, .imm32 n, t⟩) = some (.access ⟨bus, i, .pre, readImm32 p t n, t⟩) := by
  have hm := mkAccess_imm32 p bus i n t
  rcases ht with ⟨u, w, rfl⟩ | ⟨u, w, rfl⟩
  · simp only [Access.items, Access.addrItems, List.cons_append]
    rw [parse_store]
    cases w <;> simp [parseStore, addrPair, addrOp, literal, Modifier.items, widthEnd, Width.items, hm]
  · simp only [Access.items, Access.addrItems, List.cons_append]
    rw [parse_load]
    cases w <;> simp [parseLoad, addrPair, addrOp, literal, Modifier.items, widthEnd, Width.items, hm]

/-! ### Rows -/

theorem asDag1_dag1 (a : Fin 8) : asDag1 (dag1 a) = some a := by revert a; decide

theorem asDag2_dag2 (c : Fin 8) : asDag2 (dag2 c) = some c := by revert c; decide

theorem asDag1_dag2 (c : Fin 8) : asDag1 (dag2 c) = none := by revert c; decide

/-! ### Writable items -/

theorem word_writable (n : Word) : Item.writable (.num n.toNat) = true := decide_eq_true n.isLt

theorem width_writable (w : Width) : w.items.all Item.writable = true := by cases w <;> rfl

theorem addr_writable (p : Platform) (x : Access) : (x.addrItems p).all Item.writable = true := by
  rcases x with ⟨b, i, o, m, t⟩
  cases m with
  | imm6 k =>
    have hk := imm6_writable p k
    cases o <;> simp_all [Access.addrItems, Item.writable, Ureg.spellable]
  | reg k => cases o <;> rfl
  | imm32 n =>
    have hn := word_writable n
    cases o <;> simp_all [Access.addrItems, Modifier.items, Item.writable, Ureg.spellable]

theorem access_writable (p : Platform) (x : Access) (h : (Shape.access x).spellable = true) : (x.items p).all Item.writable = true := by
  have ha := addr_writable p x
  rcases x with ⟨b, i, o, m, t⟩
  cases t with
  | store u w =>
    have hw := width_writable w
    simp_all [Access.items, Access.addrItems, Item.writable, Shape.spellable]
  | storeImm n =>
    have hn := word_writable n
    simp_all [Access.items, Access.addrItems, Item.writable]
  | load u w =>
    have hw := width_writable w
    simp_all [Access.items, Access.addrItems, Item.writable, Shape.spellable]

namespace Laws.Encoding

/-- On every platform the instruction's items can be written if its names can, they parse as the instruction's row (or its
`canon`), and that row is ill formed exactly as the instruction is. -/
def Statement (i : Instr) : Prop :=
  ∀ p : Platform, (i.spellable = true → (i.shape.items p).all Item.writable = true) ∧
    (parseStatement p (i.shape.items p)).map Shape.row = some (.ok (i.canon p)) ∧ (i.canon p).illFormed = i.illFormed

theorem stDmPostm (a b : Fin 8) (u : Ureg) (w : Width) : Statement (.stDmPostm a b u w) :=
  fun p => ⟨access_writable p _, by
    simp [Instr.shape, Shape.items, parse_reg, Shape.row, Access.row, Access.rowDm, asDag1_dag1, Instr.canon], rfl⟩

theorem stPmPostm (c d : Fin 8) (u : Ureg) (w : Width) : Statement (.stPmPostm c d u w) :=
  fun p => ⟨access_writable p _, by
    simp [Instr.shape, Shape.items, parse_reg, Shape.row, Access.row, Access.rowPm, asDag2_dag2, Instr.canon], rfl⟩

theorem ldDmPostm (u : Ureg) (a b : Fin 8) (w : Width) : Statement (.ldDmPostm u a b w) :=
  fun p => ⟨access_writable p _, by
    simp [Instr.shape, Shape.items, parse_reg, Shape.row, Access.row, Access.rowDm, asDag1_dag1, Instr.canon], rfl⟩

theorem ldPmPostm (u : Ureg) (c d : Fin 8) (w : Width) : Statement (.ldPmPostm u c d w) :=
  fun p => ⟨access_writable p _, by
    simp [Instr.shape, Shape.items, parse_reg, Shape.row, Access.row, Access.rowPm, asDag2_dag2, Instr.canon], rfl⟩

theorem stiDmPostm (a b : Fin 8) (n : Word) : Statement (.stiDmPostm a b n) :=
  fun p => ⟨access_writable p _, by
    simp [Instr.shape, Shape.items, parse_reg, Shape.row, Access.row, Access.rowDm, asDag1_dag1, Instr.canon], rfl⟩

theorem stiPmPostm (c d : Fin 8) (n : Word) : Statement (.stiPmPostm c d n) :=
  fun p => ⟨access_writable p _, by
    simp [Instr.shape, Shape.items, parse_reg, Shape.row, Access.row, Access.rowPm, asDag2_dag2, Instr.canon], rfl⟩

theorem stDmPost6 (a : Fin 8) (k : BitVec 6) (r : Dreg) : Statement (.stDmPost6 a k r) :=
  fun p => ⟨access_writable p _, by
    simp [Instr.shape, Shape.items, parse_post6, Shape.row, Access.row, Access.rowDm, asDag1_dag1, Instr.canon], rfl⟩

theorem stPmPost6 (c : Fin 8) (k : BitVec 6) (r : Dreg) : Statement (.stPmPost6 c k r) :=
  fun p => ⟨access_writable p _, by
    simp [Instr.shape, Shape.items, parse_post6, Shape.row, Access.row, Access.rowPm, asDag2_dag2, Instr.canon], rfl⟩

theorem ldDmPost6 (r : Dreg) (a : Fin 8) (k : BitVec 6) : Statement (.ldDmPost6 r a k) :=
  fun p => ⟨access_writable p _, by
    simp [Instr.shape, Shape.items, parse_post6, Shape.row, Access.row, Access.rowDm, asDag1_dag1, Instr.canon], rfl⟩

theorem ldPmPost6 (r : Dreg) (c : Fin 8) (k : BitVec 6) : Statement (.ldPmPost6 r c k) :=
  fun p => ⟨access_writable p _, by
    simp [Instr.shape, Shape.items, parse_post6, Shape.row, Access.row, Access.rowPm, asDag2_dag2, Instr.canon], rfl⟩

theorem stDmPrem (b a : Fin 8) (u : Ureg) (w : Width) : Statement (.stDmPrem b a u w) :=
  fun p => ⟨access_writable p _, by
    simp [Instr.shape, Shape.items, parse_reg, Shape.row, Access.row, Access.rowDm, asDag1_dag1, Instr.canon], rfl⟩

theorem stPmPrem (d c : Fin 8) (u : Ureg) (w : Width) : Statement (.stPmPrem d c u w) :=
  fun p => ⟨access_writable p _, by
    simp [Instr.shape, Shape.items, parse_reg, Shape.row, Access.row, Access.rowPm, asDag2_dag2, Instr.canon], rfl⟩

theorem ldDmPrem (u : Ureg) (b a : Fin 8) (w : Width) : Statement (.ldDmPrem u b a w) :=
  fun p => ⟨access_writable p _, by
    simp [Instr.shape, Shape.items, parse_reg, Shape.row, Access.row, Access.rowDm, asDag1_dag1, Instr.canon], rfl⟩

theorem ldPmPrem (u : Ureg) (d c : Fin 8) (w : Width) : Statement (.ldPmPrem u d c w) :=
  fun p => ⟨access_writable p _, by
    simp [Instr.shape, Shape.items, parse_reg, Shape.row, Access.row, Access.rowPm, asDag2_dag2, Instr.canon], rfl⟩

theorem stDmPre6 (k : BitVec 6) (a : Fin 8) (r : Dreg) : Statement (.stDmPre6 k a r) :=
  fun p => ⟨access_writable p _, by
    simp [Instr.shape, Shape.items, parse_pre6, Shape.row, Access.row, Access.rowDm, asDag1_dag1, Instr.canon], rfl⟩

theorem stPmPre6 (k : BitVec 6) (c : Fin 8) (r : Dreg) : Statement (.stPmPre6 k c r) :=
  fun p => ⟨access_writable p _, by
    simp [Instr.shape, Shape.items, parse_pre6, Shape.row, Access.row, Access.rowPm, asDag2_dag2, Instr.canon], rfl⟩

theorem ldDmPre6 (r : Dreg) (k : BitVec 6) (a : Fin 8) : Statement (.ldDmPre6 r k a) :=
  fun p => ⟨access_writable p _, by
    simp [Instr.shape, Shape.items, parse_pre6, Shape.row, Access.row, Access.rowDm, asDag1_dag1, Instr.canon], rfl⟩

theorem ldPmPre6 (r : Dreg) (k : BitVec 6) (c : Fin 8) : Statement (.ldPmPre6 r k c) :=
  fun p => ⟨access_writable p _, by
    simp [Instr.shape, Shape.items, parse_pre6, Shape.row, Access.row, Access.rowPm, asDag2_dag2, Instr.canon], rfl⟩

theorem ldDmPre32 (u : Ureg) (n : Word) (a : Fin 8) (w : Width) : Statement (.ldDmPre32 u n a w) := by
  refine fun p => ⟨access_writable p _, ?_, ?_⟩
  · cases u <;> cases w <;> by_cases h : n.toNat < data6Limit p <;>
      simp [Instr.shape, Shape.items, parse_pre32, readImm32, Transfer.takesData6, Shape.row, Access.row, Access.rowDm,
        asDag1_dag1, Instr.canon, h]
  · cases u <;> cases w <;> by_cases h : n.toNat < data6Limit p <;> simp only [Instr.canon, h] <;> rfl

theorem ldPmPre32 (u : Ureg) (n : Word) (c : Fin 8) (w : Width) : Statement (.ldPmPre32 u n c w) := by
  refine fun p => ⟨access_writable p _, ?_, ?_⟩
  · cases u <;> cases w <;> by_cases h : n.toNat < data6Limit p <;>
      simp [Instr.shape, Shape.items, parse_pre32, readImm32, Transfer.takesData6, Shape.row, Access.row, Access.rowPm,
        asDag2_dag2, Instr.canon, h]
  · cases u <;> cases w <;> by_cases h : n.toNat < data6Limit p <;> simp only [Instr.canon, h] <;> rfl

theorem stDmPre32 (n : Word) (a : Fin 8) (u : Ureg) (w : Width) : Statement (.stDmPre32 n a u w) := by
  refine fun p => ⟨access_writable p _, ?_, ?_⟩
  · cases u <;> cases w <;> by_cases h : n.toNat < data6Limit p <;>
      simp [Instr.shape, Shape.items, parse_pre32, readImm32, Transfer.takesData6, Shape.row, Access.row, Access.rowDm,
        asDag1_dag1, Instr.canon, h]
  · cases u <;> cases w <;> by_cases h : n.toNat < data6Limit p <;> simp only [Instr.canon, h] <;> rfl

theorem stPmPre32 (n : Word) (c : Fin 8) (u : Ureg) (w : Width) : Statement (.stPmPre32 n c u w) := by
  refine fun p => ⟨access_writable p _, ?_, ?_⟩
  · cases u <;> cases w <;> by_cases h : n.toNat < data6Limit p <;>
      simp [Instr.shape, Shape.items, parse_pre32, readImm32, Transfer.takesData6, Shape.row, Access.row, Access.rowPm,
        asDag2_dag2, Instr.canon, h]
  · cases u <;> cases w <;> by_cases h : n.toNat < data6Limit p <;> simp only [Instr.canon, h] <;> rfl

theorem modifyMDag1 (a b : Fin 8) : Statement (.modifyMDag1 a b) := by
  refine fun p => ⟨fun _ => rfl, ?_, rfl⟩
  simp [Instr.shape, Shape.items, Modifier.items, parseStatement, parseBody, parseModify, addrPair, addrOp, Shape.row,
    rowModify, asDag1_dag1, Instr.canon]

theorem modifyMDag2 (c d : Fin 8) : Statement (.modifyMDag2 c d) := by
  refine fun p => ⟨fun _ => rfl, ?_, rfl⟩
  simp [Instr.shape, Shape.items, Modifier.items, parseStatement, parseBody, parseModify, addrPair, addrOp, Shape.row,
    rowModify, asDag1_dag2, asDag2_dag2, Instr.canon]

theorem modifyIDag1 (a : Fin 8) (n : Word) : Statement (.modifyIDag1 a n) := by
  refine fun p => ⟨fun _ => ?_, ?_, rfl⟩
  · simp [Instr.shape, Shape.items, Modifier.items, Item.writable, Ureg.spellable, n.isLt]
  · simp [Instr.shape, Shape.items, Modifier.items, parseStatement, parseBody, parseModify, addrPair, addrOp, literal,
      data32_toNat, Shape.row, rowModify, asDag1_dag1, Instr.canon]

theorem modifyIDag2 (c : Fin 8) (n : Word) : Statement (.modifyIDag2 c n) := by
  refine fun p => ⟨fun _ => ?_, ?_, rfl⟩
  · simp [Instr.shape, Shape.items, Modifier.items, Item.writable, Ureg.spellable, n.isLt]
  · simp [Instr.shape, Shape.items, Modifier.items, parseStatement, parseBody, parseModify, addrPair, addrOp, literal,
      data32_toNat, Shape.row, rowModify, asDag1_dag2, asDag2_dag2, Instr.canon]

theorem bitrevDag1 (a : Fin 8) (n : Word) : Statement (.bitrevDag1 a n) := by
  refine fun p => ⟨fun _ => ?_, ?_, rfl⟩
  · simp [Instr.shape, Shape.items, Item.writable, Ureg.spellable, n.isLt]
  · simp [Instr.shape, Shape.items, parseStatement, parseBody, parseBitrev, addrPair, addrOp, literal, data32_toNat,
      Shape.row, rowBitrev, asDag1_dag1, Instr.canon]

theorem bitrevDag2 (c : Fin 8) (n : Word) : Statement (.bitrevDag2 c n) := by
  refine fun p => ⟨fun _ => ?_, ?_, rfl⟩
  · simp [Instr.shape, Shape.items, Item.writable, Ureg.spellable, n.isLt]
  · simp [Instr.shape, Shape.items, parseStatement, parseBody, parseBitrev, addrPair, addrOp, literal, data32_toNat,
      Shape.row, rowBitrev, asDag1_dag2, asDag2_dag2, Instr.canon]

theorem ldDual (r1 : Dreg) (a b : Fin 8) (r2 : Dreg) (c d : Fin 8) : Statement (.ldDual r1 a b r2 c d) := by
  refine fun p => ⟨fun _ => rfl, ?_, rfl⟩
  simp [Instr.shape, Shape.items, parseStatement, parseBody, parseAssign, parseLoad, parseDual, addrPair, addrOp, Shape.row,
    rowDual, asDag1_dag1, asDag2_dag2, Instr.canon]

theorem ldiUreg (u : Ureg) (n : Word) : Statement (.ldiUreg u n) := by
  refine fun p => ⟨fun h => ?_, ?_, rfl⟩
  · simp only [Instr.spellable, Instr.shape, Shape.spellable] at h
    simp [Instr.shape, Shape.items, Item.writable, h, n.isLt]
  · cases u <;>
      simp [Instr.shape, Shape.items, parseStatement, parseBody, parseAssign, literal, data32_toNat, Shape.row, Instr.canon]

theorem movUreg (u1 u2 : Ureg) : Statement (.movUreg u1 u2) := by
  refine fun p => ⟨fun h => ?_, ?_, rfl⟩
  · simp only [Instr.spellable, Instr.shape, Shape.spellable, Bool.and_eq_true] at h
    simp [Instr.shape, Shape.items, Item.writable, h]
  · cases u1 <;> simp [Instr.shape, Shape.items, parseStatement, parseBody, parseAssign, Shape.row, Instr.canon]

theorem bitsetMode1 (n : Word) : Statement (.bitsetMode1 n) := by
  refine fun p => ⟨fun _ => ?_, ?_, rfl⟩
  · simp [Instr.shape, Shape.items, Item.writable, Ureg.spellable, n.isLt]
  · simp [Instr.shape, Shape.items, parseStatement, parseBody, parseMask, data32_toNat, Shape.row, Instr.canon]

theorem nop : Statement .nop := fun _ => ⟨fun _ => rfl, rfl, rfl⟩

theorem bittstStkyx (n : Word) : Statement (.bittstStkyx n) := by
  refine fun p => ⟨fun _ => ?_, ?_, rfl⟩
  · simp [Instr.shape, Shape.items, Item.writable, Ureg.spellable, n.isLt]
  · simp [Instr.shape, Shape.items, parseStatement, parseBody, parseMask, data32_toNat, Shape.row, Instr.canon]

theorem pushSts : Statement .pushSts := fun _ => ⟨fun _ => rfl, rfl, rfl⟩

theorem doUntil (n : Word) (l : Ident) : Statement (.doUntil n l) := by
  refine fun p => ⟨fun h => ?_, ?_, rfl⟩
  · simp only [Instr.spellable, Instr.shape, Shape.spellable] at h
    simp [Instr.shape, Shape.items, Item.writable, Ureg.spellable, h, n.isLt]
  · simp [Instr.shape, Shape.items, parseStatement, parseBody, parseDo, literal, data32_toNat, Shape.row, Instr.canon]

end Laws.Encoding

end Sys2Proof
end

