-- ==== Sys2Proof/Tests/Slice0.lean ====
section
/-! SUPPORT. Tests of one step each and, in the last part, a witness for the hypotheses of every statement. Expected results are
from spec/95_test_vectors.md (S, V and P numbers) and from the texts of spec/30_encoding.md and its forms. -/

namespace Sys2Proof.Tests

open Sys2Proof.Machine

/-! ### Builders -/

/-- The bytes of a text. -/
def ascii (s : String) : List Byte := s.toList.map ch

/-- The instruction a text spells. -/
def read (s : String) : Option Instr := (decode Platform.default (ascii s)).toOption

/-- The data register Rn. -/
def rx (n : Fin 16) : Dreg := ⟨.x, n⟩

/-- The data register Sn. -/
def sx (n : Fin 16) : Dreg := ⟨.y, n⟩

/-- The state after reset with MODE1, DAG registers (each written alone) and memory set. -/
def st (mode1 : Word) (regs : List (DagType × RegNum × Word)) (mem : Memory) : State :=
  regs.foldl (fun s r => dagPut s r.1 r.2.1 r.2.2) { State.reset with mode1 := mode1, mem := mem }

/-- A state with data registers set. -/
def withData (s : State) (regs : List (Dreg × DataWord)) : State := regs.foldl (fun s r => dataWrite s r.1 r.2) s

/-- The outcome of a step on a state whose current statement has this text. -/
def stepText (text : String) (s : State) : Host.Outcome State Fault Refusal := step { s with prog := [ascii text] }

/-- The next state of that step, seen through `f`. -/
def after {α : Type} (text : String) (s : State) (f : State → α) : Option α :=
  match stepText text s with
  | .next t => some (f t)
  | .fault _ => none
  | .refused _ => none

/-- The fault of that step. -/
def faultOf (text : String) (s : State) : Option Fault :=
  match stepText text s with
  | .next _ => none
  | .fault e => some e
  | .refused _ => none

/-- The refusal of that step. -/
def refusalOf (text : String) (s : State) : Option Refusal :=
  match stepText text s with
  | .next _ => none
  | .fault _ => none
  | .refused r => some r

/-- MODE1 with CBUFEN = 1 alone (bit 24, R28). -/
def cb : Word := 0x01000000#32

/-! ### Well-formed and ill-formed statements (R187) -/

theorem test_wf_accepts : (Instr.stPmPostm 0 0 (.dag .i 0) .nw).WellFormed ∧ (Instr.ldDmPrem (.dag .l 2) 0 1 .nw).WellFormed ∧
    (Instr.ldDmPostm (.dag .i 8) 1 0 .nw).WellFormed := by decide
theorem test_wf_same_dag_store : (Instr.stDmPostm 1 2 (.dag .i 0) .nw).illFormed = some .sameDagStore := by decide
theorem test_wf_same_dag_store_pre : (Instr.stDmPre32 0x10#32 1 (.dag .b 3) .nw).illFormed = some .sameDagStore := by decide
theorem test_wf_same_dag_load : (Instr.ldDmPostm (.dag .l 2) 1 0 .nw).illFormed = some .sameDagLoad := by decide
theorem test_wf_long_word_non_dag : (Instr.ldDmPostm (.data (rx 0)) 0 1 .lw).illFormed = some .longWordNonDag := by decide
theorem test_wf_dual_same : (Instr.ldDual (rx 0) 1 0 (rx 0) 1 0).illFormed = some .dualSameDestination := by decide
theorem test_wf_move_without_dag : (Instr.movUreg (.data (rx 0)) (.data (rx 1))).illFormed = some .moveWithoutDag := by decide
theorem test_wf_loop : (Instr.doUntil 11#32 (ascii "L")).illFormed = some .loopStatement := by decide

/-! ### Texts of every row, written out from R94, R95, R103 and the examples of the source -/

theorem test_decode_st_dm_postm : read "DM(I0,M1)=R1;" = some (.stDmPostm 0 1 (.data (rx 1)) .nw) := by decide
theorem test_decode_st_pm_postm : read "PM(I8,M8) = I2 (LW);" = some (.stPmPostm 0 0 (.dag .i 2) .lw) := by decide
theorem test_decode_ld_dm_postm : read "R0=dm(i0,m1);" = some (.ldDmPostm (.data (rx 0)) 0 1 .nw) := by decide
theorem test_decode_ld_pm_postm : read "R6 = PM(I15,M12); /* Post-modify addressing with update */" =
    some (.ldPmPostm (.data (rx 6)) 7 4 .nw) := by decide
theorem test_decode_sti_dm_postm : read "DM(I2,M2)=0xDEADBEEF;" = some (.stiDmPostm 2 2 0xDEADBEEF#32) := by decide
theorem test_decode_sti_pm_postm : read "PM(I15,M8) = 0xA;" = some (.stiPmPostm 7 0 0xA#32) := by decide
theorem test_decode_st_dm_post6 : read "DM(I1,0x20)=R3;" = some (.stDmPost6 1 0x20#6 (rx 3)) := by decide
theorem test_decode_st_pm_post6 : read "PM(I8,0x0B)=S3;" = some (.stPmPost6 0 0xB#6 (sx 3)) := by decide
theorem test_decode_ld_dm_post6 : read "R5=DM(I1,-1);" = some (.ldDmPost6 (rx 5) 1 0x3F#6) := by decide
theorem test_decode_ld_pm_post6 : read "F4=PM(I9,31);" = some (.ldPmPost6 (rx 4) 1 31#6) := by decide
theorem test_decode_st_dm_prem : read "DM(M2,I1)=R0;" = some (.stDmPrem 2 1 (.data (rx 0)) .nw) := by decide
theorem test_decode_st_pm_prem : read "PM(M9,I8)=I2;" = some (.stPmPrem 1 0 (.dag .i 2) .nw) := by decide
theorem test_decode_ld_dm_prem : read "L2=DM(M0,I1);" = some (.ldDmPrem (.dag .l 2) 0 1 .nw) := by decide
theorem test_decode_ld_pm_prem : read "R6 = PM(M12,I15);" = some (.ldPmPrem (.data (rx 6)) 4 7 .nw) := by decide
theorem test_decode_st_dm_pre6 : read "DM(-1,I5)=R7;" = some (.stDmPre6 0x3F#6 5 (rx 7)) := by decide
theorem test_decode_st_pm_pre6 : read "PM(-32,I12)=R7;" = some (.stPmPre6 0x20#6 4 (rx 7)) := by decide
theorem test_decode_ld_dm_pre6 : read "R2=DM(31,I1);" = some (.ldDmPre6 (rx 2) 31#6 1) := by decide
theorem test_decode_ld_pm_pre6 : read "R0=PM(0,I8);" = some (.ldPmPre6 (rx 0) 0#6 0) := by decide
theorem test_decode_ld_dm_pre32 : read "R9=DM(0x55003,I6);" = some (.ldDmPre32 (.data (rx 9)) 0x55003#32 6 .nw) := by decide
theorem test_decode_ld_pm_pre32 : read "B4 = PM(-4,I8) (LW);" = some (.ldPmPre32 (.dag .b 4) 0xFFFFFFFC#32 0 .lw) := by decide
theorem test_decode_st_dm_pre32 : read "DM(0x20,I0)=B9 (LW);" = some (.stDmPre32 0x20#32 0 (.dag .b 9) .lw) := by decide
theorem test_decode_st_pm_pre32 : read "PM(0x1000,I15)=M0;" = some (.stPmPre32 0x1000#32 7 (.dag .m 0) .nw) := by decide
theorem test_decode_modify_m_dag1 : read "Modify(I2,M1);" = some (.modifyMDag1 2 1) := by decide
theorem test_decode_modify_m_dag2 : read "Modify(I8,M15);" = some (.modifyMDag2 0 7) := by decide
theorem test_decode_modify_i_dag1 : read "Modify(I1,4);" = some (.modifyIDag1 1 4#32) := by decide
theorem test_decode_modify_i_dag2 : read "Modify(I14,-1);" = some (.modifyIDag2 6 0xFFFFFFFF#32) := by decide
theorem test_decode_bitrev_dag1 : read "Bitrev(I1,4);" = some (.bitrevDag1 1 4#32) := by decide
theorem test_decode_bitrev_dag2 : read "Bitrev(I8,0x400000);" = some (.bitrevDag2 0 0x400000#32) := by decide
theorem test_decode_ld_dual : read "R5 = DM(I1,M0), R6 = PM(I9,M9);" = some (.ldDual (rx 5) 1 0 (rx 6) 1 1) := by decide
theorem test_decode_ldi_ureg : read "M0=0x400000;" = some (.ldiUreg (.dag .m 0) 0x400000#32) := by decide
theorem test_decode_mov_ureg : read "R2=I4;" = some (.movUreg (.data (rx 2)) (.dag .i 4)) := by decide
theorem test_decode_control_registers : read "MMASK=0x01000000;" = some (.ldiUreg (.system .mmask) 0x01000000#32) ∧
    read "I0=MODE1;" = some (.movUreg (.dag .i 0) (.system .mode1)) ∧
    read "DM(I0,M0)=STKYX;" = some (.stDmPostm 0 0 (.system .stkyx) .nw) := by decide
theorem test_decode_bitset_mode1 : read "BIT SET MODE1 SRD1L; /* activate alternate dag1 lo regs */" =
    some (.bitsetMode1 0x10#32) := by decide
theorem test_decode_nop : read "MY_CIR_BUFFER: NOP;" = some .nop := by decide
theorem test_decode_bittst_stkyx : read "BIT TST STKYX CB7S;" = some (.bittstStkyx 0x20000#32) := by decide
theorem test_decode_push_sts : read "PUSH STS;" = some .pushSts := by decide
theorem test_decode_do_until : read "LCNTR = 11, DO MY_CIR_BUFFER UNTIL LCE;" =
    some (.doUntil 11#32 (ascii "MY_CIR_BUFFER")) := by decide

/-- V70, V71: a register of the other DAG. -/
theorem test_decode_mixed_dags :
    decode Platform.default (ascii "R0=DM(I0,M8);") = .error .mixedDags ∧ decode Platform.default (ascii "R0=DM(I8,M8);") = .error .mixedDags := by decide
/-- V75, V76, V78, V80: texts of no row. -/
theorem test_decode_no_such_form :
    decode Platform.default (ascii "R0=DM(I0,0x100000);") = .error .noSuchForm ∧ decode Platform.default (ascii "PM(I8,0x0B)=ASTAT;") = .error .noSuchForm ∧
      decode Platform.default (ascii "Bitrev(I1,M2);") = .error .noSuchForm ∧
      decode Platform.default (ascii "F6=F1+F2,PM(I8,0x0B)=R1;") = .error .noSuchForm := by decide
/-- V72, V73, V74, V77, V79: texts of a row that a step refuses. -/
theorem test_step_refuses :
    refusalOf "DM(I1,M2)=I0;" State.reset = some (.illFormed .sameDagStore) ∧
      refusalOf "DM(M2,I1)=L7;" State.reset = some (.illFormed .sameDagStore) ∧
      refusalOf "I1=DM(I1,M0);" State.reset = some (.illFormed .sameDagLoad) ∧
      refusalOf "R0=DM(I0,M1) (LW);" State.reset = some (.illFormed .longWordNonDag) ∧
      refusalOf "R0=DM(I1,M0), R0=PM(I9,M8);" State.reset = some (.illFormed .dualSameDestination) ∧
      refusalOf "LCNTR = 11, DO L UNTIL LCE;" State.reset = some (.illFormed .loopStatement) := by decide

/-- The text the encoder writes, letter by letter. -/
theorem test_encode : encode Platform.default (.stiDmPostm 2 2 0xDEADBEEF#32) = ascii "DM ( I2 , M2 ) = 0xDEADBEEF ; " := by decide
/-- A platform whose Data6 is unsigned (R96) and whose overflow flags are bits 3 and 4 (R29). -/
def otherPlatform : Platform := { Platform.default with data6Signed := false, stkyCb7s := 3, stkyCb15s := 4 }

/-- R96: unsigned, -1 is no Data6, so only row 19 reads it, and no post-modify row does; 63 is one and 64 is none. -/
theorem test_decode_unsigned_data6 :
    decode otherPlatform (ascii "R2=DM(-1,I1);") = .ok (.ldDmPre32 (.data (rx 2)) 0xFFFFFFFF#32 1 .nw) ∧
      decode otherPlatform (ascii "R2=DM(I1,-1);") = .error .noSuchForm ∧
      decode otherPlatform (ascii "R2=DM(63,I1);") = .ok (.ldDmPre6 (rx 2) 63#6 1) ∧
      decode otherPlatform (ascii "R2=DM(64,I1);") = .ok (.ldDmPre32 (.data (rx 2)) 64#32 1 .nw) := by decide
/-- R29: the bit names are the platform's. -/
theorem test_decode_flag_names : decode otherPlatform (ascii "BIT TST STKYX CB7S|CB15S;") = .ok (.bittstStkyx 0x18#32) := by decide
/-- Log 25: a mask may be a negative number, and a label is spelled like no register. -/
theorem test_decode_mask_and_label : read "BIT SET MODE1 -1;" = some (.bitsetMode1 0xFFFFFFFF#32) ∧
    decode Platform.default (ascii "L1: NOP;") = .error .noSuchForm := by decide

/-- The host's numbering: the first character in bits 7-0. -/
theorem test_table_word : decodeTableWord 32 0x3B504F4E = some .nop ∧
    (match step (State.reset.withFetchWord 32 0x3B504F4E) with
     | .next t => some t.pc
     | _ => none) = some 1 := by decide

/-! ### One step: post-modify accesses (spec/95 part 2.1) -/

theorem test_v1_wraps : after "R0=DM(I0,M1);" (st cb [(.b, 0, 0x55000#32), (.l, 0, 11#32), (.i, 0, 0x55008#32), (.m, 1, 4#32)]
    [(0x55008, 5#32)]) (fun t => (dataRead t (rx 0), dagRead t .i 0)) = some (0x0000000500#40, 0x55001#32) := by decide
theorem test_v2_cbufen_off : after "R0=DM(I0,M1);"
    (st 0#32 [(.b, 0, 0x55000#32), (.l, 0, 11#32), (.i, 0, 0x55008#32), (.m, 1, 4#32)] [(0x55008, 5#32)])
    (fun t => (dataRead t (rx 0), dagRead t .i 0)) = some (0x0000000500#40, 0x5500C#32) := by decide
theorem test_v3_wraps_down : after "DM(I3,M2)=R1;"
    (withData (st cb [(.b, 3, 0x55000#32), (.l, 3, 11#32), (.i, 3, 0x55001#32), (.m, 2, 0xFFFFFFFC#32)] [])
      [(rx 1, 0x0000004200#40)])
    (fun t => (t.mem, dagRead t .i 3)) = some ([(0x55001, 0x42#32)], 0x55008#32) := by decide
theorem test_v7_immediate_store : after "DM(I2,M2)=0xDEADBEEF;" (st cb [(.i, 2, 0x100#32)] [])
    (fun t => (t.mem, dagRead t .i 2)) = some ([(0x100, 0xDEADBEEF#32)], 0x100#32) := by decide
theorem test_v8_passes_2_to_32 : after "DM(I4,M4)=R2;"
    (withData (st 0#32 [(.i, 4, 0xFFFFFFFF#32), (.m, 4, 1#32)] []) [(rx 2, 0x0000000700#40)])
    (fun t => (t.mem, dagRead t .i 4)) = some ([(0xFFFFFFFF, 7#32)], 0#32) := by decide
theorem test_v12_data6_signed : after "DM(I1,0x20)=R3;" (withData (st 0#32 [(.i, 1, 0x100#32)] []) [(rx 3, 0x0000000900#40)])
    (fun t => (t.mem, dagRead t .i 1)) = some ([(0x100, 9#32)], 0xE0#32) := by decide
theorem test_v12_data6_unsigned : after "DM(I1,0x20)=R3;"
    { withData (st 0#32 [(.i, 1, 0x100#32)] []) [(rx 3, 0x0000000900#40)] with
      plat := { Platform.default with data6Signed := false } }
    (fun t => dagRead t .i 1) = some 0x120#32 := by decide
/-- R96, R111: the offset -1 of row 19 where Data6 is unsigned. -/
theorem test_data32_below_zero : after "R2=DM(-1,I1);" { st 0#32 [(.i, 1, 0x300#32)] [(0x2FF, 6#32)] with plat := otherPlatform }
    (fun t => dataRead t (rx 2)) = some 0x0000000600#40 := by decide
/-- R67: a platform whose long words have their halves the other way round. -/
theorem test_long_word_cells : after "PM(I8,M8) = I3 (LW);"
    { st 0#32 [(.i, 2, 0x1111#32), (.i, 3, 0x2222#32), (.i, 8, 0x4002#32)] [] with
      plat := { Platform.default with longWords := [⟨0, 0xFFFFFFFF, 0xFFFFFFFE#32, 1#32, 0#32⟩] } }
    (fun t => t.mem) = some [(0x4002, 0x1111#32), (0x4003, 0x2222#32)] := by decide
theorem test_v13_zero_data6 : after "PM(I8,0)=R3;" (withData (st 0#32 [(.i, 8, 0x500#32)] []) [(rx 3, 0x0000000900#40)])
    (fun t => (t.mem, dagRead t .i 8)) = some ([(0x500, 9#32)], 0x500#32) := by decide
theorem test_v17_bit_reversed : after "R0=PM(I8,M8);" (st 1#32 [(.i, 8, 0x80000000#32), (.m, 8, 0x80000000#32)] [(1, 5#32)])
    (fun t => (dataRead t (rx 0), dagRead t .i 8)) = some (0x0000000500#40, 0#32) := by decide +kernel
theorem test_p5_immediate_store_wraps : after "PM(I15,M8) = 0xC;"
    (st cb [(.b, 15, 0x3000#32), (.l, 15, 3#32), (.i, 15, 0x3002#32), (.m, 8, 1#32)] [])
    (fun t => (t.mem, dagRead t .i 15, t.stkyx, t.irqCb15, t.irqCb7)) =
      some ([(0x3002, 0xC#32)], 0x3000#32, 0x40000#32, true, false) := by decide
theorem test_v18_dual_move_two_wraps : after "R0=DM(I7,M0), R1=PM(I15,M8);"
    (st cb [(.b, 7, 0x10#32), (.l, 7, 2#32), (.i, 7, 0x11#32), (.m, 0, 1#32), (.b, 15, 0x20#32), (.l, 15, 2#32),
      (.i, 15, 0x21#32), (.m, 8, 1#32)] [(0x11, 1#32), (0x21, 2#32)])
    (fun t => ((dataRead t (rx 0), dataRead t (rx 1)), (dagRead t .i 7, dagRead t .i 15), t.stkyx, t.irqCb7, t.irqCb15)) =
      some ((0x0000000100#40, 0x0000000200#40), (0x10#32, 0x20#32), 0x60000#32, true, true) := by decide
theorem test_p6_dual_move_broadcast : after "R5 = DM(I1,M0), R6 = PM(I9,M9);"
    (st 0x00800000#32 [(.i, 1, 0x701#32), (.m, 0, 1#32), (.i, 9, 0x900#32), (.m, 9, 0xFFFFFFFF#32)]
      [(0x701, 0x22222222#32), (0x900, 0x33333333#32)])
    (fun t => ((dataRead t (rx 5), dataRead t (sx 5), dataRead t (rx 6), dataRead t (sx 6)), dagRead t .i 1, dagRead t .i 9)) =
      some ((0x2222222200#40, 0x2222222200#40, 0x3333333300#40, 0#40), 0x702#32, 0x8FF#32) := by decide
theorem test_v50_broadcast : after "R5=DM(I1,-1);" (st 0x00800000#32 [(.i, 1, 0x700#32)] [(0x700, 0xAABBCCDD#32)])
    (fun t => (dataRead t (rx 5), dataRead t (sx 5), dagRead t .i 1)) =
      some (0xAABBCCDD00#40, 0xAABBCCDD00#40, 0x6FF#32) := by decide
theorem test_v54_broadcast_in_simd : after "S4=DM(I1,0);" (st 0x00A00000#32 [(.i, 1, 0x700#32)] [(0x700, 3#32)])
    (fun t => (dataRead t (rx 4), dataRead t (sx 4))) = some (0x0000000300#40, 0x0000000300#40) := by decide
theorem test_v48_long_word_base : after "B1=PM(I8,M8) (LW);"
    (st 0#32 [(.i, 8, 0x2000#32)] [(0x2000, 0xAAAA0000#32), (0x2001, 0xBBBB1111#32)])
    (fun t => (dagRead t .b 1, dagRead t .i 1, dagRead t .b 0, dagRead t .i 0)) =
      some (0xAAAA0000#32, 0xAAAA0000#32, 0xBBBB1111#32, 0xBBBB1111#32) := by decide
theorem test_p4_long_word_store : after "PM(I8,M8) = I3 (LW);"
    (st 0#32 [(.i, 2, 0x1111#32), (.i, 3, 0x2222#32), (.i, 8, 0x4002#32), (.m, 8, 2#32)] [])
    (fun t => (t.mem, dagRead t .i 8)) = some ([(0x4002, 0x2222#32), (0x4003, 0x1111#32)], 0x4004#32) := by decide
theorem test_ld_pm_post6 : after "R2=PM(I9,3);" (st 0#32 [(.i, 9, 0x900#32)] [(0x900, 8#32)])
    (fun t => (dataRead t (rx 2), dagRead t .i 9)) = some (0x0000000800#40, 0x903#32) := by decide

/-- V4 to V6: the flag and request of I7, none of I6, and a zero modifier that wraps. -/
theorem test_v4_overflow : after "R0=DM(I7,M0);" (st cb [(.b, 7, 0x100#32), (.l, 7, 2#32), (.i, 7, 0x101#32), (.m, 0, 1#32)]
    [(0x101, 1#32)]) (fun t => (dagRead t .i 7, t.stkyx, t.irqCb7)) = some (0x100#32, 0x20000#32, true) := by decide
theorem test_v5_no_flag : after "R0=DM(I6,M0);" (st cb [(.b, 6, 0x100#32), (.l, 6, 2#32), (.i, 6, 0x101#32), (.m, 0, 1#32)]
    [(0x101, 1#32)]) (fun t => (dagRead t .i 6, t.stkyx, t.irqCb7)) = some (0x100#32, 0#32, false) := by decide
theorem test_v6_zero_modifier : after "R0=DM(I7,M0);" (st cb [(.b, 7, 0x55000#32), (.l, 7, 11#32), (.i, 7, 0x5500B#32)]
    [(0x5500B, 9#32)]) (fun t => (dagRead t .i 7, t.stkyx, t.irqCb7)) = some (0x55000#32, 0x20000#32, true) := by decide
/-- V14, V15: a zero length in I7; in V15 the flag is a free value, the index is not. -/
theorem test_v14_zero_length : after "R0=DM(I7,M0);" (st cb [(.b, 7, 0x2000#32), (.i, 7, 0x1000#32), (.m, 0, 1#32)]
    [(0x1000, 1#32)]) (fun t => (dagRead t .i 7, t.stkyx, t.irqCb7)) = some (0x1001#32, 0#32, false) := by decide
theorem test_v15_free_flag : after "R0=DM(I7,M0);" (st cb [(.i, 7, 0x1000#32), (.m, 0, 1#32)] [(0x1000, 1#32)])
    (fun t => (dagRead t .i 7, t.draws)) = some (0x1001#32, 1) := by decide
/-- V9, V11, V35: a requirement of R116 does not hold. -/
theorem test_v9_precondition : faultOf "R0=DM(I0,M1);" (st cb [(.b, 0, 0x1000#32), (.l, 0, 4#32), (.i, 0, 0x1000#32), (.m, 1, 4#32)]
    [(0x1000, 0#32)]) = some .circularPrecondition := by decide
theorem test_v11_precondition : faultOf "R0=DM(I0,M1);"
    (st cb [(.b, 0, 0xFFFFFFF8#32), (.l, 0, 0x10#32), (.i, 0, 0xFFFFFFF8#32), (.m, 1, 1#32)] [(0xFFFFFFF8, 0#32)]) =
      some .circularPrecondition := by decide
theorem test_v55_simd : faultOf "R4=DM(I1,0);" (st 0x00200000#32 [(.i, 1, 0x700#32)] []) = some .simdDataMovement := by decide
theorem test_unwritten : faultOf "R4=DM(I1,0);" (st 0#32 [(.i, 1, 0x700#32)] []) = some .unwrittenMemory := by decide

/-! ### One step: pre-modify accesses (part 2.2) -/

theorem test_v20 : after "DM(M2,I1)=R0;"
    (withData (st 0#32 [(.i, 1, 0x1000#32), (.m, 2, 0x10#32)] []) [(rx 0, 0x0000007700#40)])
    (fun t => (t.mem, dagRead t .i 1)) = some ([(0x1010, 0x77#32)], 0x1000#32) := by decide
theorem test_v21_no_wrap : after "R0=DM(M1,I0);" (st cb [(.b, 0, 0x55000#32), (.l, 0, 11#32), (.i, 0, 0x5500A#32), (.m, 1, 4#32)]
    [(0x5500E, 0x77#32)]) (fun t => (dataRead t (rx 0), dagRead t .i 0)) = some (0x0000007700#40, 0x5500A#32) := by decide
/-- V22 with the modifier 0x4000000: the printed 0x400000 does not add up to the printed sum 0x0408A000 (log 36). -/
theorem test_v22_bit_reversed : after "R1=DM(M0,I0);" (st 2#32 [(.i, 0, 0x8A000#32), (.m, 0, 0x4000000#32)] [(0x51020, 3#32)])
    (fun t => (dataRead t (rx 1), dagRead t .i 0)) = some (0x0000000300#40, 0x8A000#32) := by decide +kernel
theorem test_v23_data6 : after "DM(-1,I5)=R7;" (withData (st 0#32 [(.i, 5, 0x300#32)] []) [(rx 7, 0x0000000100#40)])
    (fun t => t.mem) = some [(0x2FF, 1#32)] := by decide +kernel
theorem test_v24_data32 : after "R9=DM(0x55003,I6);" (st 0#32 [] [(0x55003, 8#32)]) (fun t => dataRead t (rx 9)) =
    some 0x0000000800#40 := by decide
theorem test_v25_passes_2_to_32 : after "R2=PM(0x20,I9);" (st 0#32 [(.i, 9, 0xFFFFFFF0#32)] [(0x10, 4#32)])
    (fun t => dataRead t (rx 2)) = some 0x0000000400#40 := by decide
theorem test_v26_same_dag_load : after "I0=DM(M1,I0);" (st 0#32 [(.i, 0, 0x40#32), (.m, 1, 2#32)] [(0x42, 0x99#32)])
    (fun t => dagRead t .i 0) = some 0x99#32 := by decide
theorem test_v28_other_dag_store : after "PM(M9,I8)=I2;" (st 0#32 [(.i, 8, 0x10#32), (.m, 9, 0xFFFFFFF0#32), (.i, 2, 0xABCD#32)] [])
    (fun t => t.mem) = some [(0, 0xABCD#32)] := by decide
theorem test_s4_pre_modify : after "R6 = PM(M12,I15);" (st 0#32 [(.i, 15, 0x2000#32), (.m, 12, 3#32)] [(0x2000, 0xA#32), (0x2003, 0xB#32)])
    (fun t => (dataRead t (rx 6), dagRead t .i 15)) = some (0x0000000B00#40, 0x2000#32) := by decide
theorem test_p4_long_word_load : after "B4 = PM(-4,I8) (LW);" (st 0#32 [(.i, 8, 0x4004#32)] [(0x4000, 0x1111#32), (0x4001, 0x2222#32)])
    (fun t => (dagRead t .b 4, dagRead t .i 4, dagRead t .b 5, dagRead t .i 5)) =
      some (0x1111#32, 0x1111#32, 0x2222#32, 0x2222#32) := by decide
theorem test_st_pm_pre6 : after "PM(-2,I12)=R7;" (withData (st 0#32 [(.i, 12, 0x300#32)] []) [(rx 7, 0x0000000100#40)])
    (fun t => (t.mem, dagRead t .i 12)) = some ([(0x2FE, 1#32)], 0x300#32) := by decide
theorem test_ld_dm_pre6 : after "R2=DM(1,I1);" (st 0#32 [(.i, 1, 0x300#32)] [(0x301, 6#32)]) (fun t => dataRead t (rx 2)) =
    some 0x0000000600#40 := by decide
theorem test_ld_pm_pre6 : after "R2=PM(-3,I9);" (st 0#32 [(.i, 9, 0x300#32)] [(0x2FD, 6#32)]) (fun t => dataRead t (rx 2)) =
    some 0x0000000600#40 := by decide
theorem test_st_dm_pre32 : after "DM(0x20,I0)=B9 (LW);" (st 0#32 [(.i, 0, 0x100#32), (.b, 9, 7#32), (.b, 8, 6#32)] [])
    (fun t => t.mem) = some [(0x120, 7#32), (0x121, 6#32)] := by decide
theorem test_st_pm_pre32 : after "PM(0x1000,I15)=M0;" (st 0#32 [(.i, 15, 0x10#32), (.m, 0, 4#32)] [])
    (fun t => t.mem) = some [(0x1010, 4#32)] := by decide

/-! ### One step: Modify and Bitrev (part 2.3) -/

theorem test_v30_wraps_with_cbufen_off : after "Modify(I2,M1);"
    (st 0#32 [(.b, 2, 0x55000#32), (.l, 2, 11#32), (.i, 2, 0x5500A#32), (.m, 1, 4#32)] []) (fun t => dagRead t .i 2) =
      some 0x55003#32 := by decide
theorem test_v31_wraps_down : after "Modify(I1,-4);" (st 0#32 [(.b, 1, 0x55000#32), (.l, 1, 11#32), (.i, 1, 0x55001#32)] [])
    (fun t => dagRead t .i 1) = some 0x55008#32 := by decide
theorem test_v33 : after "Modify(I14,1);" (st 0#32 [(.i, 14, 0xFFFFFFFF#32)] []) (fun t => dagRead t .i 14) = some 0#32 := by decide
theorem test_v34 : after "Modify(I8,M8);" (st 0#32 [(.i, 8, 0x9000#32), (.m, 8, 0xFFFFFFFD#32)] []) (fun t => dagRead t .i 8) =
    some 0x8FFD#32 := by decide
theorem test_v35_precondition : faultOf "Modify(I3,8);" (st 0#32 [(.l, 3, 8#32), (.i, 3, 4#32)] []) =
    some .circularPrecondition := by decide
theorem test_v36 : after "Bitrev(I1,4);" (st 0#32 [(.i, 1, 4#32)] []) (fun t => dagRead t .i 1) = some 0x10000000#32 := by decide +kernel
theorem test_v38_no_wrap : after "Bitrev(I2,4);" (st 0#32 [(.b, 2, 0x55000#32), (.l, 2, 11#32), (.i, 2, 0x5500A#32)] [])
    (fun t => dagRead t .i 2) = some 0x700AA000#32 := by decide +kernel
theorem test_v39 : after "Bitrev(I9,1);" (st 0#32 [(.i, 9, 0xFFFFFFFF#32)] []) (fun t => dagRead t .i 9) = some 0#32 := by decide +kernel

/-! ### One step: register transfers and support instructions (part 2.4) -/

theorem test_v41_base_writes_index : after "B3=0x1234;" (st 0#32 [(.i, 3, 7#32)] []) (fun t => (dagRead t .b 3, dagRead t .i 3)) =
    some (0x1234#32, 0x1234#32) := by decide
/-- R24, R193: a move of B3 to itself writes I3 (log 37). -/
theorem test_base_to_itself : after "B3=B3;" (st 0#32 [(.b, 3, 5#32), (.i, 3, 7#32)] []) (fun t => (dagRead t .b 3, dagRead t .i 3)) =
    some (5#32, 5#32) := by decide
theorem test_v57_alternate : after "I0=9;" (st 0x10#32 [] []) (fun t => (t.prim.i[0], t.alt.i[0])) =
    some (0#32, 9#32) := by decide
theorem test_v44_duplicates : after "R2=I4;" (st 0x00200000#32 [(.i, 4, 0x00012345#32)] [])
    (fun t => (dataRead t (rx 2), dataRead t (sx 2))) = some (0x0001234500#40, 0x0001234500#40) := by decide
theorem test_v45_pex_precedence : after "I5=S2;"
    (withData (st 0x00200000#32 [] []) [(rx 2, 0x00000AAA00#40), (sx 2, 0x00000BBB00#40)]) (fun t => dagRead t .i 5) =
      some 0x00000AAA#32 := by decide
theorem test_v57_set : after "BIT SET MODE1 SRD1L;" (st 0#32 [] []) (fun t => (t.mode1, t.mode1Changed)) =
    some (0x10#32, 0x10#32) := by decide
theorem test_v60_set_again : after "BIT SET MODE1 SRD1L;" (st 0x10#32 [] []) (fun t => (t.mode1, t.mode1Changed)) =
    some (0x10#32, 0#32) := by decide
theorem test_v58_latency : faultOf "I0=9;" { st 0x10#32 [] [] with mode1Changed := 0x10#32 } = some .mode1Latency ∧
    after "I4=9;" { st 0x10#32 [] [] with mode1Changed := 0x10#32 } (fun t => dagRead t .i 4) = some 9#32 := by decide
/-- R241, R238: after MMASK is written, PUSH STS clears CBUFEN. -/
theorem test_mmask_governs_push : after "MMASK=0x1000000;" (st cb [] []) (fun t => (t.mmask, t.mode1, t.mode1Changed)) = some (cb, cb, 0#32) ∧
    (match exec (.ldiUreg (.system .mmask) cb) (st cb [] []) with
     | .next t => after "PUSH STS;" { t with pc := 0 } (fun t => t.mode1)
     | _ => none) = some 0#32 := by decide
/-- R28, R37: MODE1 is written and read as a Ureg; the bits a write changes are recorded. -/
theorem test_mode1_ureg : after "MODE1=I4;" (st cb [(.i, 4, 0x10#32)] []) (fun t => (t.mode1, t.mode1Changed)) =
    some (0x10#32, 0x01000010#32) ∧
    after "PM(M9,I8)=MODE1;" (st cb [(.i, 8, 0x20#32)] []) (fun t => t.mem) = some [(0x20, cb)] := by decide
/-- R122: the load that switches SRD1L on updates the primary I0, which it addressed with (log 38). -/
theorem test_mode1_load_updates_old_copy : after "MODE1=DM(I0,M1);" (st 0#32 [(.i, 0, 0x40#32), (.m, 1, 2#32)] [(0x40, 0x10#32)])
    (fun t => (t.mode1, t.prim.i[0], t.alt.i[0])) = some (0x10#32, 0x42#32, 0#32) := by decide
/-- R73, R120: the load of STKYX comes before the flag of the wrap; R29: a write clears a flag (log 30). -/
theorem test_stkyx_load : after "STKYX=DM(I7,M0);" (st cb [(.b, 7, 0x100#32), (.l, 7, 2#32), (.i, 7, 0x101#32), (.m, 0, 1#32)]
    [(0x101, 1#32)]) (fun t => (t.stkyx, t.irqCb7)) = some (0x20001#32, true) ∧
    after "STKYX=0;" { State.reset with stkyx := 0x60000#32 } (fun t => t.stkyx) = some 0#32 := by decide
/-- R30, R32, log 30: MODE2 is no universal register of the platform, nor is MMASK of one that does not list it. -/
theorem test_no_control_register : refusalOf "MODE2=1;" State.reset = some (.notUniversalRegister (ascii "MODE2")) ∧
    refusalOf "MMASK=1;" { State.reset with plat := { Platform.default with systemUregs := [.mode1] } } =
      some (.notUniversalRegister (ascii "MMASK")) := by decide
theorem test_nop_ends_latency : after "NOP;" { st 0x10#32 [] [] with mode1Changed := 0x10#32 } (fun t => (t.mode1Changed, t.pc)) =
    some (0#32, 1) := by decide
/-- R190: with a mask of both flags the test succeeds only if both are set. -/
theorem test_bittst : after "BIT TST STKYX CB7S|CB15S;" { State.reset with stkyx := 0x60000#32 } (fun t => t.bitTested) = some true ∧
    after "BIT TST STKYX CB7S|CB15S;" { State.reset with stkyx := 0x40000#32 } (fun t => t.bitTested) = some false := by decide
theorem test_v61_push_clears : after "PUSH STS;" { st cb [] [] with mmask := 0x01000000#32 } (fun t => (t.mode1, t.mode1Changed)) =
    some (0#32, 0x01000000#32) := by decide
theorem test_v62_push_keeps : after "PUSH STS;" (st cb [] []) (fun t => (t.mode1, t.mode1Changed)) = some (cb, 0#32) := by decide

/-- R236, R238: an external interrupt clears its part of MODE1 and goes where `Core` says. -/
theorem test_core_event :
    (match step { st cb [] [] with
        mmask := 0x01000000#32, irqCb7 := true, core := [some ⟨.external, 5⟩], prog := [ascii "NOP;"] } with
     | .next t => some (t.mode1, t.pc, t.irqCb7, t.core)
     | _ => none) = some (0#32, 5, true, []) := by decide
/-- D35: past the last statement the run is over, whatever `Core` answers (log 2). -/
theorem test_end : step State.reset = .fault .endOfProgram ∧
    step { State.reset with core := [some ⟨.external, 0⟩] } = .fault .endOfProgram := ⟨rfl, rfl⟩

/-! ### Witnesses: states and operands that meet the hypotheses of each statement -/

open Sys2Proof.Claims

/-- CBUFEN = 1; buffers 0 (length 11), 7 (length 2) and 15 (length 3) about to wrap; I1, I2, I8 and I9 with no buffer. -/
def hub : State := st cb
  [(.b, 0, 0x55000#32), (.l, 0, 11#32), (.i, 0, 0x55008#32), (.m, 1, 4#32), (.b, 7, 0x100#32), (.l, 7, 2#32), (.i, 7, 0x101#32),
   (.m, 0, 1#32), (.b, 15, 0x3000#32), (.l, 15, 3#32), (.i, 15, 0x3002#32), (.m, 8, 1#32), (.i, 1, 0x700#32), (.i, 2, 0x100#32),
   (.i, 8, 0x2000#32), (.i, 9, 0x10#32)]
  [(0x10, 7#32), (0x100, 8#32), (0x101, 1#32), (0x700, 0x44#32), (0x2000, 0xAAAA0000#32), (0x2001, 0xBBBB1111#32), (0x3002, 2#32),
   (0x55008, 5#32), (0x5500C, 6#32)]

/-- `hub` with another MODE1. -/
def hubMode (m : Word) : State := { hub with mode1 := m }

/-- The instruction has a next state. -/
def goes (i : Instr) (s : State) : Bool :=
  match exec i s with
  | .next _ => true
  | .fault _ => false
  | .refused _ => false

/-- The step has a next state. -/
def stepGoes (s : State) : Bool :=
  match step s with
  | .next _ => true
  | .fault _ => false
  | .refused _ => false

theorem next_of {i : Instr} {s : State} (h : goes i s = true) : ∃ t, exec i s = .next t := by
  unfold goes at h
  split at h
  · exact ⟨_, by assumption⟩
  · cases h
  · cases h

theorem step_of {s : State} (h : stepGoes s = true) : ∃ t, step s = .next t := by
  unfold stepGoes at h
  split at h
  · exact ⟨_, by assumption⟩
  · cases h
  · cases h

theorem known_data (s : State) (d : Dreg) : Known s (.data d) := ⟨nofun, nofun⟩

theorem known_dag (s : State) (t : DagType) (n : RegNum) : Known s (.dag t n) := ⟨nofun, nofun⟩

theorem known_system (r : SystemReg) : Known hub (.system r) := by
  refine ⟨nofun, fun r' h => ?_⟩
  cases r' <;> decide

theorem known_astat : Known hub (.other astatName) := by
  refine ⟨fun n h => ?_, nofun⟩
  cases h
  exact ⟨0#32, rfl⟩

/-- Buffer 0 of `hub` at both ends of the modifiers R116 allows, 10 and -10. -/
theorem hub_updatable : Updatable hub 0 4 true ∧ Updatable hub 0 10 true ∧ Updatable hub 0 (-10) true := by
  refine ⟨fun _ _ => ?_, fun _ _ => ?_, fun _ _ => ?_⟩ <;> (unfold CircReq; decide +kernel)

/-- The modifiers past them. -/
theorem hub_not_updatable : ¬Updatable hub 0 11 true ∧ ¬Updatable hub 0 (-11) true := by
  refine ⟨fun h => absurd (h rfl (by decide)) ?_, fun h => absurd (h rfl (by decide)) ?_⟩ <;> (unfold CircReq; decide +kernel)

/-- Buffers 7 and 15 of `hub`, and two registers with no buffer. -/
theorem hub_updatable_others : Updatable hub 7 1 true ∧ Updatable hub 15 1 true ∧ Updatable hub 8 1 true ∧ Updatable hub 2 0 true := by
  refine ⟨fun _ _ => ?_, fun _ _ => ?_, fun _ h => absurd rfl h, fun _ h => absurd rfl h⟩ <;> (unfold CircReq; decide +kernel)

theorem witness_PostLoadCompletes :
    (Instr.ldDmPostm (.data (rx 0)) 0 1 .nw).shape = .access ⟨.dm, 0, .post, .reg 1, .load (.data (rx 0)) .nw⟩ ∧
      Passes (.ldDmPostm (.data (rx 0)) 0 1 .nw) hub ∧ admitted hub .dm .nw (postAddress hub 0) = true ∧
      cellRead hub.mem (postAddress hub 0).toNat = some 5#32 ∧ Known hub (.data (rx 0)) ∧
      Updatable hub 0 (modifierValue hub (.reg 1)) (hub.mode1.getLsbD 24) :=
  ⟨rfl, rfl, rfl, rfl, known_data _ _, hub_updatable.1⟩

theorem witness_PostLoadCompletes_other :
    (Instr.ldDmPostm (.other astatName) 2 2 .nw).shape = .access ⟨.dm, 2, .post, .reg 2, .load (.other astatName) .nw⟩ ∧
      Passes (.ldDmPostm (.other astatName) 2 2 .nw) hub ∧ admitted hub .dm .nw (postAddress hub 2) = true ∧
      cellRead hub.mem (postAddress hub 2).toNat = some 8#32 ∧ Known hub (.other astatName) ∧
      Updatable hub 2 (modifierValue hub (.reg 2)) (hub.mode1.getLsbD 24) :=
  ⟨rfl, rfl, rfl, rfl, known_astat, hub_updatable_others.2.2.2⟩

/-- A load of MODE1, and one of STKYX through I7, whose update then sets the flag. -/
theorem witness_PostLoadCompletes_system :
    ((Instr.ldDmPostm (.system .mode1) 0 1 .nw).shape = .access ⟨.dm, 0, .post, .reg 1, .load (.system .mode1) .nw⟩ ∧
        Passes (.ldDmPostm (.system .mode1) 0 1 .nw) hub ∧ Known hub (.system .mode1)) ∧
      Passes (.ldDmPostm (.system .stkyx) 7 0 .nw) hub ∧ admitted hub .dm .nw (postAddress hub 7) = true ∧
      cellRead hub.mem (postAddress hub 7).toNat = some 1#32 ∧ Known hub (.system .stkyx) ∧
      Updatable hub 7 (modifierValue hub (.reg 0)) (hub.mode1.getLsbD 24) :=
  ⟨⟨rfl, rfl, known_system _⟩, rfl, rfl, rfl, known_system _, hub_updatable_others.1⟩

theorem witness_PostLoadLongCompletes :
    (Instr.ldPmPostm (.dag .b 1) 0 0 .lw).shape = .access ⟨.pm, 8, .post, .reg 8, .load (.dag .b 1) .lw⟩ ∧
      Passes (.ldPmPostm (.dag .b 1) 0 0 .lw) hub ∧ admitted hub .pm .lw (postAddress hub 8) = true ∧
      cellRead hub.mem (longWordCells hub (postAddress hub 8)).1.toNat = some 0xAAAA0000#32 ∧
      cellRead hub.mem (longWordCells hub (postAddress hub 8)).2.toNat = some 0xBBBB1111#32 ∧
      Updatable hub 8 (modifierValue hub (.reg 8)) (hub.mode1.getLsbD 24) :=
  ⟨rfl, rfl, rfl, rfl, rfl, hub_updatable_others.2.2.1⟩

theorem witness_PostStoreCompletes :
    (Instr.stDmPostm 0 1 (.data (rx 1)) .nw).shape = .access ⟨.dm, 0, .post, .reg 1, .store (.data (rx 1)) .nw⟩ ∧
      Passes (.stDmPostm 0 1 (.data (rx 1)) .nw) hub ∧ admitted hub .dm .nw (postAddress hub 0) = true ∧
      StoredValue hub (.data (rx 1)) 0#32 ∧ Updatable hub 0 (modifierValue hub (.reg 1)) (hub.mode1.getLsbD 24) :=
  ⟨rfl, rfl, rfl, rfl, hub_updatable.1⟩

theorem witness_PostStoreLongCompletes :
    (Instr.stPmPostm 0 0 (.dag .i 3) .lw).shape = .access ⟨.pm, 8, .post, .reg 8, .store (.dag .i 3) .lw⟩ ∧
      Passes (.stPmPostm 0 0 (.dag .i 3) .lw) hub ∧ admitted hub .pm .lw (postAddress hub 8) = true ∧
      Updatable hub 8 (modifierValue hub (.reg 8)) (hub.mode1.getLsbD 24) ∧
      (longWordCells hub (postAddress hub 8)).1 ≠ (longWordCells hub (postAddress hub 8)).2 :=
  ⟨rfl, rfl, rfl, hub_updatable_others.2.2.1, by decide⟩

theorem witness_PostStoreImmediateCompletes :
    (Instr.stiPmPostm 7 0 0xC#32).shape = .access ⟨.pm, 15, .post, .reg 8, .storeImm 0xC#32⟩ ∧
      Passes (.stiPmPostm 7 0 0xC#32) hub ∧ admitted hub .pm .nw (postAddress hub 15) = true ∧
      Updatable hub 15 (modifierValue hub (.reg 8)) (hub.mode1.getLsbD 24) :=
  ⟨rfl, rfl, rfl, hub_updatable_others.2.1⟩

theorem witness_DualMoveCompletes :
    Passes (.ldDual (rx 0) 7 0 (rx 1) 7 0) hub ∧ admitted hub .dm .nw (postAddress hub (dag1 7)) = true ∧
      cellRead hub.mem (postAddress hub (dag1 7)).toNat = some 1#32 ∧ admitted hub .pm .nw (postAddress hub (dag2 7)) = true ∧
      cellRead hub.mem (postAddress hub (dag2 7)).toNat = some 2#32 ∧
      Updatable hub (dag1 7) (dagRead hub .m (dag1 0)).toInt (hub.mode1.getLsbD 24) ∧
      Updatable hub (dag2 7) (dagRead hub .m (dag2 0)).toInt (hub.mode1.getLsbD 24) ∧ (rx 0).num ≠ (rx 1).num ∧
      ¬Broadcast hub (dag1 7) ∧ ¬Broadcast hub (dag2 7) :=
  ⟨rfl, rfl, rfl, rfl, rfl, hub_updatable_others.1, hub_updatable_others.2.1, by decide, by unfold Broadcast; decide,
    by unfold Broadcast; decide⟩

/-- Both halves of the dual move broadcast. -/
theorem witness_DualMoveCompletes_broadcast :
    Passes (.ldDual (rx 0) 1 0 (rx 1) 1 0) (hubMode 0x00C00000#32) ∧ Broadcast (hubMode 0x00C00000#32) (dag1 1) ∧
      Broadcast (hubMode 0x00C00000#32) (dag2 1) ∧
      cellRead hub.mem (postAddress (hubMode 0x00C00000#32) (dag1 1)).toNat = some 0x44#32 ∧
      cellRead hub.mem (postAddress (hubMode 0x00C00000#32) (dag2 1)).toNat = some 7#32 ∧
      goes (.ldDual (rx 0) 1 0 (rx 1) 1 0) (hubMode 0x00C00000#32) = true :=
  ⟨rfl, by unfold Broadcast; decide, by unfold Broadcast; decide, rfl, rfl, by decide⟩

/-- Two registers of one pair, with no load and with the PM load broadcast. -/
theorem witness_DualMoveCompletes_pair :
    (rx 0).num = (sx 0).num ∧ goes (.ldDual (rx 0) 7 0 (sx 0) 7 0) hub = true ∧ ¬Broadcast hub (dag2 7) ∧
      goes (.ldDual (rx 0) 1 0 (sx 0) 1 0) (hubMode 0x00C00000#32) = true ∧ Broadcast (hubMode 0x00C00000#32) (dag2 1) :=
  ⟨rfl, by decide, by unfold Broadcast; decide, by decide, by unfold Broadcast; decide⟩

theorem witness_PreLoadCompletes :
    (Instr.ldDmPrem (.dag .i 0) 1 0 .nw).shape = .access ⟨.dm, 0, .pre, .reg 1, .load (.dag .i 0) .nw⟩ ∧
      Passes (.ldDmPrem (.dag .i 0) 1 0 .nw) hub ∧
      sameSpace hub (dagRead hub .i 0) (trunc32 ((dagRead hub .i 0).toNat + modifierValue hub (.reg 1))) = true ∧
      admitted hub .dm .nw (preAddress hub 0 (modifierValue hub (.reg 1))) = true ∧
      cellRead hub.mem (preAddress hub 0 (modifierValue hub (.reg 1))).toNat = some 6#32 ∧ Known hub (.dag .i 0) :=
  ⟨rfl, rfl, rfl, rfl, rfl, known_dag _ _ _⟩

theorem witness_PreLoadLongCompletes :
    (Instr.ldPmPre32 (.dag .b 4) 0#32 0 .lw).shape = .access ⟨.pm, 8, .pre, .imm32 0#32, .load (.dag .b 4) .lw⟩ ∧
      Passes (.ldPmPre32 (.dag .b 4) 0#32 0 .lw) hub ∧
      sameSpace hub (dagRead hub .i 8) (trunc32 ((dagRead hub .i 8).toNat + modifierValue hub (.imm32 0#32))) = true ∧
      admitted hub .pm .lw (preAddress hub 8 (modifierValue hub (.imm32 0#32))) = true ∧
      cellRead hub.mem (longWordCells hub (preAddress hub 8 (modifierValue hub (.imm32 0#32)))).1.toNat = some 0xAAAA0000#32 ∧
      cellRead hub.mem (longWordCells hub (preAddress hub 8 (modifierValue hub (.imm32 0#32)))).2.toNat = some 0xBBBB1111#32 :=
  ⟨rfl, rfl, rfl, rfl, rfl, rfl⟩

theorem witness_PreStoreCompletes :
    (Instr.stPmPrem 1 0 (.dag .i 2) .nw).shape = .access ⟨.pm, 8, .pre, .reg 9, .store (.dag .i 2) .nw⟩ ∧
      Passes (.stPmPrem 1 0 (.dag .i 2) .nw) hub ∧
      sameSpace hub (dagRead hub .i 8) (trunc32 ((dagRead hub .i 8).toNat + modifierValue hub (.reg 9))) = true ∧
      admitted hub .pm .nw (preAddress hub 8 (modifierValue hub (.reg 9))) = true ∧ StoredValue hub (.dag .i 2) 0x100#32 :=
  ⟨rfl, rfl, rfl, rfl, rfl⟩

theorem witness_PreStoreLongCompletes :
    (Instr.stDmPre32 0x20#32 0 (.dag .b 9) .lw).shape = .access ⟨.dm, 0, .pre, .imm32 0x20#32, .store (.dag .b 9) .lw⟩ ∧
      Passes (.stDmPre32 0x20#32 0 (.dag .b 9) .lw) hub ∧
      sameSpace hub (dagRead hub .i 0) (trunc32 ((dagRead hub .i 0).toNat + modifierValue hub (.imm32 0x20#32))) = true ∧
      admitted hub .dm .lw (preAddress hub 0 (modifierValue hub (.imm32 0x20#32))) = true ∧
      (longWordCells hub (preAddress hub 0 (modifierValue hub (.imm32 0x20#32)))).1 ≠
        (longWordCells hub (preAddress hub 0 (modifierValue hub (.imm32 0x20#32)))).2 :=
  ⟨rfl, rfl, rfl, rfl, by decide⟩

/-- The numbers where the pairs and the DAGs meet. -/
theorem witness_PartnerNumber : partner 0 = 1 ∧ partner 1 = 0 ∧ partner 7 = 6 ∧ partner 8 = 9 ∧ partner 15 = 14 := by decide

/-- Both readings of a Data6 and of a Data32 on each side of the sign bit. -/
theorem witness_ModifierValues :
    (State.reset.plat.data6Signed = true ∧ otherPlatform.data6Signed = false) ∧
      (modifierValue State.reset (.imm6 31#6) = 31 ∧ modifierValue State.reset (.imm6 32#6) = -32) ∧
      (modifierValue { State.reset with plat := otherPlatform } (.imm6 31#6) = 31 ∧
        modifierValue { State.reset with plat := otherPlatform } (.imm6 63#6) = 63) ∧
      modifierValue State.reset (.imm32 0x7FFFFFFF#32) = 2147483647 ∧ modifierValue State.reset (.imm32 0x80000000#32) = -2147483648 := by
  decide

theorem witness_LongWordDefault : hub.plat.longWords = [] := rfl

/-- Both branches of ModifyUpdatesIndex, at the modifiers where they meet. -/
theorem witness_ModifyUpdatesIndex :
    (Instr.modifyIDag1 0 10#32).shape = .modify 0 (.imm32 10#32) ∧
      Passes (.modifyIDag1 0 10#32) hub ∧ Updatable hub 0 (modifierValue hub (.imm32 10#32)) true ∧
      Passes (.modifyIDag1 0 11#32) hub ∧ ¬Updatable hub 0 (modifierValue hub (.imm32 11#32)) true :=
  ⟨rfl, rfl, hub_updatable.2.1, rfl, hub_not_updatable.1⟩

theorem witness_BitrevReverses :
    (Instr.bitrevDag1 0 0#32).shape = .bitrev 0 0#32 ∧
      Passes (.bitrevDag1 0 0#32) hub ∧
    ∃ t t', exec (.bitrevDag1 0 0#32) hub = .next t ∧ exec (.bitrevDag1 0 0#32) t = .next t' :=
  ⟨rfl, rfl, _, _, rfl, rfl⟩

theorem witness_LoadImmediateCompletes :
    (Passes (.ldiUreg (.dag .b 3) 1#32) hub ∧ Known hub (.dag .b 3)) ∧
      (Passes (.ldiUreg (.data (sx 3)) 1#32) hub ∧ Known hub (.data (sx 3))) ∧
      (Passes (.ldiUreg (.system .mode1) 1#32) hub ∧ Known hub (.system .mode1)) ∧
      Passes (.ldiUreg (.other astatName) 1#32) hub ∧ Known hub (.other astatName) :=
  ⟨⟨rfl, known_dag _ _ _⟩, ⟨rfl, known_data _ _⟩, ⟨rfl, known_system _⟩, rfl, known_astat⟩

/-- Every case of MOV.UREG, the two of the SIMD bit included. -/
theorem witness_MoveRegisterCompletes :
    Passes (.movUreg (.dag .b 3) (.dag .i 0)) hub ∧ Passes (.movUreg (.data (rx 2)) (.dag .i 0)) hub ∧
      (Passes (.movUreg (.dag .i 5) (.data (sx 2))) hub ∧ hub.mode1.getLsbD 21 = false) ∧
      (Passes (.movUreg (.dag .i 5) (.data (sx 2))) (hubMode 0x00200000#32) ∧ (hubMode 0x00200000#32).mode1.getLsbD 21 = true) ∧
      (Passes (.movUreg (.system .mmask) (.dag .i 0)) hub ∧ Passes (.movUreg (.dag .i 0) (.system .mode1)) hub ∧
        StoredValue hub (.system .mode1) cb ∧ Known hub (.system .mode1)) ∧
      Passes (.movUreg (.other astatName) (.dag .i 0)) hub ∧ Passes (.movUreg (.dag .i 0) (.other astatName)) hub ∧
      otherRead hub astatName = some 0#32 :=
  ⟨rfl, rfl, ⟨rfl, rfl⟩, ⟨rfl, rfl⟩, ⟨rfl, rfl, ⟨by decide, rfl⟩, known_system _⟩, rfl, rfl, rfl⟩

theorem witness_BitSetMode1Completes : hub.mode1 &&& cb = cb := by decide

theorem witness_BitTestCompletes : otherRead hub astatName = some 0#32 ∧
    (∃ t, exec (.bittstStkyx 0#32) hub = .next t ∧ ∃ v, otherRead t astatName = some v) :=
  ⟨rfl, _, rfl, _, rfl⟩

theorem witness_PushStsClearsCbufen : (CoreEvent.mk .external 0).kind = .external ∧ (CoreEvent.mk .cb7 0).kind = .cb7 := ⟨rfl, rfl⟩

/-- A value with bit 24 and one without it. -/
theorem witness_MmaskWriteGovernsPush : .mmask ∈ hub.plat.systemUregs ∧ cb.getLsbD 24 = true ∧ (0x00800000#32 : Word).getLsbD 24 = false := by
  decide

theorem witness_DoUntilIsRefused :
    decode Platform.default (ascii "LCNTR = 11, DO L UNTIL LCE;") = .ok (.doUntil 11#32 (ascii "L")) ∧
      ({ hub with prog := [ascii "LCNTR = 11, DO L UNTIL LCE;"] } : State).prog[hub.pc]? =
        some (ascii "LCNTR = 11, DO L UNTIL LCE;") ∧ NoEvent hub := by
  refine ⟨by decide, rfl, .inl rfl⟩

theorem witness_StoreFrame :
    (Instr.stDmPostm 0 1 (.data (rx 1)) .nw).shape = .access ⟨.dm, 0, .post, .reg 1, .store (.data (rx 1)) .nw⟩ ∧
      IsStore ⟨.dm, 0, .post, .reg 1, .store (.data (rx 1)) .nw⟩ ∧
    (∃ t, exec (.stDmPostm 0 1 (.data (rx 1)) .nw) hub = .next t) ∧
    IsStore ⟨.pm, 15, .post, .reg 8, .storeImm 1#32⟩ ∧ (∃ t, exec (.stiPmPostm 7 0 1#32) hub = .next t) ∧
    ∃ t, exec (.stDmPre32 0x20#32 0 (.dag .b 9) .lw) hub = .next t :=
  ⟨rfl, .inl ⟨_, _, rfl⟩, next_of (by decide), .inr ⟨_, rfl⟩, next_of (by decide), next_of (by decide)⟩

theorem witness_LoadFrame :
    (Instr.ldDmPostm (.data (rx 0)) 0 1 .nw).shape = .access ⟨.dm, 0, .post, .reg 1, .load (.data (rx 0)) .nw⟩ ∧
      (∃ t, exec (.ldDmPostm (.data (rx 0)) 0 1 .nw) hub = .next t) ∧
    (∃ t, exec (.ldPmPostm (.dag .b 1) 0 0 .lw) hub = .next t) ∧ (∃ t, exec (.ldDmPrem (.dag .i 0) 1 0 .nw) hub = .next t) ∧
    (∃ t, exec (.ldDmPostm (.system .stkyx) 7 0 .nw) hub = .next t) ∧ ∃ t, exec (.ldDmPrem (.system .mode1) 1 0 .nw) hub = .next t :=
  ⟨rfl, next_of (by decide), next_of (by decide), next_of (by decide), next_of (by decide), next_of (by decide)⟩

theorem witness_DualMoveFrame : ∃ t, exec (.ldDual (rx 0) 7 0 (rx 1) 7 0) hub = .next t := next_of (by decide)

theorem witness_ModifyFrame : (Instr.modifyMDag1 0 1).shape = .modify 0 (.reg 1) ∧ ∃ t, exec (.modifyMDag1 0 1) hub = .next t :=
  ⟨rfl, next_of (by decide)⟩

/-- Index 7 of `hub` reaches the end of its buffer; one lower it does not. -/
theorem witness_wrap : WrapCond hub 7 1 ∧ ¬WrapCond hub 7 0 ∧ WrapCond hub 15 1 ∧ WrapCond hub 15 (-3) ∧ ¬WrapCond hub 15 (-2) := by
  unfold WrapCond
  decide

/-- `hub` with length zero in buffers 7 and 15. -/
def hubZero : State := dagPut (dagPut hub .l 7 0#32) .l 15 0#32

theorem witness_AccessOverflow :
    ((∃ t, exec (.ldDmPostm (.data (rx 0)) 7 0 .nw) (hubMode 0#32) = .next t) ∧ (hubMode 0#32).mode1.getLsbD 24 = false) ∧
      ((∃ t, exec (.ldDmPost6 (rx 0) 7 0#6) hub = .next t) ∧ ¬WrapCond hub 7 (modifierValue hub (.imm6 0#6))) ∧
      ((∃ t, exec (.ldDmPostm (.data (rx 0)) 0 1 .nw) hub = .next t) ∧ (0 : RegNum) ≠ 7 ∧ (0 : RegNum) ≠ 15) ∧
      ((∃ t, exec (.ldDmPostm (.data (rx 0)) 7 0 .nw) hub = .next t) ∧ hub.mode1.getLsbD 24 = true ∧
        WrapCond hub 7 (modifierValue hub (.reg 0)) ∧ dagRead hub .l 7 ≠ 0#32) ∧
      ((∃ t, exec (.stiPmPostm 7 0 1#32) hub = .next t) ∧ WrapCond hub 15 (modifierValue hub (.reg 8)) ∧
        dagRead hub .l 15 ≠ 0#32) ∧
      ∃ t, exec (.ldDmPostm (.system .stkyx) 7 0 .nw) hub = .next t :=
  ⟨⟨next_of (by decide), rfl⟩, ⟨next_of (by decide), witness_wrap.2.1⟩, ⟨next_of (by decide), by decide, by decide⟩,
    ⟨next_of (by decide), rfl, witness_wrap.1, by decide⟩, ⟨next_of (by decide), witness_wrap.2.2.1, by decide⟩,
    next_of (by decide)⟩

theorem witness_AccessOverflow_zero_length :
    (Instr.ldDmPostm (.data (rx 0)) 7 0 .nw).shape = .access ⟨.dm, 7, .post, .reg 0, .load (.data (rx 0)) .nw⟩ ∧
      (∃ t, exec (.ldDmPostm (.data (rx 0)) 7 0 .nw) hubZero = .next t) ∧ hubZero.mode1.getLsbD 24 = true ∧
      WrapCond hubZero 7 (modifierValue hubZero (.reg 0)) ∧ dagRead hubZero .l 7 = 0#32 ∧
      (∃ t, exec (.stiPmPostm 7 0 1#32) hubZero = .next t) ∧ WrapCond hubZero 15 (modifierValue hubZero (.reg 8)) ∧
      dagRead hubZero .l 15 = 0#32 :=
  ⟨rfl, next_of (by decide), rfl, by unfold WrapCond; decide, rfl, next_of (by decide), by unfold WrapCond; decide, rfl⟩

theorem witness_DualMoveOverflow :
    ((∃ t, exec (.ldDual (rx 0) 7 0 (rx 1) 7 0) hub = .next t) ∧ WrapCond hub (dag1 7) (dagRead hub .m (dag1 0)).toInt ∧
      WrapCond hub (dag2 7) (dagRead hub .m (dag2 0)).toInt ∧ dagRead hub .l 7 ≠ 0#32 ∧ dagRead hub .l 15 ≠ 0#32) ∧
      ((∃ t, exec (.ldDual (rx 0) 7 0 (rx 1) 7 0) (hubMode 0#32) = .next t) ∧ (hubMode 0#32).mode1.getLsbD 24 = false) ∧
      ((∃ t, exec (.ldDual (rx 0) 1 0 (rx 1) 1 0) hub = .next t) ∧ (1 : Fin 8) ≠ 7) ∧
      hub.plat.stkyCb7s ≠ hub.plat.stkyCb15s :=
  ⟨⟨next_of (by decide), witness_wrap.1, witness_wrap.2.2.1, by decide, by decide⟩, ⟨next_of (by decide), rfl⟩,
    ⟨next_of (by decide), by decide⟩, by decide⟩

/-- Both zero-length clauses of the dual move. -/
theorem witness_DualMoveOverflow_zero_length :
    (∃ t, exec (.ldDual (rx 0) 7 0 (rx 1) 7 0) hubZero = .next t) ∧ hubZero.mode1.getLsbD 24 = true ∧
      (WrapCond hubZero (dag1 7) (dagRead hubZero .m (dag1 0)).toInt ∧ dagRead hubZero .l 7 = 0#32) ∧
      (WrapCond hubZero (dag2 7) (dagRead hubZero .m (dag2 0)).toInt ∧ dagRead hubZero .l 15 = 0#32) ∧
      hubZero.plat.stkyCb7s ≠ hubZero.plat.stkyCb15s :=
  ⟨next_of (by decide), rfl, ⟨by unfold WrapCond; decide, rfl⟩, ⟨by unfold WrapCond; decide, rfl⟩, by decide⟩

theorem witness_ModifyOverflow :
    (∃ t, exec (.modifyIDag1 7 0#32) hub = .next t) ∧ ¬WrapCond hub 7 (modifierValue hub (.imm32 0#32)) ∧
      (∃ t, exec (.modifyMDag1 7 0) hub = .next t) ∧ (∃ t, exec (.modifyMDag2 7 0) hub = .next t) ∧
      ∃ t, exec (.modifyMDag1 0 1) hub = .next t :=
  ⟨next_of (by decide), witness_wrap.2.1, next_of (by decide), next_of (by decide), next_of (by decide)⟩

theorem witness_CircularIndexStaysInBuffer :
    UpdatesCircular (.modifyMDag1 0 1) hub 0 ∧ UpdatesCircular (.ldDmPostm (.data (rx 0)) 0 1 .nw) hub 0 ∧
      UpdatesCircular (.ldDual (rx 0) 7 0 (rx 1) 7 0) hub 15 ∧ (InBuffer hub 0 ∧ InBuffer hub 15) ∧
      (dagRead hub .l 0 ≠ 0#32 ∧ dagRead hub .l 15 ≠ 0#32) ∧ (∃ t, exec (.modifyMDag1 0 1) hub = .next t) ∧
      (∃ t, exec (.ldDmPostm (.data (rx 0)) 0 1 .nw) hub = .next t) ∧ ∃ t, exec (.ldDual (rx 0) 7 0 (rx 1) 7 0) hub = .next t :=
  ⟨.inl ⟨_, rfl⟩, .inr ⟨rfl, .inl ⟨_, rfl, rfl, rfl⟩⟩, .inr ⟨rfl, .inr ⟨_, _, _, _, _, _, rfl, .inr rfl⟩⟩,
    by unfold InBuffer; decide, by decide, next_of (by decide), next_of (by decide), next_of (by decide)⟩

/-- `hub` with the modifier 11, the length of buffer 0. -/
def hubLong : State := dagPut hub .m 1 11#32

theorem witness_CircularPreconditionFaults :
    (Instr.ldDmPostm (.data (rx 0)) 0 1 .nw).shape = .access ⟨.dm, 0, .post, .reg 1, .load (.data (rx 0)) .nw⟩ ∧
      Passes (.ldDmPostm (.data (rx 0)) 0 1 .nw) hubLong ∧
      (∃ s1, move ⟨.dm, 0, .post, .reg 1, .load (.data (rx 0)) .nw⟩
        (accessAddress hubLong ⟨.dm, 0, .post, .reg 1, .load (.data (rx 0)) .nw⟩) (clearLatency hubLong) = .ok s1) ∧
      ¬Updatable hubLong 0 (modifierValue hubLong (.reg 1)) (hubLong.mode1.getLsbD 24) :=
  ⟨rfl, rfl, ⟨_, rfl⟩, fun h => absurd (h rfl (by decide)) (by unfold CircReq; decide +kernel)⟩

/-- `hub` with a write of SRD1L in flight. -/
def hubLatency : State := { hub with mode1Changed := 0x10#32 }

/-- The SIMD clause, the latency clause at the last register of the group and past it, and a statement that passes. -/
theorem witness_CheckIsTheSpecs :
    ((Instr.ldDmPost6 (rx 4) 1 0#6).illFormed = none ∧ (hubMode 0x00200000#32).mode1.getLsbD 21 = true ∧
        SimdOpen (.ldDmPost6 (rx 4) 1 0#6) (hubMode 0x00200000#32)) ∧
      ((Instr.ldiUreg (.dag .m 3) 9#32).illFormed = none ∧ hubLatency.mode1.getLsbD 21 = false ∧
        LatencyDepends (.ldiUreg (.dag .m 3) 9#32) hubLatency.mode1Changed) ∧
      Passes (.ldiUreg (.dag .m 4) 9#32) hubLatency ∧ Passes .nop hubLatency :=
  ⟨⟨rfl, rfl, .inr (.inr (.inl ⟨_, _, _, rfl, rfl, by unfold Broadcast; decide⟩))⟩,
    ⟨rfl, rfl, .inl ⟨rfl, 3, by decide, .inr (.inr (.inr (.inr (.inl ⟨_, _, rfl⟩))))⟩⟩, rfl, rfl⟩

theorem witness_LatencyLastsOneStatement : (∃ t, exec .nop hubLatency = .next t) ∧ (∀ n, Instr.nop ≠ .bitsetMode1 n) ∧
    Instr.nop ≠ .pushSts ∧ ¬WritesSystem .nop .mode1 ∧ WritesSystem (.ldiUreg (.system .mode1) 1#32) .mode1 :=
  ⟨next_of (by decide), nofun, nofun, fun h => (by rcases h with ⟨_, _, h, -⟩ | ⟨_, h⟩ | ⟨_, h⟩ <;> cases h), .inr (.inl ⟨_, rfl⟩)⟩

/-- `hub` where addresses up to 0x5500B are in space 1 and up to 0x2000 admitted. -/
def hubMap : State :=
  { hub with plat := { Platform.default with spaces := [⟨0, 0x5500B, 1⟩], admits := [⟨.pm, .nw, 0, 0x2000⟩, ⟨.pm, .lw, 0, 0x2000⟩] } }

/-- Each clause of MemoryStops; the last address admitted and the one after it. -/
theorem witness_MemoryStops :
    (Passes (.ldDmPrem (.data (rx 0)) 1 0 .nw) hubMap ∧
        sameSpace hubMap (dagRead hubMap .i 0) (trunc32 ((dagRead hubMap .i 0).toNat + modifierValue hubMap (.reg 1))) = false) ∧
      (Passes (.stDmPostm 0 1 (.data (rx 0)) .nw) hubMap ∧ Known hubMap (.data (rx 0)) ∧
        admitted hubMap .dm .nw (accessAddress hubMap ⟨.dm, 0, .post, .reg 1, .store (.data (rx 0)) .nw⟩) = false) ∧
      (admitted hubMap .pm .nw 0x2000#32 = true ∧ admitted hubMap .pm .nw 0x2001#32 = false) ∧
      (Passes (.ldPmPre32 (.data (rx 0)) 2#32 0 .nw) hub ∧
        admitted hub .pm .nw (accessAddress hub ⟨.pm, 8, .pre, .imm32 2#32, .load (.data (rx 0)) .nw⟩) = true ∧
        ∃ c ∈ cellsOf hub .nw (accessAddress hub ⟨.pm, 8, .pre, .imm32 2#32, .load (.data (rx 0)) .nw⟩), cellRead hub.mem c.toNat = none) :=
  ⟨⟨rfl, rfl⟩, ⟨rfl, known_data _ _, rfl⟩, ⟨rfl, rfl⟩, rfl, rfl, _, .head _, rfl⟩

/-- `hub` with the PM bus admitted nowhere. -/
def hubDmOnly : State := { hub with plat := { Platform.default with admits := [⟨.dm, .nw, 0, 0xFFFFFFFF⟩] } }

/-- `hub` with length 1 in buffer 7 or in buffer 15: the modifier 1 is not below it. -/
def hubShort (n : RegNum) : State := dagPut hub .l n 1#32

/-- Each clause of DualMoveStops. -/
theorem witness_DualMoveStops :
    (Passes (.ldDual (rx 0) 7 0 (rx 1) 7 0) hubMap ∧ admitted hubMap .dm .nw (postAddress hubMap (dag1 7)) = false) ∧
      (Passes (.ldDual (rx 0) 3 0 (rx 1) 7 0) hub ∧ admitted hub .dm .nw (postAddress hub (dag1 3)) = true ∧
        cellRead hub.mem (postAddress hub (dag1 3)).toNat = none) ∧
      (Passes (.ldDual (rx 0) 7 0 (rx 1) 7 0) hubDmOnly ∧ admitted hubDmOnly .dm .nw (postAddress hubDmOnly (dag1 7)) = true ∧
        cellRead hubDmOnly.mem (postAddress hubDmOnly (dag1 7)).toNat = some 1#32 ∧
        admitted hubDmOnly .pm .nw (postAddress hubDmOnly (dag2 7)) = false) ∧
      (Passes (.ldDual (rx 0) 7 0 (rx 1) 3 0) hub ∧ cellRead hub.mem (postAddress hub (dag1 7)).toNat = some 1#32 ∧
        admitted hub .pm .nw (postAddress hub (dag2 3)) = true ∧ cellRead hub.mem (postAddress hub (dag2 3)).toNat = none) ∧
      (cellRead (hubShort 7).mem (postAddress (hubShort 7) (dag1 7)).toNat = some 1#32 ∧
        cellRead (hubShort 7).mem (postAddress (hubShort 7) (dag2 7)).toNat = some 2#32 ∧
        ¬Updatable (hubShort 7) (dag1 7) (dagRead (hubShort 7) .m (dag1 0)).toInt ((hubShort 7).mode1.getLsbD 24)) ∧
      ¬Updatable (hubShort 15) (dag2 7) (dagRead (hubShort 15) .m (dag2 0)).toInt ((hubShort 15).mode1.getLsbD 24) :=
  ⟨⟨rfl, rfl⟩, ⟨rfl, rfl, rfl⟩, ⟨rfl, rfl, rfl, rfl⟩, ⟨rfl, rfl, rfl, rfl⟩,
    ⟨rfl, rfl, fun h => absurd (h rfl (by decide)) (by unfold CircReq; decide +kernel)⟩,
    fun h => absurd (h rfl (by decide)) (by unfold CircReq; decide +kernel)⟩

/-- The name USTAT1, which `hub` does not have. -/
def noName : Ident := ascii "USTAT1"

/-- `hub` with no control register in UregSet. -/
def hubPlain : State := { hub with plat := { Platform.default with systemUregs := [] } }

/-- Each clause of UnknownRegisterIsRefused, post- and pre-modify. -/
theorem witness_UnknownRegisterIsRefused :
    Outside hub (.other noName) noName ∧ (Outside hubPlain (.system .mmask) (ascii "MMASK") ∧
        Passes (.ldiUreg (.system .mmask) 1#32) hubPlain) ∧
      ((Instr.ldDmPostm (.other noName) 0 1 .nw).shape = .access ⟨.dm, 0, .post, .reg 1, .load (.other noName) .nw⟩ ∧
        Passes (.ldDmPostm (.other noName) 0 1 .nw) hub ∧
        admitted hub .dm .nw (accessAddress hub ⟨.dm, 0, .post, .reg 1, .load (.other noName) .nw⟩) = true ∧
        cellRead hub.mem (accessAddress hub ⟨.dm, 0, .post, .reg 1, .load (.other noName) .nw⟩).toNat = some 5#32) ∧
      ((Instr.ldDmPrem (.other noName) 1 0 .nw).shape = .access ⟨.dm, 0, .pre, .reg 1, .load (.other noName) .nw⟩ ∧
        Passes (.ldDmPrem (.other noName) 1 0 .nw) hub ∧
        sameSpace hub (dagRead hub .i 0) (trunc32 ((dagRead hub .i 0).toNat + modifierValue hub (.reg 1))) = true ∧
        cellRead hub.mem (accessAddress hub ⟨.dm, 0, .pre, .reg 1, .load (.other noName) .nw⟩).toNat = some 6#32) ∧
      Passes (.stDmPostm 0 1 (.other noName) .nw) hub ∧ Passes (.stDmPrem 1 0 (.other noName) .nw) hub ∧
      Passes (.ldiUreg (.other noName) 1#32) hub ∧ Passes (.movUreg (.other noName) (.dag .i 0)) hub ∧
      Passes (.movUreg (.dag .i 0) (.other noName)) hub :=
  ⟨.inl ⟨rfl, by decide⟩, ⟨.inr ⟨.mmask, rfl, by decide, by decide⟩, rfl⟩, ⟨rfl, rfl, rfl, rfl⟩, ⟨rfl, rfl, rfl, rfl⟩, rfl, rfl, rfl, rfl, rfl⟩

theorem witness_IllFormedNeverRuns :
    (Instr.stDmPostm 1 2 (.dag .i 0) .nw).illFormed = some .sameDagStore ∧
      (Instr.ldDmPostm (.dag .l 2) 1 0 .nw).illFormed = some .sameDagLoad ∧
      (Instr.ldDmPostm (.data (rx 0)) 0 1 .lw).illFormed = some .longWordNonDag ∧
      decode Platform.default (ascii "DM(I1,M2)=I0;") = .ok (.stDmPostm 1 2 (.dag .i 0) .nw) ∧
      ({ hub with prog := [ascii "DM(I1,M2)=I0;"] } : State).prog[hub.pc]? = some (ascii "DM(I1,M2)=I0;") ∧ NoEvent hub :=
  ⟨by decide, by decide, by decide, by decide, rfl, .inl rfl⟩

/-- Both sides of each equivalence, at the register numbers 7 and 8 where the DAGs meet. -/
theorem witness_ForbiddenAccesses :
    ((Instr.stDmPostm 0 0 (.dag .m 7) .nw).illFormed = some .sameDagStore ∧ (Instr.stDmPostm 0 0 (.dag .m 8) .nw).illFormed = none) ∧
      ((Instr.stPmPostm 0 0 (.dag .m 8) .nw).illFormed = some .sameDagStore ∧
        (Instr.stPmPostm 0 0 (.dag .m 7) .nw).illFormed = none) ∧
      ((Instr.ldPmPostm (.dag .m 8) 0 0 .nw).illFormed = some .sameDagLoad ∧ (Instr.ldPmPrem (.dag .m 8) 0 0 .nw).illFormed = none) ∧
      ((Instr.ldPmPrem (.data (rx 0)) 0 0 .lw).illFormed = some .longWordNonDag ∧
        (Instr.ldPmPrem (.dag .m 8) 0 0 .lw).illFormed = none) := by
  decide

theorem witness_DecodeEncode : (Instr.stDmPostm 0 0 (.other astatName) .nw).spellable = true ∧
    (Instr.doUntil 11#32 (ascii "LOOP_1")).spellable = true ∧ (Instr.doUntil 11#32 (ascii "R1")).spellable = false := by decide

/-- The offset 31 is read as the row with the Data6, the offset 32 as itself; where Data6 is unsigned, 63 and 64. -/
theorem witness_CanonKeepsMeaning :
    (Instr.ldDmPre32 (.data (rx 0)) 31#32 0 .nw).canon hub.plat ≠ .ldDmPre32 (.data (rx 0)) 31#32 0 .nw ∧
    (Instr.ldDmPre32 (.data (rx 0)) 32#32 0 .nw).canon hub.plat = .ldDmPre32 (.data (rx 0)) 32#32 0 .nw ∧
    (Instr.ldDmPre32 (.data (rx 0)) 63#32 0 .nw).canon otherPlatform ≠ .ldDmPre32 (.data (rx 0)) 63#32 0 .nw ∧
    (Instr.ldDmPre32 (.data (rx 0)) 64#32 0 .nw).canon otherPlatform = .ldDmPre32 (.data (rx 0)) 64#32 0 .nw := by decide

/-- `hub` with one statement and one answer of `Core`. -/
def hubCore (text : String) (e : Option CoreEvent) : State := { hub with prog := [ascii text], core := [e] }

theorem witness_StepRunsDecoded :
    (hubCore "NOP;" none).prog[(hubCore "NOP;" none).pc]? = some (ascii "NOP;") ∧ decode Platform.default (ascii "NOP;") = .ok .nop ∧
      Instr.WellFormed .nop ∧ (hubCore "NOP;" none).core = none :: [] ∧ ({ hub with prog := [ascii "NOP;"] } : State).core = [] :=
  ⟨rfl, by decide, by decide, rfl, rfl⟩

/-- The end of the run with and without an event due, a text of no form, and an event of each group of R238's kinds. -/
theorem witness_StepAround :
    (hub.prog.length ≤ hub.pc ∧ ({ hub with core := [some ⟨.timer, 0⟩] } : State).prog.length ≤ hub.pc) ∧
      ((hubCore "HALT;" none).prog[hub.pc]? = some (ascii "HALT;") ∧ NoEvent (hubCore "HALT;" none) ∧
        decode Platform.default (ascii "HALT;") = .error .noSuchForm) ∧
      ((hubCore "NOP;" (some ⟨.cb7, 3⟩)).core = some ⟨.cb7, 3⟩ :: [] ∧
        (hubCore "NOP;" (some ⟨.cb7, 3⟩)).pc < (hubCore "NOP;" (some ⟨.cb7, 3⟩)).prog.length) ∧
      (hubCore "NOP;" (some ⟨.vectored, 3⟩)).core = some ⟨.vectored, 3⟩ :: [] ∧
        (hubCore "NOP;" (some ⟨.vectored, 3⟩)).pc < (hubCore "NOP;" (some ⟨.vectored, 3⟩)).prog.length :=
  ⟨⟨by decide, by decide⟩, ⟨rfl, .inr ⟨_, rfl⟩, by decide⟩, ⟨rfl, by decide⟩, rfl, by decide⟩

theorem witness_StepKeepsInvariant : State.inv { hub with prog := [ascii "DM(I0,M1)=R1;"] } = true ∧
    ∃ t, step { hub with prog := [ascii "DM(I0,M1)=R1;"] } = .next t :=
  ⟨by decide, step_of (by decide)⟩

theorem witness_ProgramIsFixed : (∃ t, step { hub with prog := [ascii "NOP;"] } = .next t) ∧
    ∃ t, step { hub with prog := [ascii "MMASK=1;"] } = .next t ∧ t.mmask ≠ hub.mmask := by
  refine ⟨step_of (by decide), _, rfl, ?_⟩
  decide

/-- A statement that writes STKYX, with no event of `Core` due, and one that does not. -/
theorem witness_statementWrites :
    StatementWrites { hub with prog := [ascii "STKYX=0;"] } .stkyx ∧ ¬StatementWrites { hub with prog := [ascii "NOP;"] } .stkyx := by
  refine ⟨⟨.inl rfl, _, .ldiUreg (.system .stkyx) 0#32, rfl, by decide, .inr (.inl ⟨_, rfl⟩)⟩, ?_⟩
  rintro ⟨-, text, i, h1, h2, h3⟩
  cases h1
  have : i = .nop := by
    have h : decode Platform.default (ascii "NOP;") = .ok .nop := by decide
    exact Except.ok.inj (h2.symm.trans h)
  subst this
  rcases h3 with ⟨_, _, h, -⟩ | ⟨_, h⟩ | ⟨_, h⟩ <;> cases h

/-- A flag that is set, and a request that an event of `Core` clears. -/
theorem witness_FlagsAreSticky :
    ((∃ t, step { hub with prog := [ascii "NOP;"], stkyx := 0x20000#32 } = .next t) ∧ (0x20000#32 : Word).getLsbD hub.plat.stkyCb7s = true) ∧
      ∃ t, step { hubCore "NOP;" (some ⟨.cb7, 0⟩) with irqCb7 := true } = .next t ∧ t.irqCb7 = false :=
  ⟨⟨step_of (by decide), by decide⟩, _, rfl, rfl⟩

/-- `hub` with another hidden copy of I0. -/
def hubHidden : State := { hub with alt := { hub.alt with i := hub.alt.i.set 0 1#32 } }

theorem hub_sameButHidden : SameButHidden hub hubHidden := by
  have h : ∀ n, altSelected hub n = false := by decide
  refine ⟨fun ty n => ?_, rfl⟩
  have h' : altSelected hubHidden n = false := h n
  unfold dagRead
  rw [h', h n]
  rfl

theorem witness_HiddenCopiesAreInert :
    SameButHidden hub hubHidden ∧ (∃ t, exec (.ldDmPostm (.data (rx 0)) 0 1 .nw) hub = .next t) ∧
      exec (.ldDmPostm (.data (rx 0)) 0 1 .nw) hubLong = .fault .circularPrecondition ∧
      exec (.doUntil 1#32 []) hub = .refused .loopNotSpecified ∧ ∃ t, exec (.bitsetMode1 0x10#32) hub = .next t :=
  ⟨hub_sameButHidden, next_of (by decide), rfl, rfl, next_of (by decide)⟩

theorem witness_Mode1Writers :
    (∃ t, step { hub with prog := [ascii "BIT SET MODE1 BR0;"] } = .next t ∧ t.mode1 ≠ hub.mode1) ∧
      (∃ t, step { hub with prog := [ascii "PUSH STS;"], mmask := cb } = .next t ∧ t.mode1 ≠ hub.mode1) ∧
      (∃ t, step { hub with prog := [ascii "MODE1=1;"] } = .next t ∧ t.mode1 ≠ hub.mode1) ∧
      ∃ t, step { hubCore "NOP;" (some ⟨.timer, 0⟩) with mmask := cb } = .next t ∧ t.mode1 ≠ hub.mode1 := by
  refine ⟨⟨_, rfl, ?_⟩, ⟨_, rfl, ?_⟩, ⟨_, rfl, ?_⟩, ⟨_, rfl, ?_⟩⟩ <;> decide

theorem witness_PcAdvances : ∃ t, exec .nop hub = .next t := next_of (by decide)

/-- Every form that writes a B register; the partner of a long word; a change in the primary and in the alternate copy. -/
theorem witness_BaseWritesIndex :
    WritesBase (.ldiUreg (.dag .b 3) 1#32) 3 ∧ WritesBase (.movUreg (.dag .b 3) (.dag .i 0)) 3 ∧
      WritesBase (.ldPmPostm (.dag .b 1) 0 0 .lw) 0 ∧
      (∃ t, exec (.ldiUreg (.dag .b 3) 1#32) hub = .next t ∧ bankRead t.prim .b 3 ≠ bankRead hub.prim .b 3) ∧
      (∃ t, exec (.ldiUreg (.dag .b 3) 1#32) (hubMode 0x10#32) = .next t ∧ bankRead t.alt .b 3 ≠ bankRead hub.alt .b 3) ∧
      (∃ t, exec (.movUreg (.dag .b 3) (.dag .i 0)) hub = .next t) ∧ ∃ t, exec (.ldPmPostm (.dag .b 1) 0 0 .lw) hub = .next t :=
  ⟨.inl ⟨_, rfl⟩, .inr (.inl ⟨_, rfl⟩), .inr (.inr ⟨_, 1, _, rfl, rfl, .inr ⟨rfl, rfl⟩⟩), ⟨_, rfl, by decide⟩, ⟨_, rfl, by decide⟩,
    next_of (by decide), next_of (by decide)⟩

theorem witness_IndexLoadKeepsBase : DagType.i ≠ .b ∧ DagType.l ≠ .b ∧ DagType.m ≠ .b := by decide

/-- MODE1 and the same word with one bit flipped. -/
theorem agree_flip (k : Nat) (m : Word) (bits : List Nat) (h : k ∈ bits) :
    AgreeOutside bits (m ^^^ bitMask k) m := by
  intro j hj
  have hne : j ≠ k := fun e => hj (e ▸ h)
  have : (bitMask k).getLsbD j = false := by
    simp only [bitMask, BitVec.getLsbD_shiftLeft, BitVec.getLsbD_one]
    by_cases hlt : j < k
    · simp [hlt]
    · have : j - k ≠ 0 := by omega
      simp [this]
  rw [BitVec.getLsbD_xor, this, Bool.xor_false]

theorem witness_SimdKeepsAddressing : AgreeOutside [21] (hub.mode1 ^^^ bitMask 21) hub.mode1 :=
  agree_flip 21 _ _ (by decide)

theorem witness_DataReadsAreUnreversed : AgreeOutside [0, 1] (hub.mode1 ^^^ bitMask 1) hub.mode1 ∧
    (∃ t, exec (.movUreg (.dag .i 5) (.dag .i 0)) { hub with mode1 := hub.mode1 ^^^ bitMask 1 } = .next t) ∧
    (∃ t, exec (.movUreg (.data (rx 5)) (.dag .i 0)) { hub with mode1 := hub.mode1 ^^^ bitMask 1 } = .next t) ∧
    (∃ t, exec (.movUreg (.other astatName) (.dag .i 0)) { hub with mode1 := hub.mode1 ^^^ bitMask 1 } = .next t) ∧
    ∃ t, exec (.movUreg (.system .mode1) (.dag .i 0)) { hub with mode1 := hub.mode1 ^^^ bitMask 1 } = .next t :=
  ⟨agree_flip 1 _ _ (by decide), next_of (by decide), next_of (by decide), next_of (by decide), next_of (by decide)⟩

theorem witness_BroadcastChangesOnlyDataLoads :
    (AgreeOutside [22, 23] (hub.mode1 ^^^ bitMask 23) hub.mode1 ∧ ¬LoadsDataThrough (.stDmPostm 1 0 (.data (rx 5)) .nw) 1 ∧
        ¬LoadsDataThrough (.stDmPostm 1 0 (.data (rx 5)) .nw) 9) ∧
      (¬ReadsSystem (.stDmPostm 1 0 (.data (rx 5)) .nw) .mode1 ∧ ¬WritesSystem (.stDmPostm 1 0 (.data (rx 5)) .nw) .mode1) ∧
      (WritesSystem (.ldiUreg (.system .mode1) 1#32) .mode1 ∧ ¬ReadsSystem (.ldiUreg (.system .mode1) 1#32) .mode1) ∧
      (AgreeOutside [21] (0x00C00000#32 ^^^ bitMask 21) (hubMode 0x00C00000#32).mode1 ∧
        (∃ x d w, (Instr.ldDmPost6 (rx 4) 1 0#6).shape = .access x ∧ x.xfer = .load (.data d) w ∧
          Broadcast (hubMode 0x00C00000#32) x.idx) ∧
        ∃ r1 a b r2 c d, (Instr.ldDual (rx 0) 1 0 (rx 1) 1 0).shape = .dual r1 a b r2 c d ∧
          Broadcast (hubMode 0x00C00000#32) a ∧ Broadcast (hubMode 0x00C00000#32) c) := by
  refine ⟨⟨agree_flip 23 _ _ (by decide), ?_, ?_⟩, ⟨?_, ?_⟩, ⟨.inr (.inl ⟨_, rfl⟩), ?_⟩, agree_flip 21 _ _ (by decide), ⟨_, _, _, rfl, rfl, ?_⟩,
    _, _, _, _, _, _, rfl, ?_, ?_⟩
  · rintro (⟨x, d, w, hs, -, hx⟩ | ⟨_, _, _, _, _, _, hs, -⟩)
    · cases hs; cases hx
    · cases hs
  · rintro (⟨x, d, w, hs, -, hx⟩ | ⟨_, _, _, _, _, _, hs, -⟩)
    · cases hs; cases hx
    · cases hs
  · rintro (⟨x, w, hs, hx⟩ | ⟨u, h⟩)
    · cases hs; cases hx
    · cases h
  · rintro (⟨x, w, hs, hx⟩ | ⟨v, h⟩ | ⟨u, h⟩)
    · cases hs; cases hx
    · cases h
    · cases h
  · rintro (⟨x, w, hs, hx⟩ | ⟨u, h⟩)
    · cases hs
    · cases h
  all_goals unfold Broadcast; decide

theorem witness_ModifyAndBitrevIgnoreModes :
    (∃ n m, (Instr.modifyMDag1 0 1).shape = .modify n m) ∧ (∃ n v, (Instr.bitrevDag1 0 0#32).shape = .bitrev n v) ∧
      ∀ k, k = 3 ∨ k = 4 ∨ k = 5 ∨ k = 6 → (0x00E00003#32 : Word).getLsbD k = hub.mode1.getLsbD k := by
  refine ⟨⟨_, _, rfl⟩, ⟨_, _, rfl⟩, ?_⟩
  rintro k (rfl | rfl | rfl | rfl) <;> rfl

end Sys2Proof.Tests
end

section
/-! What a DAG register write leaves unchanged (rule R25). -/

namespace Sys2Proof.Machine

/-- A write of a DAG register changes no field of the state but the two banks. -/
theorem dagWrite_eq_banks (s : State) (t : DagType) (n : RegNum) (v : Word) :
    dagWrite s t n v = { s with prim := (dagWrite s t n v).prim, alt := (dagWrite s t n v).alt } := by
  cases t <;> rfl

/-- A write of an I, L or M register changes, of the selected registers, that one alone (R25). -/
theorem dagRead_dagWrite_of_ne {t t' : DagType} {n n' : RegNum} (s : State) (v : Word) (ht : t ≠ .b)
    (h : t' ≠ t ∨ n' ≠ n) : dagRead (dagWrite s t n v) t' n' = dagRead s t' n' := by
  have hne : ¬(n' = n ∧ (t' = t ∨ (t = .b ∧ t' = .i))) := by
    rintro ⟨hn, ht' | ⟨hb, -⟩⟩
    · exact h.elim (· ht') (· hn)
    · exact ht hb
  rw [dagRead_dagWrite, if_neg hne]

/-- Settles O51: the register written holds the value, and every other register, selected or hidden, and every other field
is as it was. -/
theorem indexLoadKeepsBase : Obligations.IndexLoadKeepsBase := by
  intro ty n v s hty
  have hsame : dagRead (dagWrite s ty n v) ty n = v := by simp [dagRead_dagWrite]
  exact ⟨hsame, fun _ _ h => dagRead_dagWrite_of_ne s v hty h, fun _ _ => dagHidden_dagWrite s _ _ _ _ v,
    dagWrite_eq_banks s ty n v⟩

end Sys2Proof.Machine
end

section
/-! Bit reversal (rule R110). -/

namespace Sys2Proof.Machine

/-- Bit k of the reversed word is bit 31 - k (R110). -/
theorem rev32_getLsbD (v : Word) {k : Nat} (hk : k < 32) : (rev32 v).getLsbD k = v.getLsbD (31 - k) := by
  rw [rev32, BitVec.getLsbD_reverse, BitVec.getMsbD_eq_getLsbD]
  simp [hk]

theorem rev32_rev32 (v : Word) : rev32 (rev32 v) = v := BitVec.reverse_reverse_eq

/-- A word with the bits of `v` in reverse order is `rev32 v`. -/
theorem rev32_eq_of_bits {v w : Word} (h : ∀ k : Fin 32, v.getLsbD (31 - k.val) = w.getLsbD k.val) : rev32 v = w :=
  BitVec.eq_of_getLsbD_eq fun k hk => (rev32_getLsbD v hk).trans (h ⟨k, hk⟩)

/-- Settles O53: each of the source's pairs is checked bit by bit in one direction; the other direction is the involution. -/
theorem bitReversal : Obligations.BitReversal := by
  have hpair : rev32 0x0008A000#32 = 0x00051000#32 := rev32_eq_of_bits (by decide)
  have hpair' : rev32 0x0408A000#32 = 0x00051020#32 := rev32_eq_of_bits (by decide)
  refine ⟨fun v _ hk => rev32_getLsbD v hk, rev32_rev32, hpair, ?_, hpair', ?_⟩
  · rw [← hpair, rev32_rev32]
  · rw [← hpair', rev32_rev32]

end Sys2Proof.Machine
end

section
/-! What address generation reads of MODE1: the copy-selection bits (R22), BR0 and BR8 (R118), and for a post-modify update
CBUFEN (R114). Two values of MODE1 that agree on these bits give the same address, modifier value and index update. -/

namespace Sys2Proof.Machine

open Sys2Proof.Claims

section SameCopies

variable {s : State} {p : Word} (hsel : ∀ n, altSelected { s with mode1 := p } n = altSelected s n)
include hsel

theorem dagRead_of_altSelected (t : DagType) (n : RegNum) : dagRead { s with mode1 := p } t n = dagRead s t n := by
  simp only [dagRead, hsel]

theorem modifierValue_of_altSelected (m : Modifier) : modifierValue { s with mode1 := p } m = modifierValue s m := by
  cases m with
  | reg k => simp only [modifierValue, dagRead_of_altSelected hsel]
  | imm6 k => rfl
  | imm32 n => rfl

theorem linearIndex_of_altSelected (n : RegNum) (m : Int) :
    linearIndex { s with mode1 := p } n m = linearIndex s n m := by
  simp only [linearIndex, dagRead_of_altSelected hsel]

/-- The update reads I, L and B; CBUFEN is its argument `en`. -/
theorem indexUpdate_of_altSelected (n : RegNum) (m : Int) (en : Bool) (c : Cause) :
    indexUpdate { s with mode1 := p } n m en c = indexUpdate s n m en c := by
  simp only [indexUpdate, dagRead_of_altSelected hsel, linearIndex_of_altSelected hsel]

/-- An address depends on the selected copies and on bit-reversed output of its index register. -/
theorem accessAddress_of_altSelected {x : Access} (hrev : bitReversed { s with mode1 := p } x.idx = bitReversed s x.idx) :
    accessAddress { s with mode1 := p } x = accessAddress s x := by
  have hout : ∀ a, outAddr { s with mode1 := p } x.idx a = outAddr s x.idx a := fun a => by rw [outAddr, outAddr, hrev]
  simp only [accessAddress, hout, dagRead_of_altSelected hsel, linearIndex_of_altSelected hsel,
    modifierValue_of_altSelected hsel]

end SameCopies

section AgreeingModes

variable {s : State} {p : Word} {bits : List Nat} (h : AgreeOutside bits p s.mode1)
include h

theorem mode1Bit_of_agreeOutside {k : Nat} (hk : k ∉ bits) : mode1Bit { s with mode1 := p } k = mode1Bit s k := h k hk

theorem altSelected_of_agreeOutside (hg : ∀ n, groupBit n ∉ bits) (n : RegNum) :
    altSelected { s with mode1 := p } n = altSelected s n := mode1Bit_of_agreeOutside h (hg n)

theorem bitReversed_of_agreeOutside (h0 : bitBr0 ∉ bits) (h8 : bitBr8 ∉ bits) (n : RegNum) :
    bitReversed { s with mode1 := p } n = bitReversed s n := by
  rw [bitReversed, bitReversed, mode1Bit_of_agreeOutside h h0, mode1Bit_of_agreeOutside h h8]

end AgreeingModes

/-- Settles O54: PEYEN, bit 21, is none of the bits that address generation reads. -/
theorem simdKeepsAddressing : Obligations.SimdKeepsAddressing := by
  intro s p h
  have hsel := altSelected_of_agreeOutside h (by decide)
  have hrev := bitReversed_of_agreeOutside h (by decide) (by decide)
  have hcb : cbufen { s with mode1 := p } = cbufen s := mode1Bit_of_agreeOutside h (by decide)
  refine ⟨fun x => accessAddress_of_altSelected hsel (hrev x.idx), modifierValue_of_altSelected hsel,
    fun n m c => ?_, fun n m c => indexUpdate_of_altSelected hsel n m true c⟩
  rw [hcb, indexUpdate_of_altSelected hsel]

end Sys2Proof.Machine
end

section
/-! NOP and DO.UNTIL (rules R189, R192), and the refusal of an ill-formed statement (rule R187). -/

namespace Sys2Proof.Machine

open Sys2Proof.Claims

/-- An instruction that is ill formed stops in every state: `Check` asks this first (R187). -/
theorem exec_of_illFormed {i : Instr} {w : IllFormed} (hw : i.illFormed = some w) (s : State) :
    exec i s = halt (stopOfIllFormed w) := by
  have hcheck : check i.shape s = some (stopOfIllFormed w) := by
    rw [Instr.illFormed] at hw
    simp only [check, hw]
  rw [exec_eq]
  simp only [statement, hcheck]

/-- An ill-formed current statement is refused by name. -/
theorem runStatement_of_illFormed {s : State} {text : List Byte} {i : Instr} {w : IllFormed}
    (ht : s.prog[s.pc]? = some text) (hi : decode s.plat text = .ok i) (hw : i.illFormed = some w) :
    runStatement s = .refused (.illFormed w) := by
  simp only [runStatement, fetchText, ht, hi, hw]

/-- With no event of `Core` due, a step at a statement of the program runs it, one answer "none" of `Core` used up if there
is one (R4, R34). -/
theorem step_of_noEvent {s : State} {text : List Byte} (hc : NoEvent s) (ht : s.prog[s.pc]? = some text) :
    ∃ rest, step s = runStatement { s with core := rest } := by
  rcases hc with hnil | ⟨rest, hnone⟩
  · refine ⟨s.core, ?_⟩
    have hstep : step s = runStatement s := by simp only [step, fetchText, ht, hnil]
    exact hstep
  · refine ⟨rest, ?_⟩
    simp only [step, fetchText, ht, hnone]

/-- A step refuses an ill-formed statement by name. -/
theorem step_of_illFormed {s : State} {text : List Byte} {i : Instr} {w : IllFormed} (hc : NoEvent s)
    (ht : s.prog[s.pc]? = some text) (hi : decode s.plat text = .ok i) (hw : i.illFormed = some w) :
    step s = .refused (.illFormed w) := by
  obtain ⟨rest, hstep⟩ := step_of_noEvent hc ht
  exact hstep.trans (runStatement_of_illFormed ht hi hw)

/-- Settles O17: NOP passes `Check` in every state, and its effect on the state with no MODE1 write in flight advances pc. -/
theorem nopCompletes : Obligations.NopCompletes := by
  intro s
  obtain ⟨-, hcheck, -, -⟩ := check_plain s 0
  exact exec_eq_next.2 ⟨hcheck, rfl⟩

/-- Settles O20: a loop statement is ill formed (R187), so its meaning stops at `Check` and a step refuses it. -/
theorem doUntilIsRefused : Obligations.DoUntilIsRefused := by
  intro n l s text
  have hloop : (Instr.doUntil n l).illFormed = some .loopStatement := rfl
  exact ⟨exec_of_illFormed hloop s, fun hc ht hi => step_of_illFormed hc ht hi hloop⟩

end Sys2Proof.Machine
end

section
/-! Decoding the text the encoder writes (rules R91 to R97). -/

namespace Sys2Proof

/-- Every instruction's items can be written and parse as its row or, where one text has two rows, as its `canon`. -/
theorem Laws.Encoding.statement (i : Instr) : Laws.Encoding.Statement i := by
  cases i with
  | stDmPostm a b u w => exact stDmPostm a b u w
  | stPmPostm c d u w => exact stPmPostm c d u w
  | ldDmPostm u a b w => exact ldDmPostm u a b w
  | ldPmPostm u c d w => exact ldPmPostm u c d w
  | stiDmPostm a b n => exact stiDmPostm a b n
  | stiPmPostm c d n => exact stiPmPostm c d n
  | stDmPost6 a k r => exact stDmPost6 a k r
  | stPmPost6 c k r => exact stPmPost6 c k r
  | ldDmPost6 r a k => exact ldDmPost6 r a k
  | ldPmPost6 r c k => exact ldPmPost6 r c k
  | stDmPrem b a u w => exact stDmPrem b a u w
  | stPmPrem d c u w => exact stPmPrem d c u w
  | ldDmPrem u b a w => exact ldDmPrem u b a w
  | ldPmPrem u d c w => exact ldPmPrem u d c w
  | stDmPre6 k a r => exact stDmPre6 k a r
  | stPmPre6 k c r => exact stPmPre6 k c r
  | ldDmPre6 r k a => exact ldDmPre6 r k a
  | ldPmPre6 r k c => exact ldPmPre6 r k c
  | ldDmPre32 u n a w => exact ldDmPre32 u n a w
  | ldPmPre32 u n c w => exact ldPmPre32 u n c w
  | stDmPre32 n a u w => exact stDmPre32 n a u w
  | stPmPre32 n c u w => exact stPmPre32 n c u w
  | modifyMDag1 a b => exact modifyMDag1 a b
  | modifyMDag2 c d => exact modifyMDag2 c d
  | modifyIDag1 a n => exact modifyIDag1 a n
  | modifyIDag2 c n => exact modifyIDag2 c n
  | bitrevDag1 a n => exact bitrevDag1 a n
  | bitrevDag2 c n => exact bitrevDag2 c n
  | ldDual r1 a b r2 c d => exact ldDual r1 a b r2 c d
  | ldiUreg u n => exact ldiUreg u n
  | movUreg u1 u2 => exact movUreg u1 u2
  | bitsetMode1 n => exact bitsetMode1 n
  | nop => exact nop
  | bittstStkyx n => exact bittstStkyx n
  | pushSts => exact pushSts
  | doUntil n l => exact doUntil n l

/-- A text whose tokens read as `its` decodes to the row of the shape that `its` parse as. -/
theorem decode_of_lex {p : Platform} {text : List Byte} {ts : List Token} {its : List Item}
    {r : Except DecodeError Instr} (hlex : lex .idle text = .ok ts) (hits : ts.map itemOf = its)
    (hrow : (parseStatement p its).map Shape.row = some r) : decode p text = r := by
  obtain ⟨sh, hparse, rfl⟩ := Option.map_eq_some_iff.1 hrow
  simp only [decode, hlex, hits, hparse]

/-- Settles O37: the lexer reads the text back as the items written, and the items parse as the row of `canon`. -/
theorem decodeEncode : Obligations.DecodeEncode := by
  intro p i hi
  obtain ⟨hwritable, hrow, -⟩ := Laws.Encoding.statement i p
  obtain ⟨ts, hlex, hits⟩ := lex_items (i.shape.items p) (hwritable hi)
  exact decode_of_lex hlex hits hrow

end Sys2Proof
end

section
/-! What every statement and every step keep: the program, the platform, the names of the other universal registers and the
form of memory; and what can change MODE1, STKYX, MMASK and the requests (rules R28 to R35, R77). -/

namespace Sys2Proof.Machine

open Sys2Proof.Claims

/-- What no part of a statement changes, a write of a control register included. -/
structure Kept (s t : State) : Prop where
  prog : t.prog = s.prog
  plat : t.plat = s.plat
  core : t.core = s.core
  names : t.others.map Prod.fst = s.others.map Prod.fst
  memory : Memory.wf s.mem = true → Memory.wf t.mem = true

theorem Kept.trans {s t u : State} (h : Kept s t) (k : Kept t u) : Kept s u where
  prog := k.prog.trans h.prog
  plat := k.plat.trans h.plat
  core := k.core.trans h.core
  names := k.names.trans h.names
  memory hm := k.memory (h.memory hm)

theorem Quiet.kept {s t : State} (h : Quiet s t) : Kept s t := ⟨h.prog, h.plat, h.core, h.names, h.memory⟩

theorem kept_clearLatency (s : State) : Kept s (clearLatency s) := ⟨rfl, rfl, rfl, rfl, id⟩

theorem kept_advance (s : State) : Kept s (advance s) := ⟨rfl, rfl, rfl, rfl, id⟩

theorem kept_systemWrite (s : State) (r : SystemReg) (v : Word) : Kept s (systemWrite s r v) := by
  constructor <;> simp

theorem kept_writeMode1 (s : State) (v : Word) : Kept s (writeMode1 s v) := ⟨rfl, rfl, rfl, rfl, id⟩

/-- Every instruction keeps the program, the platform, the answers of `Core`, the set of registers and the form of memory. -/
theorem exec_kept {i : Instr} {s t : State} (h : exec i s = .next t) : Kept s t := by
  refine (kept_clearLatency s).trans ?_
  rcases exec_next h with ⟨-, -, u, hq, rfl⟩ | ⟨r, v, q, -, ⟨-, hq, rfl⟩ | ⟨-, hq, rfl⟩⟩ | ⟨n, -, rfl⟩ | ⟨-, rfl⟩
  · exact hq.kept.trans (kept_advance _)
  · exact (hq.kept.trans (kept_systemWrite _ _ _)).trans (kept_advance _)
  · exact ((kept_systemWrite _ _ _).trans hq.kept).trans (kept_advance _)
  · exact (kept_writeMode1 _ _).trans (kept_advance _)
  · exact (kept_writeMode1 _ _).trans (kept_advance _)

/-- What every step keeps: a step uses up an answer of `Core` and is an event or an instruction. -/
theorem step_keeps {s t : State} (h : step s = .next t) :
    t.prog = s.prog ∧ t.plat = s.plat ∧ t.others.map Prod.fst = s.others.map Prod.fst ∧
      (Memory.wf s.mem = true → Memory.wf t.mem = true) := by
  rcases step_next h with ⟨e, rest, -, -, rfl⟩ | ⟨text, i, rest, -, -, -, -, hexec⟩
  · exact ⟨rfl, rfl, rfl, id⟩
  · obtain ⟨hprog, hplat, -, hnames, hmem⟩ := exec_kept hexec
    exact ⟨hprog, hplat, hnames, hmem⟩

theorem inv_iff {s : State} : s.inv = true ↔
    Memory.wf s.mem = true ∧ (s.others.map Prod.fst).Nodup ∧ s.plat.stkyCb7s ≠ s.plat.stkyCb15s := by
  simp only [State.inv, Bool.and_eq_true, decide_eq_true_eq, and_assoc]

/-- Settles O42: the invariant speaks of memory, the names of the other universal registers and the platform, all of which
every step keeps. -/
theorem stepKeepsInvariant : Obligations.StepKeepsInvariant := by
  intro s t hinv hstep
  obtain ⟨hmem, hnodup, hflags⟩ := inv_iff.1 hinv
  obtain ⟨-, hplat, hnames, hkeep⟩ := step_keeps hstep
  refine inv_iff.2 ⟨hkeep hmem, ?_, ?_⟩
  · rwa [hnames]
  · rwa [hplat]

/-- Settles O43. -/
theorem resetMeetsInvariant : Obligations.ResetMeetsInvariant :=
  inv_iff.2 ⟨rfl, by decide, by decide⟩

/-- Settles O49: pc is no part of a quiet change or a control register. -/
theorem pcAdvances : Obligations.PcAdvances := by
  intro i s t h
  rcases exec_next h with ⟨-, -, u, hq, rfl⟩ | ⟨r, v, q, -, ⟨-, hq, rfl⟩ | ⟨-, hq, rfl⟩⟩ | ⟨n, -, rfl⟩ | ⟨-, rfl⟩
  · simp [hq.pc]
  · simp [hq.pc]
  · simp [hq.pc]
  · rfl
  · rfl

/-- A statement whose Ureg destination is a control register writes it (R241). -/
theorem writesSystem_of_systemDest {i : Instr} {r : SystemReg} (h : systemDest i.shape = some r) : WritesSystem i r := by
  generalize hs : i.shape = sh at h
  unfold systemDest systemLoaded at h
  split at h
  · split at h
    · rename_i x _ _ _ hx
      cases h
      exact .inl ⟨_, _, hs, hx⟩
    · cases h
  · cases h
    exact .inr (.inl ⟨_, shape_ldi hs⟩)
  · cases h
    exact .inr (.inr ⟨_, shape_mov hs⟩)
  · cases h

/-- A statement that writes a control register has it as its Ureg destination. -/
theorem systemDest_of_writesSystem {i : Instr} {r : SystemReg} (h : WritesSystem i r) : systemDest i.shape = some r := by
  rcases h with ⟨x, w, hs, hx⟩ | ⟨v, rfl⟩ | ⟨u, rfl⟩
  · simp only [hs, systemDest, systemLoaded, hx]
  · rfl
  · rfl

/-- An instruction that does not write MODE1 leaves it, with no write of it in flight (R37). -/
theorem exec_mode1_kept {i : Instr} {s t : State} (h : exec i s = .next t) (hb : ∀ n, i ≠ .bitsetMode1 n)
    (hp : i ≠ .pushSts) (hw : ¬WritesSystem i .mode1) : t.mode1 = s.mode1 ∧ t.mode1Changed = 0#32 := by
  rcases exec_next h with ⟨-, -, u, hq, rfl⟩ | ⟨r, v, q, hd, ⟨-, hq, rfl⟩ | ⟨-, hq, rfl⟩⟩ | ⟨n, hi, -⟩ | ⟨hi, -⟩
  · exact ⟨hq.mode1, hq.mode1Changed⟩
  · have hr : r ≠ .mode1 := fun hr => hw (writesSystem_of_systemDest (hr ▸ hd))
    simp [systemWrite_mode1_other _ _ _ hr, systemWrite_mode1Changed_other _ _ _ hr, hq.mode1, hq.mode1Changed]
  · exact ⟨hq.mode1, hq.mode1Changed⟩
  · exact absurd hi (hb n)
  · exact absurd hi hp

/-- Settles O31. -/
theorem latencyLastsOneStatement : Obligations.LatencyLastsOneStatement := by
  intro i s t h hb hp hw
  exact (exec_mode1_kept h hb hp hw).symm

/-- An instruction that does not write MMASK as its Ureg leaves it (R31). -/
theorem exec_mmask_kept {i : Instr} {s t : State} (h : exec i s = .next t) (hw : ¬WritesSystem i .mmask) :
    t.mmask = s.mmask := by
  rcases exec_next h with ⟨-, -, u, hq, rfl⟩ | ⟨r, v, q, hd, ⟨-, hq, rfl⟩ | ⟨-, hq, rfl⟩⟩ | ⟨n, -, rfl⟩ | ⟨-, rfl⟩
  · exact hq.mmask
  · have hr : r ≠ .mmask := fun hr => hw (writesSystem_of_systemDest (hr ▸ hd))
    simp [systemWrite_mmask_other _ _ _ hr, hq.mmask]
  · exact hq.mmask
  · rfl
  · rfl

/-- `Core` has no event at a boundary whose answer, if there is one, is none. -/
theorem noEvent_of_rest {s : State} {rest : List (Option CoreEvent)}
    (h : rest = s.core ∧ rest = [] ∨ s.core = none :: rest) : NoEvent s :=
  h.imp (fun ⟨hc, hnil⟩ => hc ▸ hnil) fun hc => ⟨rest, hc⟩

/-- Settles O45. -/
theorem programIsFixed : Obligations.ProgramIsFixed := by
  intro s t h
  obtain ⟨hprog, hplat, hnames, -⟩ := step_keeps h
  refine ⟨hprog, hplat, hnames, fun hne => ?_⟩
  rcases step_next h with ⟨e, rest, -, -, rfl⟩ | ⟨text, i, rest, ht, hi, -, hc, hexec⟩
  · exact absurd rfl hne
  · by_cases hw : WritesSystem i .mmask
    · exact ⟨noEvent_of_rest hc, text, i, ht, hi, hw⟩
    · exact absurd (exec_mmask_kept hexec hw) hne

/-- Only the kinds of R238 clear CBUFEN. -/
theorem clearsCbufen_iff (k : EventKind) : k.clearsCbufen = true ↔ k = .external ∨ k = .timer ∨ k = .vectored := by
  cases k <;> decide

/-- Settles O48: an event of `Core` changes MODE1 on the kinds of R238 alone, and an instruction if it is one of the three
that write it. -/
theorem mode1Writers : Obligations.Mode1Writers := by
  intro s t h hne
  rcases step_next h with ⟨e, rest, -, hc, rfl⟩ | ⟨text, i, rest, ht, hi, -, hc, hexec⟩
  · refine .inl ⟨e, rest, hc, (clearsCbufen_iff e.kind).1 ?_⟩
    by_contra hk
    exact hne (by simp [hk])
  · refine .inr ?_
    by_contra hno
    have hw : ¬WritesSystem i .mode1 := fun hw => hno (.inl ⟨noEvent_of_rest hc, text, i, ht, hi, hw⟩)
    have hb : ∀ n, i ≠ .bitsetMode1 n := fun n hb => hno (.inr ⟨text, i, ht, hi, .inl ⟨n, hb⟩⟩)
    have hp : i ≠ .pushSts := fun hp => hno (.inr ⟨text, i, ht, hi, .inr hp⟩)
    exact hne (exec_mode1_kept hexec hb hp hw).1

/-- What a change does to STKYX and the requests when it writes no control register: it clears no bit of STKYX, sets no bit
but the flags, and raises a request only beside its flag (R120). -/
theorem exec_status {i : Instr} {s t : State} (h : exec i s = .next t) :
    (¬WritesSystem i .stkyx → (∀ k, s.stkyx.getLsbD k = true → t.stkyx.getLsbD k = true) ∧
        ∀ k : Nat, k ≠ s.plat.stkyCb7s → k ≠ s.plat.stkyCb15s → t.stkyx.getLsbD k = s.stkyx.getLsbD k) ∧
      (t.irqCb7 = true → s.irqCb7 = true ∨ t.stkyx.getLsbD s.plat.stkyCb7s = true) ∧
      (t.irqCb15 = true → s.irqCb15 = true ∨ t.stkyx.getLsbD s.plat.stkyCb15s = true) ∧
      (s.irqCb7 = true → t.irqCb7 = true) ∧ (s.irqCb15 = true → t.irqCb15 = true) := by
  rcases exec_next h with ⟨-, -, u, hq, rfl⟩ | ⟨r, v, q, hd, ⟨hr, hq, rfl⟩ | ⟨rfl, hq, rfl⟩⟩ | ⟨n, -, rfl⟩ | ⟨-, rfl⟩
  · exact ⟨fun _ => ⟨hq.sticky, hq.flags⟩, hq.raise7, hq.raise15, hq.keep7, hq.keep15⟩
  · simp only [advance_stkyx, advance_irqCb7, advance_irqCb15, systemWrite_stkyx_other _ _ _ hr, systemWrite_irqCb7,
      systemWrite_irqCb15]
    exact ⟨fun _ => ⟨hq.sticky, hq.flags⟩, hq.raise7, hq.raise15, hq.keep7, hq.keep15⟩
  · exact ⟨fun hw => absurd (writesSystem_of_systemDest hd) hw, hq.raise7, hq.raise15, hq.keep7, hq.keep15⟩
  · exact ⟨fun _ => ⟨fun _ h => h, fun _ _ _ => rfl⟩, .inl, .inl, id, id⟩
  · exact ⟨fun _ => ⟨fun _ h => h, fun _ _ _ => rfl⟩, .inl, .inl, id, id⟩

/-- Settles O46: an event of `Core` clears the request of its own kind and touches no flag; an instruction clears no request. -/
theorem flagsAreSticky : Obligations.FlagsAreSticky := by
  intro s t h
  rcases step_next h with ⟨e, rest, -, hc, rfl⟩ | ⟨text, i, rest, ht, hi, -, hc, hexec⟩
  · refine ⟨fun _ => ⟨fun _ h => h, fun _ _ _ => rfl⟩, fun h => .inl ?_, fun h => .inl ?_, fun h h' => ⟨e, rest, hc, ?_⟩,
      fun h h' => ⟨e, rest, hc, ?_⟩⟩
    · exact ((Bool.and_eq_true _ _).mp h).1
    · exact ((Bool.and_eq_true _ _).mp h).1
    · simpa [h] using h'
    · simpa [h] using h'
  · obtain ⟨hsticky, hraise7, hraise15, hkeep7, hkeep15⟩ := exec_status hexec
    refine ⟨fun hno => hsticky fun hw => hno ⟨noEvent_of_rest hc, text, i, ht, hi, hw⟩, hraise7, hraise15, fun h h' => ?_,
      fun h h' => ?_⟩
    · exact absurd ((hkeep7 h).symm.trans h') nofun
    · exact absurd ((hkeep15 h).symm.trans h') nofun

end Sys2Proof.Machine
end

section
/-! The static and the dynamic part of `Check` (rules R176, R185 to R187, R263), as the statements' own words say them. -/

namespace Sys2Proof.Machine

open Sys2Proof.Claims

/-! ### What an operand list names -/

theorem shape_eq_ldi {i : Instr} {u : Ureg} {v : Word} : i.shape = .ldi u v ↔ i = .ldiUreg u v :=
  ⟨shape_ldi, fun h => h ▸ rfl⟩

theorem shape_eq_mov {i : Instr} {u1 u2 : Ureg} : i.shape = .mov u1 u2 ↔ i = .movUreg u1 u2 :=
  ⟨shape_mov, fun h => h ▸ rfl⟩

theorem mem_uregNums {u : Ureg} {n : RegNum} : n ∈ uregNums u ↔ ∃ ty, u = .dag ty n := by
  cases u <;> simp [uregNums, eq_comm]

theorem mem_modifierNums {m : Modifier} {n : RegNum} : n ∈ modifierNums m ↔ m = .reg n := by
  cases m <;> simp [modifierNums, eq_comm]

theorem mem_transferNums {t : Transfer} {n : RegNum} :
    n ∈ (transferUreg t).elim [] uregNums ↔ ∃ ty w, t = .store (.dag ty n) w ∨ t = .load (.dag ty n) w := by
  cases t <;> simp [transferUreg, mem_uregNums]

theorem isData_iff {u : Ureg} : u.isData = true ↔ ∃ d, u = .data d := by
  cases u <;> simp [Ureg.isData]

theorem mem_namedNums {i : Instr} {n : RegNum} : n ∈ namedNums i.shape ↔ NamesDag i n := by
  simp only [NamesDag, ← shape_eq_ldi, ← shape_eq_mov]
  cases i.shape with
  | access x => simp [namedNums, mem_modifierNums, mem_transferNums, eq_comm]
  | mov u1 u2 => simp [namedNums, mem_uregNums, exists_or]
  | _ => simp [namedNums, mem_modifierNums, mem_uregNums, eq_comm]

theorem isPostAccess_iff {i : Instr} : isPostAccess i.shape = true ↔ PostAccess i := by
  unfold PostAccess
  cases i.shape <;> simp [isPostAccess]

theorem mem_accessIndexes {i : Instr} {n : RegNum} : n ∈ accessIndexes i.shape ↔ AccessesThrough i n := by
  unfold AccessesThrough
  cases i.shape <;> simp [accessIndexes, eq_comm]

theorem mem_dataLoadIndexes {i : Instr} {n : RegNum} : n ∈ dataLoadIndexes i.shape ↔ LoadsDataThrough i n := by
  unfold LoadsDataThrough
  cases i.shape with
  | access x =>
    rcases x with ⟨b, k, o, m, t⟩
    cases t with
    | load u w => cases u <;> simp [dataLoadIndexes, eq_comm]
    | _ => simp [dataLoadIndexes]
  | _ => simp [dataLoadIndexes, eq_comm]

theorem usesData_iff {i : Instr} : usesData i.shape = true ↔ TouchesData i := by
  simp only [TouchesData, ← shape_eq_ldi, ← shape_eq_mov]
  cases i.shape with
  | access x => rcases x with ⟨b, k, o, m, t⟩; cases t <;> simp [usesData, transferUreg, isData_iff]
  | mov u1 u2 => simp [usesData, isData_iff, exists_or]
  | _ => simp [usesData, isData_iff]

/-! ### R176: what SIMD mode leaves open -/

theorem broadcasts_iff {s : State} {n : RegNum} : broadcasts s n = true ↔ Broadcast s n := by
  simp [broadcasts, Broadcast, mode1Bit, bitBdcst1, bitBdcst9, Fin.ext_iff]

theorem simdRefused_iff {i : Instr} {s : State} :
    simdRefused s i.shape = true ↔ s.mode1.getLsbD 21 = true ∧ SimdOpen i s := by
  have hp : peyen s = s.mode1.getLsbD 21 := rfl
  simp only [simdRefused, Bool.and_eq_true, hp]
  refine and_congr_right fun _ => ?_
  unfold SimdOpen
  cases i.shape with
  | access x =>
    rcases x with ⟨b, k, o, m, t⟩
    cases t <;> simp [simdOpen, isData_iff, ← broadcasts_iff]
  | dual r1 a b r2 c d => simp [← broadcasts_iff, imp_iff_not_or]
  | _ => simp

/-! ### R263: what depends on a changed bit -/

/-- A register with number `n` depends on the bit of its group (R22). -/
theorem getLsbD_groupBit (ch : Word) (n : RegNum) : ch.getLsbD (groupBit n) = true ↔
    (ch.getLsbD 4 = true ∧ n.val < 4) ∨ (ch.getLsbD 3 = true ∧ 4 ≤ n.val ∧ n.val < 8) ∨
      (ch.getLsbD 6 = true ∧ 8 ≤ n.val ∧ n.val < 12) ∨ (ch.getLsbD 5 = true ∧ 12 ≤ n.val) := by
  grind [groupBit, bitSrd1l, bitSrd1h, bitSrd2l, bitSrd2h]

theorem any_val_eq {l : List RegNum} {n : RegNum} : l.any (fun k => k.val == n.val) = true ↔ n ∈ l := by
  simp [← Fin.ext_iff]

theorem depends_iff {i : Instr} {ch : Word} : depends i.shape ch = true ↔ LatencyDepends i ch := by
  have hgroups : (namedNums i.shape).any (fun n => ch.getLsbD (groupBit n)) = true ↔
      (ch.getLsbD 4 = true ∧ ∃ n, n.val < 4 ∧ NamesDag i n) ∨
        (ch.getLsbD 3 = true ∧ ∃ n, 4 ≤ n.val ∧ n.val < 8 ∧ NamesDag i n) ∨
        (ch.getLsbD 6 = true ∧ ∃ n, 8 ≤ n.val ∧ n.val < 12 ∧ NamesDag i n) ∨
        (ch.getLsbD 5 = true ∧ ∃ n, 12 ≤ n.val ∧ NamesDag i n) := by
    simp only [List.any_eq_true, mem_namedNums, getLsbD_groupBit]
    grind
  have hidx (n : RegNum) : (accessIndexes i.shape).any (fun k => k.val == n.val) = true ↔ AccessesThrough i n :=
    any_val_eq.trans mem_accessIndexes
  have hload (n : RegNum) : (dataLoadIndexes i.shape).any (fun k => k.val == n.val) = true ↔ LoadsDataThrough i n :=
    any_val_eq.trans mem_dataLoadIndexes
  unfold depends LatencyDepends
  simp only [Bool.or_eq_true, Bool.and_eq_true, hgroups, isPostAccess_iff, usesData_iff, or_assoc]
  exact or_congr_right <| or_congr_right <| or_congr_right <| or_congr_right <| or_congr_right <|
    or_congr (and_congr_right fun _ => hidx 0) <| or_congr (and_congr_right fun _ => hidx 8) <|
    or_congr (and_congr_right fun _ => hload 1) <| or_congr_left (and_congr_right fun _ => hload 9)

/-- A statement that `Check` stops is that stop. -/
theorem exec_of_check {i : Instr} {s : State} {e : Stop} (h : check i.shape s = some e) : exec i s = halt e := by
  rw [exec_eq, statement, h]

/-- Settles O30. -/
theorem checkIsTheSpecs : Obligations.CheckIsTheSpecs := by
  intro i s hwf
  have hwf : i.shape.illFormed = none := hwf
  refine ⟨fun hsimd => exec_of_check (e := .fault .simdDataMovement) ?_,
    fun hsimd hlat => exec_of_check (e := .fault .mode1Latency) ?_, ?_⟩
  · simp only [check, hwf, simdRefused_iff.2 hsimd, if_true]
  · rw [← simdRefused_iff, Bool.not_eq_true] at hsimd
    simp [check, hwf, hsimd, depends_iff.2 hlat]
  · rw [Passes, check_eq_none, ← simdRefused_iff, ← depends_iff]
    simp [hwf]

/-! ### Ill-formed statements -/

/-- Settles O35. -/
theorem illFormedNeverRuns : Obligations.IllFormedNeverRuns := by
  intro i s text w hw
  have hexec := exec_of_illFormed hw s
  refine ⟨fun t ht => ?_, fun hc ht hi => step_of_illFormed hc ht hi hw, ?_, ?_, ?_⟩
  · rw [hexec] at ht
    cases w <;> cases ht
  all_goals (rintro rfl; exact hexec)

/-- The DAG of a bus by register numbers (R61). -/
theorem owns_iff {b : Bus} {n : RegNum} : b.owns n = true ↔ b = .dm ∧ n.val < 8 ∨ b = .pm ∧ 8 ≤ n.val := by
  cases b <;> simp [Bus.owns]

theorem ownsUreg_iff {b : Bus} {u : Ureg} : b.ownsUreg u = true ↔ ∃ ty n, u = .dag ty n ∧ b.owns n = true := by
  cases u <;> simp [Bus.ownsUreg]

theorem isDag_iff {u : Ureg} : u.isDag = true ↔ ∃ ty n, u = .dag ty n := by
  cases u <;> simp [Ureg.isDag]

/-- Settles O36: an access is ill formed by its transfer; a DAG register is never the ground of R179, another register never
that of R185 or R186. -/
theorem forbiddenAccesses : Obligations.ForbiddenAccesses := by
  intro i x hs
  have hi : i.illFormed = x.illFormed := by rw [Instr.illFormed, hs]; rfl
  simp only [hi, ← owns_iff]
  rcases x with ⟨b, k, o, m, t⟩
  cases t with
  | storeImm n => simp [Access.illFormed]
  | store u w =>
    cases u with
    | dag ty n => cases h : b.owns n <;> simp [Access.illFormed, Bus.ownsUreg, Ureg.isDag, h]
    | _ => cases w <;> simp [Access.illFormed, Bus.ownsUreg, Ureg.isDag]
  | load u w =>
    cases u with
    | dag ty n => cases o <;> cases h : b.owns n <;> simp [Access.illFormed, Bus.ownsUreg, Ureg.isDag, h]
    | _ => cases w <;> simp [Access.illFormed, Bus.ownsUreg, Ureg.isDag]

end Sys2Proof.Machine
end

section
/-! One text with two rows (rules R96, R111): a Data32 that a Data6 has too is one number in both. -/

namespace Sys2Proof.Machine

open Sys2Proof.Claims

/-- An offset below the limit of a Data6 is the same modifier in both widths. -/
theorem modifierValue_imm6 {s : State} {n : Word} (h : n.toNat < data6Limit s.plat) :
    modifierValue s (.imm6 (n.setWidth 6)) = modifierValue s (.imm32 n) := by
  have hlt : n.toNat < 64 := h.trans_le (by unfold data6Limit; split <;> omega)
  have hnat : (n.setWidth 6).toNat = n.toNat := by rw [BitVec.toNat_setWidth, Nat.mod_eq_of_lt hlt]
  have hint : n.toInt = n.toNat := BitVec.toInt_eq_toNat_of_lt (by omega)
  simp only [modifierValue, hint]
  split
  · rename_i hsigned
    have h32 : n.toNat < 32 := by simpa [data6Limit, hsigned] using h
    rw [BitVec.toInt_eq_toNat_of_lt (by omega), hnat]
  · rw [hnat]

/-- A pre-modify access with an immediate depends on the number alone, not on its width. -/
theorem execAccess_imm6 {s : State} {n : Word} (h : n.toNat < data6Limit s.plat) (bus : Bus) (i : RegNum) (t : Transfer) :
    execAccess ⟨bus, i, .pre, .imm6 (n.setWidth 6), t⟩ s = execAccess ⟨bus, i, .pre, .imm32 n, t⟩ s := by
  have hm : modifierValue (clearLatency s) (.imm6 (n.setWidth 6)) = modifierValue (clearLatency s) (.imm32 n) :=
    modifierValue_imm6 h
  have heffect : preAccess ⟨bus, i, .pre, .imm6 (n.setWidth 6), t⟩ (clearLatency s) =
      preAccess ⟨bus, i, .pre, .imm32 n, t⟩ (clearLatency s) := by
    simp only [preAccess, accessAddress, hm]
    rfl
  simp only [execAccess, statement, heffect]
  rfl

/-- The row read back has the meaning of the row written. -/
theorem exec_canon (i : Instr) (s : State) : exec (i.canon s.plat) s = exec i s := by
  unfold Instr.canon
  split
  case h_5 => rfl
  all_goals
    split
    · rename_i hn; exact execAccess_imm6 hn _ _ _
    · rfl

/-- Settles O38. -/
theorem canonKeepsMeaning : Obligations.CanonKeepsMeaning := by
  refine ⟨exec_canon, fun p i h => ?_⟩
  unfold Instr.canon at h
  split at h
  case h_5 => exact absurd rfl h
  case h_1 r n a | h_2 r n a =>
    by_cases hn : n.toNat < data6Limit p
    · exact ⟨_, n, r, rfl, rfl, rfl, hn, .inl rfl⟩
    · exact absurd (if_neg hn) h
  case h_3 n a r | h_4 n a r =>
    by_cases hn : n.toNat < data6Limit p
    · exact ⟨_, n, r, rfl, rfl, rfl, hn, .inr rfl⟩
    · exact absurd (if_neg hn) h

end Sys2Proof.Machine
end

section
/-! Register numbers, modifiers and long words (rules R22, R26, R67, R111); the state after reset (R36). -/

namespace Sys2Proof.Machine

/-- Settles O52: the bit of each group has the number R28 gives it. -/
theorem copySelection : Obligations.CopySelection := fun _ _ _ => rfl

/-- Settles O58. -/
theorem partnerNumber : Obligations.PartnerNumber := partner_val

/-- Settles O59. -/
theorem modifierValues : Obligations.ModifierValues := by
  intro s k n d
  have hword (v : Word) : v.toInt = if v.toNat < 2 ^ 31 then (v.toNat : Int) else v.toNat - 2 ^ 32 := by
    rw [BitVec.toInt_eq_toNat_cond]
    split <;> split <;> omega
  have hsix : d.toInt = if d.toNat < 32 then (d.toNat : Int) else d.toNat - 64 := by
    rw [BitVec.toInt_eq_toNat_cond]
    split <;> split <;> omega
  exact ⟨hword _, hword n, fun h => by simp only [modifierValue, h, if_true, hsix], fun h => by simp [modifierValue, h]⟩

/-- Settles O11. -/
theorem longWordDefault : Obligations.LongWordDefault := by
  refine ⟨rfl, fun s a h => ?_⟩
  have heven := evenBelow_toNat a
  have ha := a.isLt
  rw [longWordCells_default h]
  refine ⟨heven, ?_⟩
  rw [BitVec.toNat_add, heven]
  simp only [BitVec.toNat_ofNat]
  omega

/-- Settles O44. -/
theorem resetValues : Obligations.ResetValues :=
  ⟨by decide, rfl, rfl, rfl, rfl, rfl, fun _ => rfl, rfl, rfl⟩

end Sys2Proof.Machine
end

section
/-! Where a step goes before an instruction runs (rules R4, R34, R236). -/

namespace Sys2Proof.Machine

open Sys2Proof.Claims

/-- Settles O39. -/
theorem decodeSpecTexts : Obligations.DecodeSpecTexts := ⟨by decide, by decide, by decide, by decide⟩

theorem runStatement_of_wellFormed {s : State} {text : List Byte} {i : Instr} (ht : s.prog[s.pc]? = some text)
    (hi : decode s.plat text = .ok i) (hw : i.WellFormed) : runStatement s = exec i s := by
  have hw : i.illFormed = none := hw
  simp only [runStatement, fetchText, ht, hi, hw]

theorem runStatement_of_undecodable {s : State} {text : List Byte} {e : DecodeError} (ht : s.prog[s.pc]? = some text)
    (he : decode s.plat text = .error e) : runStatement s = .refused (.undecodable e) := by
  simp only [runStatement, fetchText, ht, he]

/-- Settles O40. -/
theorem stepRunsDecoded : Obligations.StepRunsDecoded := by
  intro s text i ht hi hw
  refine ⟨fun hc => ?_, fun rest hc => ?_⟩
  · have hstep : step s = runStatement s := by simp only [step, fetchText, ht, hc]
    exact hstep.trans (runStatement_of_wellFormed ht hi hw)
  · have hstep : step s = runStatement { s with core := rest } := by simp only [step, fetchText, ht, hc]
    exact hstep.trans (runStatement_of_wellFormed (s := { s with core := rest }) ht hi hw)

/-- An event of `Core` on a kind of R238 clears CBUFEN where MMASK says so; on another kind it leaves MODE1. -/
theorem takeEvent_mode1_cases (e : CoreEvent) (s : State) :
    (e.kind = .external ∨ e.kind = .timer ∨ e.kind = .vectored →
        ∀ k, (takeEvent e s).mode1.getLsbD k = (s.mode1.getLsbD k && !(decide (k = 24) && s.mmask.getLsbD 24))) ∧
      (e.kind = .cb7 ∨ e.kind = .cb15 ∨ e.kind = .other → (takeEvent e s).mode1 = s.mode1) := by
  refine ⟨fun h k => ?_, fun h => ?_⟩
  · have hk : e.kind.clearsCbufen = true := by rcases h with h | h | h <;> rw [h] <;> rfl
    rw [takeEvent_mode1, if_pos hk, mode1Masked_getLsbD]
  · have hk : e.kind.clearsCbufen = false := by rcases h with h | h | h <;> rw [h] <;> rfl
    simp [hk]

/-- An event of `Core` due at a statement of the program is the step. -/
theorem step_of_event {s : State} {e : CoreEvent} {rest : List (Option CoreEvent)} (hpc : s.pc < s.prog.length)
    (hc : s.core = some e :: rest) : step s = .next (takeEvent e { s with core := rest }) := by
  simp only [step, fetchText, List.getElem?_eq_getElem hpc, hc]

/-- Settles O41. -/
theorem stepAround : Obligations.StepAround := by
  intro s
  refine ⟨fun hpc => ?_, fun text e hc ht he => ?_, fun e rest hpc hc => ?_⟩
  · simp only [step, fetchText, List.getElem?_eq_none hpc]
  · obtain ⟨rest, hstep⟩ := step_of_noEvent hc ht
    exact hstep.trans (runStatement_of_undecodable ht he)
  · obtain ⟨hmasked, hkept⟩ := takeEvent_mode1_cases e { s with core := rest }
    refine ⟨_, step_of_event hpc hc, rfl, rfl, rfl, hmasked, hkept, ?_, ?_, rfl⟩
    · by_cases hk : e.kind = .cb7 <;> simp [hk]
    · by_cases hk : e.kind = .cb15 <;> simp [hk]

end Sys2Proof.Machine
end

section
/-! The support instructions (rules R188, R190, R191, R241). -/

namespace Sys2Proof.Machine

open Sys2Proof.Claims

/-- Settles O16. -/
theorem bitSetMode1Completes : Obligations.BitSetMode1Completes := by
  intro n s
  obtain ⟨hcheck, -⟩ := check_plain s n
  refine ⟨_, exec_eq_next.2 ⟨hcheck, rfl⟩, fun k => ?_, fun k => ?_, fun h => ?_, rfl⟩
  · exact BitVec.getLsbD_or
  · show (s.mode1 ^^^ (s.mode1 ||| n)).getLsbD k = _
    rw [BitVec.getLsbD_xor, BitVec.getLsbD_or]
    cases s.mode1.getLsbD k <;> simp
  · show s.mode1 ^^^ (s.mode1 ||| n) = 0#32
    have hor : s.mode1 ||| n = s.mode1 := by
      rw [← h]
      refine BitVec.eq_of_getLsbD_eq fun k _ => ?_
      rw [BitVec.getLsbD_or, BitVec.getLsbD_and]
      cases s.mode1.getLsbD k <;> rfl
    rw [hor, BitVec.xor_self]

/-- Looking up a name in a list of registers in which one name's value has been changed. -/
theorem lookup_map_value (l : List (Ident × Word)) (key name : Ident) (f : Word → Word) :
    (l.map fun e => if e.1 = key then (e.1, f e.2) else e).lookup name =
      if name = key then (l.lookup name).map f else l.lookup name := by
  induction l with
  | nil => simp
  | cons e l ih =>
    rcases e with ⟨k, v⟩
    by_cases hn : name = k
    · subst hn
      by_cases hk : name = key <;> simp [hk]
    · have hb : (name == k) = false := by simpa using hn
      by_cases hk : k = key
      · subst hk
        simp [List.lookup_cons, hb, hn, ih]
      · simp [List.lookup_cons, hb, hk, ih]

/-- Of the other universal registers the test of R190 can change ASTAT alone, and there one bit (log 11). -/
theorem otherRead_recordTest (s : State) (b : Bool) (name : Ident) : otherRead (recordTest s b) name =
    if name = astatName then (otherRead s name).map (putBit · Config.bitTestPlace b) else otherRead s name :=
  lookup_map_value s.others astatName name (putBit · Config.bitTestPlace b)

/-- The value tested: every bit of the mask is set in STKYX (R190). -/
theorem stkyxTest_iff {s : State} {mask : Word} :
    stkyxTest s mask = true ↔ ∀ k, mask.getLsbD k = true → s.stkyx.getLsbD k = true := by
  rw [stkyxTest, beq_iff_eq]
  constructor
  · intro h k hk
    rw [← h, BitVec.getLsbD_and, Bool.and_eq_true] at hk
    exact hk.1
  · intro h
    apply BitVec.eq_of_getLsbD_eq
    intro k _
    rw [BitVec.getLsbD_and, Bool.and_eq_right_iff_imp]
    exact h k

/-- Settles O18: the bit of ASTAT that can change is at the free place of log 11. -/
theorem bitTestCompletes : Obligations.BitTestCompletes := by
  intro n s
  obtain ⟨-, -, hcheck, -⟩ := check_plain s n
  refine ⟨_, exec_eq_next.2 ⟨hcheck, rfl⟩, stkyxTest_iff (s := s), ⟨fun name hname => ?_, recordTest_names _ _⟩,
    fun v v' hv hv' => ⟨Config.bitTestPlace, fun k => ?_⟩, rfl⟩
  · exact (otherRead_recordTest (clearLatency s) _ name).trans (if_neg hname)
  · have hread := (otherRead_recordTest (clearLatency s) (stkyxTest s n) astatName).symm.trans hv'
    rw [if_pos rfl, show otherRead (clearLatency s) astatName = some v from hv] at hread
    rw [← Option.some.inj hread, putBit_getLsbD]
    rfl

/-- PUSH STS in every state (R191). -/
theorem exec_pushSts (s : State) : exec .pushSts s = .next (advance (writeMode1 (clearLatency s) (mode1Masked s))) := by
  obtain ⟨-, -, -, hcheck⟩ := check_plain s 0
  exact exec_eq_next.2 ⟨hcheck, rfl⟩

/-- Settles O19. -/
theorem pushStsClearsCbufen : Obligations.PushStsClearsCbufen := by
  refine ⟨fun s => ⟨_, exec_pushSts s, mode1Masked_getLsbD s, fun k => ?_, rfl⟩,
    fun e s h => ⟨(takeEvent_mode1_cases e s).1 h, rfl⟩, fun e s => (takeEvent_mode1_cases e s).2⟩
  show (s.mode1 ^^^ mode1Masked s).getLsbD k = _
  rw [BitVec.getLsbD_xor, mode1Masked_getLsbD]
  by_cases hk : k = 24
  · subst hk
    cases s.mode1.getLsbD 24 <;> cases s.mmask.getLsbD 24 <;> rfl
  · simp [hk]

/-- A control register as an immediate load's operand names no DAG or data register, so `Check` passes in every state. -/
theorem check_ldi_system (s : State) (r : SystemReg) (v : Word) : check (.ldi (.system r) v) s = none := by
  simp [check, Shape.illFormed, simdRefused, depends, namedNums, uregNums, isPostAccess, accessIndexes, dataLoadIndexes,
    usesData, Ureg.isData]

/-- An immediate load of a control register of the platform writes it whole (R171, R241). -/
theorem exec_ldi_system {s : State} {r : SystemReg} (v : Word) (hr : r ∈ s.plat.systemUregs) :
    exec (.ldiUreg (.system r) v) s = .next (advance (systemWrite (clearLatency s) r v)) := by
  have hput : putNw (clearLatency s) (.system r) v false = .ok (systemWrite (clearLatency s) r v) := by
    simp [putNw, isSystemUreg, hr]
  refine exec_eq_next.2 ⟨check_ldi_system s r v, ?_⟩
  simp only [Instr.shape, effect, hput]
  rfl

/-- Settles O60. -/
theorem mmaskWriteGovernsPush : Obligations.MmaskWriteGovernsPush := by
  refine ⟨by decide, fun v s hr => ⟨_, _, exec_ldi_system v hr, rfl, exec_pushSts _, fun hv => ?_, fun hv => ?_⟩⟩
  · show (mode1Masked _).getLsbD 24 = false
    rw [mode1Masked_getLsbD]
    have hv : (advance (systemWrite (clearLatency s) .mmask v)).mmask.getLsbD 24 = true := hv
    rw [hv]
    exact Bool.and_false _
  · have hv : mmaskCbufen (advance (systemWrite (clearLatency s) .mmask v)) = false := hv
    show mode1Masked _ = s.mode1
    rw [mode1Masked, hv]
    rfl

end Sys2Proof.Machine
end

section
/-! The register side of a transfer (rules R171 to R183): what a register write leaves in the register written, and what it leaves
unchanged; immediate loads and register moves. -/

namespace Sys2Proof.Machine

open Sys2Proof.Claims

/-! ### Frames of a register write -/

/-- A state with the MODE1 of `s` is seen by `s` as it is. -/
theorem asBefore_eq {s t : State} (h : t.mode1 = s.mode1) : asBefore s t = t := by
  rw [asBefore, ← h]

/-- A change that keeps both banks keeps every copy of every DAG register, whatever MODE1 becomes. -/
theorem dagKept_of_banks {s t : State} (hp : t.prim = s.prim) (ha : t.alt = s.alt) (ex : DagType → RegNum → Prop) :
    DagKept s t ex :=
  ⟨fun ty n _ => dagRead_congr (s := s) (s' := asBefore s t) rfl hp ha ty n,
    dagHidden_congr (s := s) (s' := asBefore s t) rfl hp ha⟩

theorem dagKept_mono {s t : State} {ex ex' : DagType → RegNum → Prop} (h : DagKept s t ex)
    (hle : ∀ ty n, ex ty n → ex' ty n) : DagKept s t ex' :=
  ⟨fun ty n hn => h.1 ty n (mt (hle ty n) hn), h.2⟩

/-- A write of the selected copy of X[n] changes that register, and of B[n] also I[n] (R22 to R25). -/
theorem dagKept_dagWrite (s : State) (ty : DagType) (n : RegNum) (v : Word) (w : Width) :
    DagKept s (dagWrite s ty n v) (loadWritesDag (.dag ty n) w) := by
  rw [DagKept, asBefore_eq (dagWrite_mode1 s ty n v)]
  refine ⟨fun ty' n' hn => ?_, fun ty' n' => dagHidden_dagWrite s ty ty' n n' v⟩
  rw [dagRead_dagWrite, if_neg]
  rintro ⟨rfl, h⟩
  exact hn ⟨ty, n', rfl, h, .inl rfl⟩

/-- What a write of the register `u` leaves: all but the registers a load of `u` writes (R177, R178, R183). -/
structure WroteOnly (s t : State) (u : Ureg) (w : Width) (bc : Prop) : Prop where
  dag : DagKept s t (loadWritesDag u w)
  data : DataKept s t (loadWritesData u bc)
  others : OthersKept s t (fun nm => u = .other nm)
  mode1 : u ≠ .system .mode1 → t.mode1 = s.mode1 ∧ t.mode1Changed = s.mode1Changed
  mmask : u ≠ .system .mmask → t.mmask = s.mmask
  stkyx : u ≠ .system .stkyx → t.stkyx = s.stkyx
  fields : t = { s with
    prim := t.prim, alt := t.alt, pex := t.pex, pey := t.pey, others := t.others, mode1 := t.mode1, stkyx := t.stkyx,
    mmask := t.mmask, mode1Changed := t.mode1Changed }

theorem wroteOnly_dagWrite (s : State) (ty : DagType) (n : RegNum) (v : Word) (w : Width) (bc : Prop) :
    WroteOnly s (dagWrite s ty n v) (.dag ty n) w bc where
  dag := dagKept_dagWrite s ty n v w
  data d _ := dataRead_congr (by simp) (by simp) d
  others := ⟨fun _ _ => by simp [otherRead], by simp⟩
  mode1 _ := by simp
  mmask _ := by simp
  stkyx _ := by simp
  fields := by cases ty <;> rfl

theorem wroteOnly_dataWrite (s : State) (d : Dreg) (v : DataWord) (w : Width) (bc : Prop) :
    WroteOnly s (dataWrite s d v) (.data d) w bc where
  dag := dagKept_of_banks (by simp) (by simp) _
  data d' hd := dataRead_dataWrite_other s d d' v fun h => hd ⟨d, rfl, .inl h⟩
  others := ⟨fun _ _ => by simp [otherRead], by simp⟩
  mode1 _ := by simp
  mmask _ := by simp
  stkyx _ := by simp
  fields := by obtain ⟨pe, n⟩ := d; cases pe <;> rfl

theorem wroteOnly_otherWrite (s : State) (name : Ident) (v : Word) (w : Width) (bc : Prop) :
    WroteOnly s (otherWrite s name v) (.other name) w bc where
  dag := dagKept_of_banks rfl rfl _
  data _ _ := rfl
  others := ⟨fun name' hn => by rw [otherRead_otherWrite, if_neg fun h => hn (by rw [h])], otherWrite_names s name v⟩
  mode1 _ := ⟨rfl, rfl⟩
  mmask _ := rfl
  stkyx _ := rfl
  fields := rfl

theorem wroteOnly_systemWrite (s : State) (r : SystemReg) (v : Word) (w : Width) (bc : Prop) :
    WroteOnly s (systemWrite s r v) (.system r) w bc where
  dag := dagKept_of_banks (by simp) (by simp) _
  data d _ := dataRead_congr (by simp) (by simp) d
  others := ⟨fun _ _ => by simp [otherRead], by simp⟩
  mode1 h :=
    have hr : r ≠ .mode1 := fun hr => h (by rw [hr])
    ⟨systemWrite_mode1_other s r v hr, systemWrite_mode1Changed_other s r v hr⟩
  mmask h := systemWrite_mmask_other s r v fun hr => h (by rw [hr])
  stkyx h := systemWrite_stkyx_other s r v fun hr => h (by rw [hr])
  fields := by cases r <;> rfl

/-- Two writes, the second of registers that a load of the same operand writes too. -/
theorem WroteOnly.trans {s t r : State} {u u' : Ureg} {w w' : Width} {bc bc' : Prop} (h : WroteOnly s t u w bc)
    (k : WroteOnly t r u' w' bc') (hu : ∀ q, u ≠ .system q) (hu' : ∀ q, u' ≠ .system q)
    (hdag : ∀ ty n, loadWritesDag u' w' ty n → loadWritesDag u w ty n)
    (hdata : ∀ d, loadWritesData u' bc' d → loadWritesData u bc d) (hother : ∀ nm, u' = .other nm → u = .other nm) :
    WroteOnly s r u w bc := by
  have hm := h.mode1 (hu _)
  have km := k.mode1 (hu' _)
  have hmode : r.mode1 = s.mode1 := km.1.trans hm.1
  have hdagt := h.dag
  have kdag := k.dag
  rw [DagKept, asBefore_eq hm.1] at hdagt
  rw [DagKept, asBefore_eq km.1] at kdag
  constructor
  case dag =>
    rw [DagKept, asBefore_eq hmode]
    exact ⟨fun ty n hn => (kdag.1 ty n (mt (hdag ty n) hn)).trans (hdagt.1 ty n hn),
      fun ty n => (kdag.2 ty n).trans (hdagt.2 ty n)⟩
  case data => exact fun d hd => (k.data d (mt (hdata d) hd)).trans (h.data d hd)
  case others =>
    exact ⟨fun nm hn => (k.others.1 nm (mt (hother nm) hn)).trans (h.others.1 nm hn), k.others.2.trans h.others.2⟩
  case mode1 => exact fun _ => ⟨hmode, km.2.trans hm.2⟩
  case mmask => exact fun _ => (k.mmask (hu' _)).trans (h.mmask (hu _))
  case stkyx => exact fun _ => (k.stkyx (hu' _)).trans (h.stkyx (hu _))
  case fields => rw [k.fields, h.fields]

/-- A normal-word register write leaves all but the register, I with B, and in a broadcast the complement (R177, R183). -/
theorem putNw_wroteOnly {s t : State} {u : Ureg} {v : Word} {bc : Bool} (h : putNw s u v bc = .ok t) :
    WroteOnly s t u .nw (bc = true) := by
  rcases putNw_ok h with ⟨ty, n, rfl, rfl⟩ | ⟨d, rfl, hbc, rfl⟩ | ⟨d, rfl, -, rfl⟩ | ⟨r, rfl, -, rfl⟩ | ⟨nm, old, rfl, -, rfl⟩
  · exact wroteOnly_dagWrite s ty n v _ _
  · refine (wroteOnly_dataWrite s d _ .nw _).trans (wroteOnly_dataWrite _ (comp d) _ .nw False) nofun nofun ?_ ?_ nofun
    · rintro ty n ⟨_, _, hd, -⟩; cases hd
    · rintro d' ⟨_, hd, rfl | ⟨hf, -⟩⟩
      · cases hd; exact ⟨d, rfl, .inr ⟨hbc, rfl⟩⟩
      · exact hf.elim
  · exact wroteOnly_dataWrite s d _ _ _
  · exact wroteOnly_systemWrite s r v _ _
  · exact wroteOnly_otherWrite s nm v _ _

/-- A long-word register write leaves all but the register and its partner, I with B (R178). -/
theorem putLw_wroteOnly {s t : State} {u : Ureg} {v : LongWord} (h : putLw s u v = .ok t) (bc : Prop) :
    WroteOnly s t u .lw bc := by
  obtain ⟨ty, n, rfl, rfl⟩ := putLw_ok h
  refine (wroteOnly_dagWrite s ty n _ .lw bc).trans (wroteOnly_dagWrite _ ty (partner n) _ .nw False) nofun nofun ?_ ?_ nofun
  · rintro ty' n' ⟨_, _, hd, hty, rfl | ⟨hw, -⟩⟩
    · cases hd; exact ⟨ty, n, rfl, hty, .inr ⟨rfl, rfl⟩⟩
    · cases hw
  · rintro d' ⟨_, hd, -⟩; cases hd

/-! ### The value of a register write -/

/-- A normal-word register write leaves the word in the register (R24, R177, R183, R37). -/
theorem loaded_putNw {s t : State} {u : Ureg} {v : Word} {bc : Bool} (h : putNw s u v bc = .ok t) :
    Loaded s t u v (bc = true) := by
  rcases putNw_ok h with ⟨ty, n, rfl, rfl⟩ | ⟨d, rfl, rfl, rfl⟩ | ⟨d, rfl, rfl, rfl⟩ | ⟨r, rfl, -, rfl⟩ | ⟨nm, old, rfl, ho, rfl⟩
  · exact ⟨by simp [dagRead_dagWrite], by rintro rfl; simp [dagRead_dagWrite]⟩
  · refine ⟨?_, fun _ => dataRead_dataWrite_same _ _ _, fun hf => absurd rfl hf⟩
    rw [dataRead_dataWrite_other _ _ _ _ (comp_ne d).symm]
    exact dataRead_dataWrite_same _ _ _
  · exact ⟨dataRead_dataWrite_same _ _ _, nofun, fun _ => dataRead_dataWrite_other _ _ _ _ (comp_ne d)⟩
  · cases r
    · exact ⟨rfl, rfl⟩
    · exact rfl
    · exact rfl
  · show otherRead _ nm = some v
    rw [otherRead_otherWrite, if_pos rfl, ho]
    rfl

/-- A normal-word register write of a register of the platform has a next state (R32). -/
theorem putNw_of_known {s : State} {u : Ureg} (h : Known s u) (v : Word) (bc : Bool) : ∃ t, putNw s u v bc = .ok t :=
  putNw_total s u v bc h.1 fun r hr => decide_eq_true (h.2 r hr)

/-- The value of a store is what `GetNW` reads (R173). -/
theorem getNw_of_storedValue {s : State} {u : Ureg} {v : Word} (h : StoredValue s u v) : getNw s u = .ok v := by
  cases u with
  | dag ty n => exact congrArg _ h.symm
  | data d => exact congrArg _ h.symm
  | system r =>
    cases r <;> obtain ⟨hr, rfl⟩ := h <;> simp [getNw, isSystemUreg, hr, systemRead]
  | other nm =>
    have h : otherRead s nm = some v := h
    simp only [getNw, h]

/-- `GetNW` reads every register of the platform (R32). -/
theorem getNw_of_known {s : State} {u : Ureg} (h : Known s u) : ∃ v, getNw s u = .ok v := by
  cases u with
  | dag ty n => exact ⟨_, rfl⟩
  | data d => exact ⟨_, rfl⟩
  | system r => exact ⟨systemRead s r, if_pos (decide_eq_true (h.2 r rfl))⟩
  | other nm =>
    obtain ⟨v, hv⟩ := h.1 nm rfl
    exact ⟨v, by simp only [getNw, hv]⟩

/-! ### Immediate loads and register moves -/

/-- What a statement that is one register write leaves, as the statements of file 44 say it. -/
theorem WroteOnly.statement {s t : State} {u : Ureg} {bc : Prop} (h : WroteOnly (clearLatency s) t u .nw bc) :
    DagKept s (advance t) (loadWritesDag u .nw) ∧ DataKept s (advance t) (loadWritesData u bc) ∧
      OthersKept s (advance t) (fun nm => u = .other nm) ∧ ModesKept s (advance t) u ∧
      (u ≠ .system .stkyx → (advance t).stkyx = s.stkyx) ∧
      advance t = { s with
        prim := t.prim, alt := t.alt, pex := t.pex, pey := t.pey, others := t.others, mode1 := t.mode1, stkyx := t.stkyx,
        mmask := t.mmask, pc := s.pc + 1, mode1Changed := t.mode1Changed } :=
  ⟨h.dag, h.data, h.others, ⟨h.mode1, h.mmask⟩, h.stkyx, congrArg advance h.fields⟩

/-- The register written is seen alike before and after the parts of a statement around its effect. -/
theorem loaded_advance {s t : State} {u : Ureg} {v : Word} {bc : Prop} (h : Loaded (clearLatency s) t u v bc) :
    Loaded s (advance t) u v bc := by
  cases u with
  | system r => cases r <;> exact h
  | _ => exact h

/-- Settles O14. -/
theorem loadImmediateCompletes : Obligations.LoadImmediateCompletes := by
  intro u v s hpass hknown
  obtain ⟨t, hput⟩ := putNw_of_known (s := clearLatency s) hknown v false
  have hexec : exec (.ldiUreg u v) s = .next (advance t) := by
    refine exec_eq_next.2 ⟨hpass, ?_⟩
    simp only [Instr.shape, effect, hput]
    rfl
  have hbc : (false = true) = False := by simp
  exact ⟨_, hexec, hbc ▸ loaded_advance (loaded_putNw hput), (hbc ▸ putNw_wroteOnly hput).statement⟩

/-- The word a register move moves: of a data register in SIMD mode that of the PEx member of the pair (R172, R175). -/
def movedWord (s : State) (u : Ureg) : Except Stop Word :=
  match u with
  | .data d => getNw s (.data (moveSource s d))
  | u => getNw s u

/-- A register move is a read and a normal-word write, duplicated in SIMD mode (R172, R174). -/
theorem moveRegister_eq {u1 u2 : Ureg} (s : State) (h : (u1.isDag || u2.isDag) = true) :
    moveRegister u1 u2 s = (movedWord s u2).bind fun v => putNw s u1 v (peyen s) := by
  cases u1 with
  | dag ty n => cases u2 <;> rfl
  | _ =>
    cases u2 with
    | dag ty n => rfl
    | _ => cases h

theorem isDag_of_check_mov {u1 u2 : Ureg} {s : State} (h : check (.mov u1 u2) s = none) : (u1.isDag || u2.isDag) = true := by
  have hwf := check_wellFormed h
  by_contra hno
  simp [Shape.illFormed, hno] at hwf

/-- What a register move that completes does. -/
theorem exec_mov_next {u1 u2 : Ureg} {s t : State} (h : exec (.movUreg u1 u2) s = .next t) :
    ∃ v t1, movedWord (clearLatency s) u2 = .ok v ∧ putNw (clearLatency s) u1 v (peyen s) = .ok t1 ∧ t = advance t1 := by
  obtain ⟨hc, heffect⟩ := exec_eq_next.1 h
  simp only [Instr.shape, effect, moveRegister_eq _ (isDag_of_check_mov hc)] at heffect
  obtain ⟨t1, hmove, heffect⟩ := bind_ok.1 heffect
  obtain ⟨v, hv, hput⟩ := bind_ok.1 hmove
  exact ⟨v, t1, hv, hput, (Except.ok.inj heffect).symm⟩

/-- Settles O15: the word moved is that of the source, or of its PEx partner in SIMD mode; the write is that of `PutNW`. -/
theorem moveRegisterCompletes : Obligations.MoveRegisterCompletes := by
  intro u1 u2 s hpass hknown1 hknown2
  obtain ⟨v, hv⟩ : ∃ v, movedWord (clearLatency s) u2 = .ok v := by
    cases u2 with
    | data d => exact ⟨_, rfl⟩
    | _ => exact getNw_of_known (s := clearLatency s) hknown2
  obtain ⟨t, hput⟩ := putNw_of_known (s := clearLatency s) hknown1 v (peyen s)
  have hexec : exec (.movUreg u1 u2) s = .next (advance t) := by
    refine exec_eq_next.2 ⟨hpass, ?_⟩
    simp only [Instr.shape, effect, moveRegister_eq _ (isDag_of_check_mov hpass), hv]
    simp only [Except.bind, show peyen (clearLatency s) = peyen s from rfl, hput]
  have hl : Loaded s (advance t) u1 v (s.mode1.getLsbD 21 = true) := loaded_advance (loaded_putNw hput)
  refine ⟨_, hexec, ?_, ?_, ?_, ?_, ?_, ?_, ?_, ?_, (putNw_wroteOnly hput).statement⟩
  · rintro ty n ty' n' rfl rfl
    cases hv; exact hl
  · rintro d ty n rfl rfl
    cases hv; exact hl
  · rintro ty n d rfl rfl hsisd
    have hsource : moveSource (clearLatency s) d = d := if_neg (by rw [show peyen (clearLatency s) = false from hsisd]; nofun)
    rw [movedWord, hsource] at hv
    cases hv; exact hl
  · rintro ty n d rfl rfl hsimd
    have hsource : moveSource (clearLatency s) d = ⟨.x, d.num⟩ := if_pos hsimd
    rw [movedWord, hsource] at hv
    cases hv; exact hl
  · rintro r ty n rfl rfl
    cases hv; cases r <;> exact hl
  · rintro ty n r v' rfl rfl hstored
    cases (getNw_of_storedValue (s := clearLatency s) hstored).symm.trans hv; exact hl
  · rintro name ty n rfl rfl
    cases hv; exact hl
  · rintro ty n name v' rfl rfl hread
    cases (getNw_of_storedValue (s := clearLatency s) (u := .other name) hread).symm.trans hv; exact hl

/-- Bits 39-8 of a data register loaded with a word are the word (R181). -/
theorem extract_toData (v : Word) : (v ++ 0#8).extractLsb' 8 32 = v := by
  apply BitVec.eq_of_getLsbD_eq
  intro k hk
  rw [BitVec.getLsbD_extractLsb', BitVec.getLsbD_append]
  simp [hk]

/-- Settles O55: the data of a DAG register is its selected copy, on which BR0 and BR8 have no bearing. -/
theorem dataReadsAreUnreversed : Obligations.DataReadsAreUnreversed := by
  intro s ty n p hp
  have hsel := altSelected_of_agreeOutside hp (by decide)
  have hread : ∀ ty n, dagRead { s with mode1 := p } ty n = dagRead s ty n := dagRead_of_altSelected hsel
  have hmoved : movedWord (clearLatency { s with mode1 := p }) (.dag ty n) = .ok (dagRead s ty n) :=
    congrArg Except.ok (hread ty n)
  refine ⟨congrArg Except.ok (hread ty n), ?_, fun ty' n' t h => ?_, fun u t hu h => ?_⟩
  · simp only [getLw, hread]
  · obtain ⟨v, t1, hv, hput, rfl⟩ := exec_mov_next h
    cases hmoved.symm.trans hv
    exact (loaded_putNw hput).1
  · obtain ⟨v, t1, hv, hput, rfl⟩ := exec_mov_next h
    cases hmoved.symm.trans hv
    have hl := loaded_putNw hput
    refine ⟨?_, ?_, ?_, ?_, ?_, fun ty' k => ?_⟩
    · rintro d rfl
      rw [show dataRead (advance t1) d = dagRead s ty n ++ 0#8 from hl.1, extract_toData]
    · rintro name rfl; exact hl
    · rintro rfl; exact hl.1
    · rintro rfl; exact hl
    · rintro rfl; exact hl
    · have hdag := (putNw_wroteOnly hput).dag.1 ty' k fun ⟨_, _, hd, _⟩ => hu _ _ hd
      have hsel' : ∀ m, altSelected { asBefore s t1 with mode1 := p } m = altSelected (asBefore s t1) m := hsel
      exact (dagRead_of_altSelected hsel' ty' k).symm.trans (hdag.trans (hread ty' k))

end Sys2Proof.Machine
end

section
/-! The index update and its overflow status (rules R113 to R121), and the statements that are one update: Modify and Bitrev (rules
R160 to R166). -/

namespace Sys2Proof.Machine

open Sys2Proof.Claims

/-! ### What an update writes -/

/-- `CircOK` is the list of requirements of R116. -/
theorem circOk_iff {i l b : Nat} {m : Int} : circOk i l b m = true ↔ CircReq i l b m := by
  simp only [circOk, CircReq, Bool.and_eq_true, decide_eq_true_eq, Int.abs_eq_natAbs, Nat.cast_lt, and_assoc]
  omega

/-- The two spellings of the equations of R115 agree. -/
theorem circIndex_eq {i l b : Nat} {m : Int} (hl : l ≠ 0) : circIndex i l b m = newIndex i l b m true := by
  simp only [circIndex, circWraps, newIndex, hl, ne_eq, not_false_eq_true, and_self, if_true]
  split <;> simp only [decide_eq_true_eq] <;> split <;> split <;> omega

/-- No active buffer, or the requirements of R116 hold. -/
theorem updatable_iff {s : State} {n : RegNum} {m : Int} {en : Bool} :
    Updatable s n m en ↔ (circActive s n en = true → circOkAt s n m = true) := by
  simp only [Updatable, circActive, circOkAt, Bool.and_eq_true, decide_eq_true_eq, and_imp, circOk_iff]

/-- An index update writes the value of R113. -/
theorem indexUpdate_index {s : State} {n : RegNum} {m : Int} {en : Bool} {c : Cause} {u : IndexUpdate}
    (h : indexUpdate s n m en c = .ok u) : u.index = nextIndex s n m en := by
  have htoNat : dagRead s .l n ≠ 0#32 → (dagRead s .l n).toNat ≠ 0 := mt (toNat_eq_zero _).1
  rcases indexUpdate_cases s n m en c with ⟨hinactive, k, hu, -, -⟩ | ⟨hactive, -, hu⟩ | ⟨-, -, hu⟩
  · cases hu.symm.trans h
    have hno : ¬(en = true ∧ (dagRead s .l n).toNat ≠ 0) := by
      rintro ⟨rfl, hl⟩
      simp [circActive, mt (toNat_eq_zero _).2 hl] at hinactive
    simp only [nextIndex, newIndex, if_neg hno]
    rfl
  · cases hu.symm.trans h
    obtain ⟨rfl, hl⟩ : en = true ∧ dagRead s .l n ≠ 0#32 := by simpa [circActive] using hactive
    exact congrArg trunc32 (circIndex_eq (htoNat hl))
  · cases hu.symm.trans h

/-- An update that can be made is made. -/
theorem indexUpdate_of_updatable {s : State} {n : RegNum} {m : Int} {en : Bool} (h : Updatable s n m en) (c : Cause) :
    ∃ u, indexUpdate s n m en c = .ok u ∧ u.index = nextIndex s n m en := by
  rcases indexUpdate_cases s n m en c with ⟨-, k, hu, -, -⟩ | ⟨-, -, hu⟩ | ⟨hactive, hbroken, -⟩
  · exact ⟨_, hu, indexUpdate_index hu⟩
  · exact ⟨_, hu, indexUpdate_index hu⟩
  · exact absurd ((updatable_iff.1 h hactive).symm.trans hbroken) nofun

/-- A broken requirement of an active buffer stops the update (D9). -/
theorem indexUpdate_of_not_updatable {s : State} {n : RegNum} {m : Int} {en : Bool} (h : ¬Updatable s n m en) (c : Cause) :
    indexUpdate s n m en c = .error (.fault .circularPrecondition) := by
  obtain ⟨hactive, hbroken⟩ := Classical.not_imp.1 (mt updatable_iff.2 h)
  rcases indexUpdate_cases s n m en c with ⟨hinactive, -⟩ | ⟨-, hok, -⟩ | ⟨-, -, hu⟩
  · exact absurd (hactive.symm.trans hinactive) nofun
  · exact absurd hok hbroken
  · exact hu

/-- An update that was made could be made. -/
theorem updatable_of_indexUpdate {s : State} {n : RegNum} {m : Int} {en : Bool} {c : Cause} {u : IndexUpdate}
    (h : indexUpdate s n m en c = .ok u) : Updatable s n m en := by
  by_contra hno
  cases (indexUpdate_of_not_updatable hno c).symm.trans h

/-! ### The overflow of an update -/

/-- A correction of an active buffer is the comparison of R115. -/
theorem circWraps_iff {s : State} {n : RegNum} {m : Int} :
    circWraps (dagRead s .i n).toNat (dagRead s .l n).toNat (dagRead s .b n).toNat m = true ↔ WrapCond s n m := by
  unfold circWraps WrapCond
  split <;> exact decide_eq_true_iff

/-- With a zero length the comparison of R121 is that of R115. -/
theorem zeroLen_iff {s : State} {n : RegNum} {m : Int} (hl : dagRead s .l n = 0#32) :
    (if 0 ≤ m then decide (((dagRead s .b n).toNat : Int) ≤ (dagRead s .i n).toNat + m)
      else decide (((dagRead s .i n).toNat : Int) + m < (dagRead s .b n).toNat)) = true ↔ WrapCond s n m := by
  unfold WrapCond
  split <;> simp [hl]

/-- The overflow of an update: none without a wrap of I7 or I15 in an enabled buffer; a free value with a zero length and in
Modify; else a sure one (R120, R121). -/
theorem indexUpdate_overflow {s : State} {n : RegNum} {m : Int} {en : Bool} {c : Cause} {u : IndexUpdate}
    (h : indexUpdate s n m en c = .ok u) :
    (¬(en = true ∧ hasFlag n = true ∧ WrapCond s n m) → u.overflow = .no) ∧
      (en = true → hasFlag n = true → WrapCond s n m → dagRead s .l n = 0#32 → u.overflow = .draw) ∧
      (en = true → hasFlag n = true → WrapCond s n m → dagRead s .l n ≠ 0#32 →
        u.overflow = if c = .access then .sure else .draw) := by
  rcases indexUpdate_cases s n m en c with ⟨hinactive, k, hu, hoff, hon⟩ | ⟨hactive, -, hu⟩ | ⟨-, -, hu⟩
  · cases hu.symm.trans h
    cases en with
    | false => exact ⟨fun _ => hoff rfl, nofun, nofun⟩
    | true =>
      have hl : dagRead s .l n = 0#32 := by simpa [circActive] using hinactive
      have hk := hon rfl
      have hcond := and_congr_right (a := hasFlag n = true) fun _ => zeroLen_iff (m := m) hl
      rw [← Bool.and_eq_true] at hcond
      rw [zeroLenOverflow] at hk
      exact ⟨fun hno => hk.trans (if_neg fun hw => hno ⟨rfl, hcond.1 hw⟩),
        fun _ hf hw _ => hk.trans (if_pos (hcond.2 ⟨hf, hw⟩)), fun _ _ _ hl' => absurd hl hl'⟩
  · cases hu.symm.trans h
    obtain ⟨rfl, hl⟩ : en = true ∧ dagRead s .l n ≠ 0#32 := by simpa [circActive] using hactive
    have hcond := and_congr_right (a := hasFlag n = true) fun _ => circWraps_iff (s := s) (n := n) (m := m)
    rw [← Bool.and_eq_true] at hcond
    exact ⟨fun hno => if_neg fun hw => hno ⟨rfl, hcond.1 hw⟩, fun _ _ _ hl' => absurd hl' hl,
      fun _ hf hw _ => (if_pos (hcond.2 ⟨hf, hw⟩)).trans (by cases c <;> rfl)⟩
  · cases hu.symm.trans h

theorem hasFlag_iff {n : RegNum} : hasFlag n = true ↔ n = 7 ∨ n = 15 := by
  simp [hasFlag, Fin.ext_iff]

/-! ### What an overflow does to the status -/

/-- Two states with one overflow status, on one platform. -/
def SameStatus (s t : State) : Prop :=
  t.stkyx = s.stkyx ∧ t.irqCb7 = s.irqCb7 ∧ t.irqCb15 = s.irqCb15 ∧ t.plat = s.plat

theorem SameStatus.overflowKept {s s' t : State} (h : SameStatus s s') : OverflowKept s' t ↔ OverflowKept s t := by
  obtain ⟨h1, h2, h3, -⟩ := h
  rw [OverflowKept, OverflowKept, h1, h2, h3]

theorem SameStatus.raised7 {s s' t : State} (h : SameStatus s s') : Raised7 s' t ↔ Raised7 s t := by
  obtain ⟨h1, -, h3, h4⟩ := h
  rw [Raised7, Raised7, h1, h3, h4]

theorem SameStatus.raised15 {s s' t : State} (h : SameStatus s s') : Raised15 s' t ↔ Raised15 s t := by
  obtain ⟨h1, h2, -, h4⟩ := h
  rw [Raised15, Raised15, h1, h2, h4]

theorem SameStatus.overflowOnly {s s' t : State} {n : RegNum} (h : SameStatus s s') :
    OverflowOnly s' t n ↔ OverflowOnly s t n := by
  obtain ⟨h1, h2, h3, h4⟩ := h
  rw [OverflowOnly, OverflowOnly, h1, h2, h3, h4]

/-- An overflow of I7 changes its flag and its request alone. -/
theorem raised7_setOverflow (s : State) : Raised7 s (setOverflow 7 true s) := by
  obtain ⟨hflags, -, hirq15⟩ := setOverflow_only s 7 true
  obtain ⟨⟨hirq, hflag⟩, -⟩ := setOverflow_sets s
  exact ⟨hirq, hflag, hirq15 (by decide), fun k hk => hflags k (fun h => absurd h hk) fun _ => by decide⟩

/-- An overflow of I15 changes its flag and its request alone. -/
theorem raised15_setOverflow (s : State) : Raised15 s (setOverflow 15 true s) := by
  obtain ⟨hflags, hirq7, -⟩ := setOverflow_only s 15 true
  obtain ⟨-, hirq, hflag⟩ := setOverflow_sets s
  exact ⟨hirq, hflag, hirq7 (by decide), fun k hk => hflags k (fun _ => by decide) fun h => absurd h hk⟩

theorem setOverflow_false (s : State) (n : RegNum) : setOverflow n false s = s := by
  simp [setOverflow]

/-- The status an update leaves is that of its overflow (R120). -/
theorem applyUpdate_sameStatus (s : State) (n : RegNum) (u : IndexUpdate) :
    SameStatus (applyOverflow n u.overflow s) (applyUpdate n u s) := by
  obtain ⟨h1, h2, h3⟩ := applyUpdate_status s n u
  exact ⟨h1, h2, h3, by simp⟩

/-- An update with no overflow keeps the status. -/
theorem overflowKept_applyUpdate (s : State) (n : RegNum) {u : IndexUpdate} (h : u.overflow = .no) :
    OverflowKept s (applyUpdate n u s) := by
  obtain ⟨h1, h2, h3, -⟩ := applyUpdate_sameStatus s n u
  rw [h] at h1 h2 h3
  exact ⟨h1, h2, h3⟩

/-- A sure overflow of I7 or I15 raises its part of the status. -/
theorem raised_applyUpdate_sure (s : State) (n : RegNum) {u : IndexUpdate} (h : u.overflow = .sure) :
    (n = 7 → Raised7 s (applyUpdate n u s)) ∧ (n = 15 → Raised15 s (applyUpdate n u s)) := by
  obtain ⟨h1, h2, h3, -⟩ := applyUpdate_sameStatus s n u
  rw [h] at h1 h2 h3
  refine ⟨?_, ?_⟩
  · rintro rfl
    rw [Raised7, h1, h2, h3]
    exact raised7_setOverflow s
  · rintro rfl
    rw [Raised15, h1, h2, h3]
    exact raised15_setOverflow s

/-- A free overflow of I7 or I15 keeps the status or raises its part of it. -/
theorem raised_applyUpdate_draw (s : State) (n : RegNum) {u : IndexUpdate} (h : u.overflow = .draw) :
    (n = 7 → OverflowKept s (applyUpdate n u s) ∨ Raised7 s (applyUpdate n u s)) ∧
      (n = 15 → OverflowKept s (applyUpdate n u s) ∨ Raised15 s (applyUpdate n u s)) := by
  obtain ⟨h1, h2, h3, -⟩ := applyUpdate_sameStatus s n u
  rw [OverflowKept, Raised7, Raised15, h1, h2, h3, h]
  have hdraw : applyOverflow n .draw s = { setOverflow n (Config.overflowDraw s.draws) s with draws := s.draws + 1 } := rfl
  rw [hdraw]
  cases Config.overflowDraw s.draws
  · rw [setOverflow_false]
    exact ⟨fun _ => .inl ⟨rfl, rfl, rfl⟩, fun _ => .inl ⟨rfl, rfl, rfl⟩⟩
  · refine ⟨?_, ?_⟩
    · rintro rfl
      exact .inr (raised7_setOverflow s)
    · rintro rfl
      exact .inr (raised15_setOverflow s)

/-! ### Frames of an update -/

/-- An index update changes, of the DAG registers, the selected copy of its index register. -/
theorem dagKept_applyUpdate (s : State) (n : RegNum) (u : IndexUpdate) :
    DagKept s (applyUpdate n u s) (fun ty k => ty = .i ∧ k = n) := by
  rw [DagKept, asBefore_eq (applyUpdate_mode1 s n u)]
  refine ⟨fun ty k hk => ?_, (quiet_applyUpdate s n u).hidden⟩
  rw [dagRead_applyUpdate, if_neg hk]

/-- What Modify does when it answers a next state (R160). -/
theorem exec_modify_next {i : Instr} {n : RegNum} {m : Modifier} {s t : State} (hs : i.shape = .modify n m)
    (h : exec i s = .next t) : ∃ u, indexUpdate s n (modifierValue s m) true .modify = .ok u ∧
      t = advance (applyUpdate n u (clearLatency s)) := by
  obtain ⟨-, heffect⟩ := exec_eq_next.1 h
  rw [hs] at heffect
  obtain ⟨u, hu, ht⟩ := bind_ok.1 heffect
  exact ⟨u, hu, (Except.ok.inj ht).symm⟩

/-- A statement that passes `Check` is its effect on the state with no MODE1 write in flight. -/
theorem exec_of_passes {i : Instr} {s : State} (h : Passes i s) : exec i s = finish (effect i.shape (clearLatency s)) := by
  have h : check i.shape s = none := h
  rw [exec_eq, statement, h]

/-- Settles O12. -/
theorem modifyUpdatesIndex : Obligations.ModifyUpdatesIndex := by
  intro i n m s hs hpass
  have hexec : exec i s =
      finish ((indexUpdate s n (modifierValue s m) true .modify).bind fun u =>
        .ok (advance (applyUpdate n u (clearLatency s)))) := by
    rw [exec_of_passes hpass, hs]
    rfl
  refine ⟨fun hbroken => ?_, fun hok => ?_⟩
  · rw [hexec, indexUpdate_of_not_updatable hbroken]
    rfl
  · obtain ⟨u, hu, hindex⟩ := indexUpdate_of_updatable hok .modify
    refine ⟨advance (applyUpdate n u (clearLatency s)), by rw [hexec, hu]; rfl, ?_, by simp⟩
    simp [dagRead_applyUpdate, hindex]

/-- Settles O24. -/
theorem modifyFrame : Obligations.ModifyFrame := by
  intro i n m s t hs h
  obtain ⟨u, -, rfl⟩ := exec_modify_next hs h
  refine ⟨by simp, dagKept_applyUpdate (clearLatency s) n u, by simp, by simp, by simp, ?_,
    applyUpdate_only (clearLatency s) n u⟩
  simp [ControlKept]

/-- Settles O27. -/
theorem modifyOverflow : Obligations.ModifyOverflow := by
  intro i n m s t hs h
  obtain ⟨u, hu, rfl⟩ := exec_modify_next hs h
  obtain ⟨hno, hzero, hwrap⟩ := indexUpdate_overflow hu
  have hkept : ¬(hasFlag n = true ∧ WrapCond s n (modifierValue s m)) →
      OverflowKept s (advance (applyUpdate n u (clearLatency s))) :=
    fun hw => overflowKept_applyUpdate (clearLatency s) n (hno fun ⟨_, hf⟩ => hw hf)
  have hraised (hf : hasFlag n = true) :
      OverflowKept s (advance (applyUpdate n u (clearLatency s))) ∨ u.overflow = .draw := by
    by_cases hw : WrapCond s n (modifierValue s m)
    · by_cases hl : dagRead s .l n = 0#32
      · exact .inr (hzero rfl hf hw hl)
      · exact .inr ((hwrap rfl hf hw hl).trans (if_neg nofun))
    · exact .inl (hkept fun hw' => hw hw'.2)
  refine ⟨fun hw => hkept fun hw' => hw hw'.2, fun h7 h15 => hkept fun hw' => (hasFlag_iff.1 hw'.1).elim h7 h15,
    fun h7 => ?_, fun h15 => ?_⟩
  · exact (hraised (hasFlag_iff.2 (.inl h7))).elim .inl fun hd => (raised_applyUpdate_draw (clearLatency s) n hd).1 h7
  · exact (hraised (hasFlag_iff.2 (.inr h15))).elim .inl fun hd => (raised_applyUpdate_draw (clearLatency s) n hd).2 h15

/-! ### Bitrev -/

/-- What Bitrev does when it answers a next state (R165). -/
theorem exec_bitrev_next {i : Instr} {n : RegNum} {v : Word} {s t : State} (hs : i.shape = .bitrev n v)
    (h : exec i s = .next t) : t = advance (dagPut (clearLatency s) .i n (rev32 (dagRead s .i n + v))) := by
  obtain ⟨-, heffect⟩ := exec_eq_next.1 h
  rw [hs] at heffect
  rw [← linearIndex_toInt]
  exact (Except.ok.inj heffect).symm

/-- Settles O13: the reversal is an involution (R110). -/
theorem bitrevReverses : Obligations.BitrevReverses := by
  refine ⟨fun i n v s hs hpass => ?_, fun i n s t t' hs ht ht' => ?_⟩
  · have hexec : exec i s = .next (advance (dagPut (clearLatency s) .i n (rev32 (dagRead s .i n + v)))) := by
      rw [exec_of_passes hpass, hs, ← linearIndex_toInt]
      rfl
    refine ⟨_, hexec, by simp, rfl, fun ty k hk => ?_, fun ty k => dagHidden_dagPut (clearLatency s) .i ty n k _⟩
    exact dagRead_dagPut_other (clearLatency s) .i ty n k _ hk
  · rw [exec_bitrev_next hs ht', exec_bitrev_next hs ht]
    simp [rev32_rev32]

end Sys2Proof.Machine
end

section
/-! Memory accesses (rules R113, R124, R129 to R157): the address on the bus, the data action, and how an access completes. -/

namespace Sys2Proof.Machine

open Sys2Proof.Claims

/-! ### The address -/

theorem bitReversed_iff {s : State} {n : RegNum} :
    bitReversed s n = true ↔ (n = 0 ∧ s.mode1.getLsbD 1 = true) ∨ (n = 8 ∧ s.mode1.getLsbD 0 = true) := by
  have h8 : n.val = 8 ↔ n = 8 := (Fin.ext_iff (b := 8)).symm
  simp [bitReversed, mode1Bit, bitBr0, bitBr8, h8]

theorem outAddr_eq (s : State) (n : RegNum) (a : Word) : outAddr s n a = busAddress s n a := by
  simp only [outAddr, busAddress, bitReversed_iff]

theorem accessAddress_post {s : State} {x : Access} (ho : x.order = .post) : accessAddress s x = postAddress s x.idx := by
  simp only [accessAddress, ho, outAddr_eq]
  rfl

theorem accessAddress_pre {s : State} {x : Access} (ho : x.order = .pre) :
    accessAddress s x = preAddress s x.idx (modifierValue s x.mod) := by
  simp only [accessAddress, ho, outAddr_eq]
  rfl

/-! ### The data action -/

section Move

variable {x : Access} {s : State} {a : Word} {u : Ureg}

theorem move_load_nw {v : Word} (hx : x.xfer = .load u .nw) (ha : admitted s x.bus .nw a = true)
    (hv : cellRead s.mem a.toNat = some v) : move x a s = putNw s u v (broadcasts s x.idx) := by
  simp only [move, hx, memReadNw_eq ha hv, Except.bind]

theorem move_load_lw {lo hi : Word} (hx : x.xfer = .load u .lw) (ha : admitted s x.bus .lw a = true)
    (hlo : cellRead s.mem (longWordCells s a).1.toNat = some lo) (hhi : cellRead s.mem (longWordCells s a).2.toNat = some hi) :
    move x a s = putLw s u (hi ++ lo) := by
  simp only [move, hx, memReadLw_eq ha hlo hhi, Except.bind]

theorem move_store_nw {v : Word} (hx : x.xfer = .store u .nw) (hv : getNw s u = .ok v)
    (ha : admitted s x.bus .nw a = true) : move x a s = .ok (setCell s a v) := by
  simp only [move, hx, hv, Except.bind, memWriteNw, ha, if_true]

theorem move_store_lw {ty : DagType} {n : RegNum} (hx : x.xfer = .store (.dag ty n) .lw)
    (ha : admitted s x.bus .lw a = true) :
    move x a s = .ok (setCell (setCell s (longWordCells s a).1 (dagRead s ty n)) (longWordCells s a).2
      (dagRead s ty (partner n))) := by
  simp only [move, hx, getLw, Except.bind, memWriteLw, ha, if_true, extract_low, extract_high]

theorem move_storeImm_eq {v : Word} (hx : x.xfer = .storeImm v) (ha : admitted s x.bus .nw a = true) :
    move x a s = .ok (setCell s a v) := by
  simp only [move, hx, memWriteNw, ha, if_true]

/-- A load's data action is a register write (R177, R178). -/
theorem move_load_wroteOnly {w : Width} {t : State} (hx : x.xfer = .load u w) (h : move x a s = .ok t) :
    WroteOnly s t u w (broadcasts s x.idx = true) := by
  unfold move at h
  rw [hx] at h
  cases w
  · obtain ⟨v, -, hput⟩ := bind_ok.1 h
    exact putNw_wroteOnly hput
  · obtain ⟨v, -, hput⟩ := bind_ok.1 h
    exact putLw_wroteOnly hput _

/-- A store's data action changes memory alone, and there the cells of the access (R64, R67). -/
theorem move_store_cells {t : State} (hx : IsStore x) (h : move x a s = .ok t) :
    ∃ m, t = { s with mem := m } ∧
      ∀ b, (∀ c ∈ cellsOf s (widthOf x) a, c.toNat ≠ b) → cellRead m b = cellRead s.mem b := by
  rcases hx with ⟨u, w, hx⟩ | ⟨v, hx⟩
  · unfold move at h
    rw [hx] at h
    simp only [widthOf, hx]
    cases w
    · obtain ⟨v, -, hwrite⟩ := bind_ok.1 h
      obtain ⟨-, rfl⟩ := memWriteNw_ok hwrite
      exact ⟨_, rfl, fun b hb => cellRead_cellWrite_other _ _ _ _ (hb a (by simp [cellsOf])).symm⟩
    · obtain ⟨v, -, hwrite⟩ := bind_ok.1 h
      obtain ⟨-, rfl⟩ := memWriteLw_ok hwrite
      refine ⟨_, rfl, fun b hb => ?_⟩
      simp only [cellsOf, List.forall_mem_cons] at hb
      obtain ⟨h1, h2, -⟩ := hb
      exact (cellRead_cellWrite_other _ _ _ _ h2.symm).trans (cellRead_cellWrite_other _ _ _ _ h1.symm)
  · refine ⟨_, move_storeImm hx h, fun b hb => cellRead_cellWrite_other _ _ _ _ (hb a ?_).symm⟩
    simp [widthOf, hx, cellsOf]

/-- The overflow status an access leaves to its index update: that of the state before, with the word loaded if it is STKYX. -/
theorem move_sameStatus {t : State} (h : move x (accessAddress s x) (clearLatency s) = .ok t) :
    SameStatus (statusBefore s x) t := by
  cases hsys : systemLoaded x with
  | none =>
    obtain ⟨hstkyx, h7, h15⟩ := move_status hsys h
    have hbefore : statusBefore s x = s := by
      unfold statusBefore
      split
      · rename_i hx
        rw [systemLoaded, hx] at hsys
        cases hsys
      · rfl
    rw [hbefore]
    exact ⟨hstkyx, h7, h15, (move_quiet hsys h).plat⟩
  | some r =>
    obtain ⟨hx, v, hread, -, rfl⟩ := move_system hsys h
    obtain ⟨-, hcell⟩ := memReadNw_ok hread
    cases r
    case stkyx =>
      have hbefore : statusBefore s x = { s with stkyx := v } := by
        simp only [statusBefore, hx]
        rw [show cellRead s.mem (accessAddress s x).toNat = some v from hcell]
        rfl
      rw [hbefore]
      exact ⟨rfl, rfl, rfl, rfl⟩
    all_goals
      have hbefore : statusBefore s x = s := by simp only [statusBefore, hx]
      rw [hbefore]
      exact ⟨rfl, rfl, rfl, rfl⟩

end Move

/-! ### The index update of a post-modify access -/

section UnderMode

variable (s : State) (m : Word) (n : RegNum) (u : IndexUpdate)

@[simp] theorem underMode_applyUpdate_mmask : (underMode m (applyUpdate n u) s).mmask = s.mmask := by simp [underMode]
@[simp] theorem underMode_applyUpdate_pex : (underMode m (applyUpdate n u) s).pex = s.pex := by simp [underMode]
@[simp] theorem underMode_applyUpdate_pey : (underMode m (applyUpdate n u) s).pey = s.pey := by simp [underMode]
@[simp] theorem underMode_applyUpdate_others : (underMode m (applyUpdate n u) s).others = s.others := by simp [underMode]
@[simp] theorem underMode_applyUpdate_mem : (underMode m (applyUpdate n u) s).mem = s.mem := by simp [underMode]
@[simp] theorem underMode_applyUpdate_mode1Changed :
    (underMode m (applyUpdate n u) s).mode1Changed = s.mode1Changed := by simp [underMode]
@[simp] theorem underMode_applyUpdate_pc : (underMode m (applyUpdate n u) s).pc = s.pc := by simp [underMode]
@[simp] theorem underMode_applyUpdate_bitTested : (underMode m (applyUpdate n u) s).bitTested = s.bitTested := by simp [underMode]
@[simp] theorem underMode_applyUpdate_prog : (underMode m (applyUpdate n u) s).prog = s.prog := by simp [underMode]
@[simp] theorem underMode_applyUpdate_core : (underMode m (applyUpdate n u) s).core = s.core := by simp [underMode]
@[simp] theorem underMode_applyUpdate_plat : (underMode m (applyUpdate n u) s).plat = s.plat := by simp [underMode]

/-- Seen with the MODE1 before it, a post-modify access has done a plain update (R122). -/
theorem asBefore_underMode (s1 : State) : asBefore s (advance (underMode s.mode1 (applyUpdate n u) s1)) =
    advance (applyUpdate n u (asBefore s s1)) := by
  exact congrArg advance (underMode_applyUpdate_at s1 s.mode1 n u)

/-- The index register after a post-modify access. -/
theorem dagRead_asBefore_index (s1 : State) :
    dagRead (asBefore s (advance (underMode s.mode1 (applyUpdate n u) s1))) .i n = u.index := by
  rw [asBefore_underMode]
  simp [dagRead_applyUpdate]

/-- A post-modify access changes, beside what its data action changes, its index register alone. -/
theorem dagKept_underMode {s s1 : State} {ex : DagType → RegNum → Prop} (h : DagKept s s1 ex) (n : RegNum) (u : IndexUpdate) :
    DagKept s (advance (underMode s.mode1 (applyUpdate n u) s1)) (fun ty k => (ty = .i ∧ k = n) ∨ ex ty k) := by
  rw [DagKept, asBefore_underMode]
  refine ⟨fun ty k hk => ?_, fun ty k => ?_⟩
  · obtain ⟨hi, hex⟩ := not_or.1 hk
    rw [dagRead_advance, dagRead_applyUpdate, if_neg hi]
    exact h.1 ty k hex
  · exact ((quiet_applyUpdate _ n u).hidden ty k).trans (h.2 ty k)

/-- The overflow status after a post-modify access is that of its index update. -/
theorem sameStatus_underMode : SameStatus (applyUpdate n u s) (advance (underMode m (applyUpdate n u) s)) := by
  obtain ⟨h1, h2, h3⟩ := underMode_applyUpdate_status s m n u
  exact ⟨h1, h2, h3, by simp⟩

end UnderMode

/-! ### How an access completes or stops -/

section Exec

variable {i : Instr} {x : Access} {s : State}

theorem exec_post (hs : i.shape = .access x) (ho : x.order = .post) (hp : Passes i s) :
    exec i s = finish (postAccess x (clearLatency s)) := by
  rw [exec_of_passes hp, hs]
  simp only [effect, ho]

theorem exec_pre (hs : i.shape = .access x) (ho : x.order = .pre) (hp : Passes i s) :
    exec i s = finish (preAccess x (clearLatency s)) := by
  rw [exec_of_passes hp, hs]
  simp only [effect, ho]

/-- A post-modify access whose data action and index update can be done completes (R129). -/
theorem exec_post_of_move {s1 : State} (hs : i.shape = .access x) (ho : x.order = .post) (hp : Passes i s)
    (hmove : move x (postAddress s x.idx) (clearLatency s) = .ok s1)
    (hu : Updatable s x.idx (modifierValue s x.mod) (s.mode1.getLsbD 24)) :
    ∃ u : IndexUpdate, u.index = nextIndex s x.idx (modifierValue s x.mod) (s.mode1.getLsbD 24) ∧
      exec i s = .next (advance (underMode s.mode1 (applyUpdate x.idx u) s1)) := by
  obtain ⟨u, hupdate, hindex⟩ := indexUpdate_of_updatable (s := clearLatency s) hu .access
  have hmove : move x (accessAddress (clearLatency s) x) (clearLatency s) = .ok s1 := by
    rw [accessAddress_post ho]; exact hmove
  have hupdate : indexUpdate (clearLatency s) x.idx (modifierValue (clearLatency s) x.mod) (cbufen (clearLatency s)) .access =
      .ok u := hupdate
  refine ⟨u, hindex, ?_⟩
  rw [exec_post hs ho hp, postAccess, hmove]
  simp only [Except.bind, hupdate]
  rfl

theorem preAccess_of_sameSpace
    (h : sameSpace s (dagRead s .i x.idx) (trunc32 ((dagRead s .i x.idx).toNat + modifierValue s x.mod)) = true) :
    preAccess x s = (move x (accessAddress s x) s).bind fun s1 => .ok (advance s1) := if_pos h

/-- A pre-modify access in its memory space whose data action can be done completes (R145). -/
theorem exec_pre_of_move {s1 : State} (hs : i.shape = .access x) (ho : x.order = .pre) (hp : Passes i s)
    (hspace : sameSpace s (dagRead s .i x.idx) (trunc32 ((dagRead s .i x.idx).toNat + modifierValue s x.mod)) = true)
    (hmove : move x (preAddress s x.idx (modifierValue s x.mod)) (clearLatency s) = .ok s1) :
    exec i s = .next (advance s1) := by
  have hmove : move x (accessAddress (clearLatency s) x) (clearLatency s) = .ok s1 := by
    rw [accessAddress_pre ho]; exact hmove
  rw [exec_pre hs ho hp, preAccess_of_sameSpace (s := clearLatency s) hspace, hmove]
  rfl

/-- An access whose data action stops is that stop (R129, R145). -/
theorem exec_of_move_error {e : Stop} (hs : i.shape = .access x) (hp : Passes i s)
    (hspace : x.order = .pre →
      sameSpace s (dagRead s .i x.idx) (trunc32 ((dagRead s .i x.idx).toNat + modifierValue s x.mod)) = true)
    (hmove : move x (accessAddress s x) (clearLatency s) = .error e) : exec i s = halt e := by
  have hmove : move x (accessAddress (clearLatency s) x) (clearLatency s) = .error e := hmove
  cases ho : x.order with
  | post => rw [exec_post hs ho hp, postAccess, hmove]; rfl
  | pre => rw [exec_pre hs ho hp, preAccess_of_sameSpace (s := clearLatency s) (hspace ho), hmove]; rfl

end Exec

/-! ### Loads complete -/

/-- The index update after a load leaves the register loaded, unless that is STKYX or the index register itself (R113, R129). -/
theorem loaded_underMode {s s1 : State} {u : Ureg} {v : Word} {bc : Prop} {n : RegNum} (hl : Loaded s s1 u v bc)
    (hm : u ≠ .system .mode1 → s1.mode1 = s.mode1) (hdag : ∀ ty k, u = .dag ty k → k ≠ n) (hu : u ≠ .system .stkyx)
    (up : IndexUpdate) : Loaded s (advance (underMode s.mode1 (applyUpdate n up) s1)) u v bc := by
  cases u with
  | dag ty k =>
    have hk := hdag ty k rfl
    rw [underMode_applyUpdate (hm nofun)]
    simpa [Loaded, dagRead_applyUpdate, hk] using hl
  | data d =>
    have hread (d' : Dreg) : dataRead (advance (underMode s.mode1 (applyUpdate n up) s1)) d' = dataRead s1 d' :=
      dataRead_congr (by simp) (by simp) d'
    simpa only [Loaded, hread] using hl
  | system r =>
    cases r
    · simpa [Loaded] using hl
    · exact absurd rfl hu
    · simpa [Loaded] using hl
  | other nm => simpa [Loaded, otherRead] using hl

/-- Settles O1: the data action writes the register; the index update leaves it, or is made on the STKYX loaded. -/
theorem postLoadCompletes : Obligations.PostLoadCompletes := by
  intro i x u s v hs ho hx hp ha hv hknown hup
  obtain ⟨s1, hput⟩ := putNw_of_known (s := clearLatency s) hknown v (broadcasts s x.idx)
  have hmove := (move_load_nw (s := clearLatency s) hx ha hv).trans hput
  obtain ⟨up, hindex, hexec⟩ := exec_post_of_move hs ho hp hmove hup
  have hw := putNw_wroteOnly hput
  have hl := loaded_putNw hput
  rw [broadcasts_iff] at hl
  refine ⟨_, hexec, fun hstkyx => ?_, ?_, ?_, ?_⟩
  · have hne : ∀ ty k, u = .dag ty k → k ≠ x.idx := by
      rintro ty k rfl
      exact wellFormed_post_ne hs ho hx (check_wellFormed hp)
    have hl' : Loaded s s1 u v (Broadcast s x.idx) := loaded_advance hl
    exact loaded_underMode hl' (fun h => (hw.mode1 h).1) hne hstkyx up
  · rintro rfl
    obtain ⟨-, rfl⟩ := putNw_system hput
    have hq := quiet_applyUpdate (systemWrite (clearLatency s) .stkyx v) x.idx up
    rw [underMode_applyUpdate (by rfl)]
    exact ⟨hq.sticky, hq.flags⟩
  · exact (dagRead_asBefore_index s x.idx up s1).trans hindex
  · have hpc : s1.pc = s.pc := by rw [hw.fields]; rfl
    simp [hpc]

/-- A long-word register write of X[n] and its partner leaves the halves in them (R178, R24). -/
theorem loadedLong_putLw {s t : State} {ty : DagType} {n : RegNum} {lo hi : Word}
    (h : putLw s (.dag ty n) (hi ++ lo) = .ok t) : LoadedLong t ty n lo hi := by
  obtain ⟨_, _, hd, rfl⟩ := putLw_ok h
  cases hd
  rw [extract_low, extract_high]
  have hne := partner_ne n
  refine ⟨?_, ?_, ?_⟩
  · simp [dagRead_dagWrite, hne.symm]
  · simp [dagRead_dagWrite]
  · rintro rfl
    simp [dagRead_dagWrite, hne.symm]

/-- Settles O2. -/
theorem postLoadLongCompletes : Obligations.PostLoadLongCompletes := by
  intro i x ty n s lo hi hs ho hx hp ha hlo hhi hup
  obtain ⟨s1, hput⟩ : ∃ s1, putLw (clearLatency s) (.dag ty n) (hi ++ lo) = .ok s1 := ⟨_, rfl⟩
  have hmove := (move_load_lw (s := clearLatency s) hx ha hlo hhi).trans hput
  obtain ⟨up, hindex, hexec⟩ := exec_post_of_move hs ho hp hmove hup
  have hwf := check_wellFormed hp
  have hn : n ≠ x.idx := wellFormed_post_ne hs ho hx hwf
  have hpartner : partner n ≠ x.idx := wellFormed_post_partner_ne hs ho hx hwf
  have hq := quiet_putLw hput
  rw [underMode_applyUpdate (show s1.mode1 = s.mode1 from hq.mode1)] at hexec
  refine ⟨_, hexec, ?_, ?_, by simp [hq.pc]⟩
  · simpa [LoadedLong, dagRead_applyUpdate, hn, hpartner] using loadedLong_putLw hput
  · simp [dagRead_applyUpdate, hindex]

/-- Settles O7. -/
theorem preLoadCompletes : Obligations.PreLoadCompletes := by
  intro i x u s v hs ho hx hp hspace ha hv hknown
  obtain ⟨s1, hput⟩ := putNw_of_known (s := clearLatency s) hknown v (broadcasts s x.idx)
  have hmove := (move_load_nw (s := clearLatency s) hx ha hv).trans hput
  have hl := loaded_putNw hput
  rw [broadcasts_iff] at hl
  have hpc : s1.pc = s.pc := by rw [(putNw_wroteOnly hput).fields]; rfl
  exact ⟨_, exec_pre_of_move hs ho hp hspace hmove, loaded_advance hl, congrArg (· + 1) hpc⟩

/-- Settles O8. -/
theorem preLoadLongCompletes : Obligations.PreLoadLongCompletes := by
  intro i x ty n s lo hi hs ho hx hp hspace ha hlo hhi
  obtain ⟨s1, hput⟩ : ∃ s1, putLw (clearLatency s) (.dag ty n) (hi ++ lo) = .ok s1 := ⟨_, rfl⟩
  have hmove := (move_load_lw (s := clearLatency s) hx ha hlo hhi).trans hput
  exact ⟨_, exec_pre_of_move hs ho hp hspace hmove, (loadedLong_putLw hput : LoadedLong s1 ty n lo hi),
    congrArg (· + 1) (quiet_putLw hput).pc⟩

/-! ### Stores complete -/

/-- A post-modify access whose data action changes memory alone leaves that memory and the new index. -/
theorem exec_post_of_store {i : Instr} {x : Access} {s : State} {m : Memory} (hs : i.shape = .access x)
    (ho : x.order = .post) (hp : Passes i s)
    (hmove : move x (postAddress s x.idx) (clearLatency s) = .ok { clearLatency s with mem := m })
    (hup : Updatable s x.idx (modifierValue s x.mod) (s.mode1.getLsbD 24)) :
    ∃ t, exec i s = .next t ∧ t.mem = m ∧
      dagRead t .i x.idx = nextIndex s x.idx (modifierValue s x.mod) (s.mode1.getLsbD 24) ∧ t.pc = s.pc + 1 := by
  obtain ⟨up, hindex, hexec⟩ := exec_post_of_move hs ho hp hmove hup
  rw [underMode_applyUpdate (show ({ clearLatency s with mem := m } : State).mode1 = s.mode1 from rfl)] at hexec
  exact ⟨_, hexec, by simp, by simp [dagRead_applyUpdate, hindex], by simp⟩

/-- Settles O3. -/
theorem postStoreCompletes : Obligations.PostStoreCompletes := by
  intro i x u s v hs ho hx hp ha hv hup
  have hmove := move_store_nw (s := clearLatency s) hx (getNw_of_storedValue (s := clearLatency s) hv) ha
  obtain ⟨t, hexec, hmem, hindex, hpc⟩ := exec_post_of_store hs ho hp hmove hup
  exact ⟨t, hexec, by rw [hmem, cellRead_cellWrite_same], hindex, hpc⟩

/-- Settles O5. -/
theorem postStoreImmediateCompletes : Obligations.PostStoreImmediateCompletes := by
  intro i x n s hs ho hx hp ha hup
  have hmove := move_storeImm_eq (s := clearLatency s) hx ha
  obtain ⟨t, hexec, hmem, hindex, hpc⟩ := exec_post_of_store hs ho hp hmove hup
  exact ⟨t, hexec, by rw [hmem, cellRead_cellWrite_same], hindex, hpc⟩

/-- The two cells of a long word after both halves are written, the second last (R67). -/
theorem cellRead_twoCells (m : Memory) {a b : Word} (v w : Word) :
    (a ≠ b → cellRead (cellWrite (cellWrite m a.toNat v) b.toNat w) a.toNat = some v) ∧
      cellRead (cellWrite (cellWrite m a.toNat v) b.toNat w) b.toNat = some w := by
  refine ⟨fun hne => ?_, cellRead_cellWrite_same _ _ _⟩
  rw [cellRead_cellWrite_other _ _ _ _ (mt BitVec.eq_of_toNat_eq hne), cellRead_cellWrite_same]

/-- Settles O4. -/
theorem postStoreLongCompletes : Obligations.PostStoreLongCompletes := by
  intro i x ty n s hs ho hx hp ha hup
  have hmove := move_store_lw (s := clearLatency s) hx ha
  obtain ⟨t, hexec, hmem, hindex, hpc⟩ := exec_post_of_store hs ho hp hmove hup
  obtain ⟨hlo, hhi⟩ := cellRead_twoCells s.mem (a := (longWordCells s (postAddress s x.idx)).1)
    (b := (longWordCells s (postAddress s x.idx)).2) (dagRead s ty n) (dagRead s ty (partner n))
  exact ⟨t, hexec, fun hne => hmem ▸ hlo hne, hmem ▸ hhi, hindex, hpc⟩

/-- Settles O9. -/
theorem preStoreCompletes : Obligations.PreStoreCompletes := by
  intro i x u s v hs ho hx hp hspace ha hv
  have hmove := move_store_nw (s := clearLatency s) hx (getNw_of_storedValue (s := clearLatency s) hv) ha
  exact ⟨_, exec_pre_of_move hs ho hp hspace hmove, cellRead_cellWrite_same _ _ _, rfl⟩

/-- Settles O10. -/
theorem preStoreLongCompletes : Obligations.PreStoreLongCompletes := by
  intro i x ty n s hs ho hx hp hspace ha
  have hmove := move_store_lw (s := clearLatency s) hx ha
  obtain ⟨hlo, hhi⟩ := cellRead_twoCells s.mem (a := (longWordCells s (preAddress s x.idx (modifierValue s x.mod))).1)
    (b := (longWordCells s (preAddress s x.idx (modifierValue s x.mod))).2) (dagRead s ty n) (dagRead s ty (partner n))
  exact ⟨_, exec_pre_of_move hs ho hp hspace hmove, hlo, hhi, rfl⟩

end Sys2Proof.Machine
end

section
/-! What a memory access leaves unchanged, its overflow status (rules R120, R121), and where it stops (rules R32, R64, R69,
R116). -/

namespace Sys2Proof.Machine

open Sys2Proof.Claims

/-! ### Frames -/

/-- What an index update can do to the status it is made on (R120). -/
theorem overflowOnly_applyUpdate (s : State) (n : RegNum) (u : IndexUpdate) : OverflowOnly s (applyUpdate n u s) n :=
  applyUpdate_only s n u

theorem overflowOnly_of_kept {s t : State} (h : OverflowKept s t) (n : RegNum) : OverflowOnly s t n := by
  obtain ⟨h1, h2, h3⟩ := h
  exact ⟨fun _ _ _ => by rw [h1], fun _ => h2, fun _ => h3⟩

/-- The status an access leaves: that of its index update on the status its data action leaves, or that status itself. -/
theorem exec_access_status {i : Instr} {x : Access} {s t : State} (hs : i.shape = .access x) (h : exec i s = .next t) :
    OverflowOnly (statusBefore s x) t x.idx ∧ (x.order = .pre → OverflowKept (statusBefore s x) t) := by
  obtain ⟨-, s1, hmove, ⟨ho, u, -, rfl⟩ | ⟨-, rfl⟩⟩ := exec_access_next hs h
  · refine ⟨?_, fun hpre => absurd (ho.symm.trans hpre) nofun⟩
    obtain ⟨h1, h2, h3, -⟩ := sameStatus_underMode s1 s.mode1 x.idx u
    rw [← (move_sameStatus hmove).overflowOnly, OverflowOnly, h1, h2, h3]
    exact overflowOnly_applyUpdate s1 x.idx u
  · have hkept : OverflowKept (statusBefore s x) (advance s1) := by
      obtain ⟨h1, h2, h3, -⟩ := move_sameStatus hmove
      exact ⟨h1, h2, h3⟩
    exact ⟨overflowOnly_of_kept hkept _, fun _ => hkept⟩

theorem statusBefore_of_isStore {s : State} {x : Access} (hx : IsStore x) : statusBefore s x = s := by
  unfold statusBefore
  rcases hx with ⟨u, w, hx⟩ | ⟨n, hx⟩ <;> rw [hx]

/-- Settles O21: the data action of a store changes memory alone, the index update its register and the status alone. -/
theorem storeFrame : Obligations.StoreFrame := by
  intro i x s t hs hx h
  have hstatus := exec_access_status hs h
  rw [statusBefore_of_isStore hx] at hstatus
  obtain ⟨-, s1, hmove, hcase⟩ := exec_access_next hs h
  obtain ⟨m, rfl, hcells⟩ := move_store_cells hx hmove
  have hcells : ∀ b, (∀ c ∈ cellsOf s (widthOf x) (accessAddress s x), c.toNat ≠ b) → cellRead m b = cellRead s.mem b := hcells
  have hdag : DagKept s { clearLatency s with mem := m } fun _ _ => False := dagKept_of_banks rfl rfl _
  rcases hcase with ⟨ho, u, -, rfl⟩ | ⟨ho, rfl⟩
  · refine ⟨by simpa using hcells, dagKept_mono (dagKept_underMode hdag x.idx u) ?_, by simp, by simp, by simp, ?_, hstatus⟩
    · rintro ty k (hk | hk)
      · exact ⟨ho, hk⟩
      · exact hk.elim
    · simp [ControlKept]
  · exact ⟨hcells, dagKept_mono hdag fun _ _ => False.elim, rfl, rfl, rfl, ⟨rfl, rfl, rfl, rfl, rfl, rfl, rfl⟩, hstatus⟩

/-- Settles O22: the data action of a load is one register write. -/
theorem loadFrame : Obligations.LoadFrame := by
  intro i x u w s t hs hx h
  have hstatus := exec_access_status hs h
  obtain ⟨-, s1, hmove, hcase⟩ := exec_access_next hs h
  have hw := move_load_wroteOnly hx hmove
  rw [show (broadcasts (clearLatency s) x.idx = true) = Broadcast s x.idx from propext broadcasts_iff] at hw
  have hfields := hw.fields
  have hdag : DagKept s s1 (loadWritesDag u w) := hw.dag
  rcases hcase with ⟨ho, up, -, rfl⟩ | ⟨ho, rfl⟩
  · refine ⟨by rw [hfields]; simp, dagKept_mono (dagKept_underMode hdag x.idx up) ?_, fun d hd => ?_, ?_, ?_, ?_, hstatus⟩
    · exact fun ty k hk => hk.imp_left fun hi => ⟨ho, hi⟩
    · exact (dataRead_congr (by simp) (by simp) d).trans (hw.data d hd)
    · simpa [OthersKept, otherRead] using hw.others
    · rw [hfields]; simp [ProgramKept]
    · simpa [ModesKept] using (⟨hw.mode1, hw.mmask⟩ : _ ∧ _)
  · refine ⟨by rw [hfields]; rfl, dagKept_mono hdag fun _ _ => .inr, hw.data, hw.others, ?_, ⟨hw.mode1, hw.mmask⟩, hstatus⟩
    rw [hfields]
    exact ⟨rfl, rfl, rfl, rfl⟩

/-! ### Overflow status -/

/-- The overflow of an access's index update, made on any status (R120, R121): none without a wrap of I7 or I15 in an enabled
buffer, a sure one in an active buffer, a free value with a zero length. -/
theorem applyUpdate_overflow {s : State} {n : RegNum} {m : Int} {en : Bool} {u : IndexUpdate}
    (hu : indexUpdate s n m en .access = .ok u) (q : State) :
    (en = false → OverflowKept q (applyUpdate n u q)) ∧ (¬WrapCond s n m → OverflowKept q (applyUpdate n u q)) ∧
      (n ≠ 7 → n ≠ 15 → OverflowKept q (applyUpdate n u q)) ∧
      (en = true → WrapCond s n m → dagRead s .l n ≠ 0#32 →
        (n = 7 → Raised7 q (applyUpdate n u q)) ∧ (n = 15 → Raised15 q (applyUpdate n u q))) ∧
      (en = true → WrapCond s n m → dagRead s .l n = 0#32 →
        (n = 7 → OverflowKept q (applyUpdate n u q) ∨ Raised7 q (applyUpdate n u q)) ∧
          (n = 15 → OverflowKept q (applyUpdate n u q) ∨ Raised15 q (applyUpdate n u q))) := by
  obtain ⟨hno, hzero, hwrap⟩ := indexUpdate_overflow hu
  refine ⟨fun hen => ?_, fun hw => ?_, fun h7 h15 => ?_, fun hen hw hl => ?_, fun hen hw hl => ?_⟩
  · exact overflowKept_applyUpdate q n (hno fun h => absurd (hen.symm.trans h.1) nofun)
  · exact overflowKept_applyUpdate q n (hno fun h => hw h.2.2)
  · exact overflowKept_applyUpdate q n (hno fun h => (hasFlag_iff.1 h.2.1).elim h7 h15)
  · have hsure (hf : n = 7 ∨ n = 15) := raised_applyUpdate_sure q n (hwrap hen (hasFlag_iff.2 hf) hw hl)
    exact ⟨fun h7 => (hsure (.inl h7)).1 h7, fun h15 => (hsure (.inr h15)).2 h15⟩
  · have hdraw (hf : n = 7 ∨ n = 15) := raised_applyUpdate_draw q n (hzero hen (hasFlag_iff.2 hf) hw hl)
    exact ⟨fun h7 => (hdraw (.inl h7)).1 h7, fun h15 => (hdraw (.inr h15)).2 h15⟩

/-- Settles O25: the index update is made on the status of `statusBefore`. -/
theorem accessOverflow : Obligations.AccessOverflow := by
  intro i x s t hs ho h
  obtain ⟨-, s1, hmove, ⟨-, u, hu, rfl⟩ | ⟨hpre, -⟩⟩ := exec_access_next hs h
  · have hbefore := move_sameStatus hmove
    obtain ⟨h1, h2, h3, -⟩ := sameStatus_underMode s1 s.mode1 x.idx u
    rw [← hbefore.overflowKept, ← hbefore.raised7, ← hbefore.raised15, OverflowKept, Raised7, Raised15, h1, h2, h3]
    exact applyUpdate_overflow hu s1
  · exact absurd (ho.symm.trans hpre) nofun

/-! ### Stops -/

/-- Settles O29. -/
theorem circularPreconditionFaults : Obligations.CircularPreconditionFaults := by
  intro i x s s1 hs ho hp hmove hbroken
  have hmove : move x (accessAddress (clearLatency s) x) (clearLatency s) = .ok s1 := hmove
  have hupdate : indexUpdate (clearLatency s) x.idx (modifierValue (clearLatency s) x.mod) (cbufen (clearLatency s)) .access =
      .error (.fault .circularPrecondition) := indexUpdate_of_not_updatable (s := clearLatency s) hbroken .access
  rw [exec_post hs ho hp, postAccess, hmove]
  simp only [Except.bind, hupdate]
  rfl

/-- A store of a register of the platform to an address that is not admitted is stuck, and so is a load from one (R64). -/
theorem move_of_not_admitted {x : Access} {a : Word} {s : State} (hwf : x.illFormed = none)
    (hknown : ∀ u w, x.xfer = .store u w → Known s u) (ha : admitted s x.bus (widthOf x) a = false) :
    move x a s = .error (.fault .notAdmitted) := by
  rcases x with ⟨b, k, o, m, t⟩
  cases t with
  | storeImm n =>
    have ha : admitted s b .nw a = false := ha
    simp [move, memWriteNw, ha]
  | load u w =>
    have ha : admitted s b w a = false := ha
    cases w <;> simp [move, memReadNw, memReadLw, ha, Except.bind]
  | store u w =>
    have ha : admitted s b w a = false := ha
    cases w with
    | nw =>
      obtain ⟨v, hv⟩ := getNw_of_known (hknown u .nw rfl)
      simp [move, hv, Except.bind, memWriteNw, ha]
    | lw =>
      have hdag : u.isDag = true := by
        cases u with
        | dag ty n => rfl
        | _ => simp [Access.illFormed, Bus.ownsUreg, Ureg.isDag] at hwf
      obtain ⟨ty, n, rfl⟩ := isDag_iff.1 hdag
      have ha : admitted s b .lw a = false := ha
      simp [move, getLw, Except.bind, memWriteLw, ha]

/-- A load from a cell nothing has written is a fault (R64). -/
theorem move_of_unwritten {x : Access} {a : Word} {s : State} {u : Ureg} {w : Width} (hx : x.xfer = .load u w)
    (ha : admitted s x.bus w a = true) (hcell : ∃ c ∈ cellsOf s w a, cellRead s.mem c.toNat = none) :
    move x a s = .error (.fault .unwrittenMemory) := by
  obtain ⟨c, hc, hnone⟩ := hcell
  cases w with
  | nw =>
    obtain rfl : c = a := by simpa [cellsOf] using hc
    simp [move, hx, memReadNw, ha, cell, hnone, Except.bind]
  | lw =>
    simp only [cellsOf, List.mem_cons, List.not_mem_nil, or_false] at hc
    simp only [move, hx, memReadLw, ha, if_true, cell]
    rcases hc with rfl | rfl
    · simp only [hnone, Except.bind]
    · cases cellRead s.mem (longWordCells s a).1.toNat <;> simp only [hnone, Except.bind]

/-- Settles O32. -/
theorem memoryStops : Obligations.MemoryStops := by
  intro i x s hs hp
  have hwf : x.illFormed = none := by
    have hwf := check_wellFormed hp
    rwa [hs] at hwf
  refine ⟨fun ho hspace => ?_, fun hreach hknown => ?_⟩
  · rw [exec_pre hs ho hp, preAccess]
    exact congrArg finish (if_neg (by rw [Bool.not_eq_true]; exact hspace))
  · have hspace (hpre : x.order = .pre) := hreach.resolve_left fun hpost => absurd (hpre.symm.trans hpost) nofun
    refine ⟨fun ha => exec_of_move_error hs hp hspace (e := .fault .notAdmitted) ?_,
      fun ha ⟨u, w, hx, hcell⟩ => exec_of_move_error hs hp hspace (e := .fault .unwrittenMemory) ?_⟩
    · exact move_of_not_admitted (s := clearLatency s) hwf hknown ha
    · have ha : admitted s x.bus w (accessAddress s x) = true := by simpa only [widthOf, hx] using ha
      exact move_of_unwritten (s := clearLatency s) hx ha hcell

/-! ### Registers the platform does not have -/

theorem outside_cases {s : State} {u : Ureg} {name : Ident} (h : Outside s u name) :
    (u = .other name ∧ otherRead s name = none) ∨ ∃ r, u = .system r ∧ isSystemUreg s r = false ∧ name = r.spell := by
  refine h.imp (fun ⟨hu, hname⟩ => ⟨hu, ?_⟩) fun ⟨r, hu, hr, hname⟩ => ⟨r, hu, decide_eq_false hr, hname⟩
  rw [otherRead, List.lookup_eq_none_iff]
  rintro ⟨k, v⟩ hmem
  rw [bne_iff_ne]
  rintro rfl
  exact hname (List.mem_map_of_mem hmem)

theorem getNw_of_outside {s : State} {u : Ureg} {name : Ident} (h : Outside s u name) :
    getNw s u = .error (.refused (.notUniversalRegister name)) := by
  rcases outside_cases h with ⟨rfl, hno⟩ | ⟨r, rfl, hno, rfl⟩ <;> simp [getNw, hno]

theorem putNw_of_outside {s : State} {u : Ureg} {name : Ident} (h : Outside s u name) (v : Word) (bc : Bool) :
    putNw s u v bc = .error (.refused (.notUniversalRegister name)) := by
  rcases outside_cases h with ⟨rfl, hno⟩ | ⟨r, rfl, hno, rfl⟩ <;> simp [putNw, hno]

theorem isDag_of_outside {s : State} {u : Ureg} {name : Ident} (h : Outside s u name) : u.isDag = false := by
  rcases h with ⟨rfl, -⟩ | ⟨r, rfl, -⟩ <;> rfl

/-- A move from a register the platform does not have is refused; the word read is never written. -/
theorem moveRegister_of_outside_source {s : State} {u u' : Ureg} {name : Ident} (h : Outside s u name)
    (hdag : (u'.isDag || u.isDag) = true) : moveRegister u' u s = .error (.refused (.notUniversalRegister name)) := by
  have hread : movedWord s u = .error (.refused (.notUniversalRegister name)) := by
    have hget := getNw_of_outside h
    rcases h with ⟨rfl, -⟩ | ⟨r, rfl, -⟩ <;> exact hget
  rw [moveRegister_eq s hdag, hread]
  rfl

/-- A move into a register the platform does not have is refused; its source is a DAG register and can be read (R172). -/
theorem moveRegister_of_outside_dest {s : State} {u u' : Ureg} {name : Ident} (h : Outside s u name)
    (hdag : (u.isDag || u'.isDag) = true) : moveRegister u u' s = .error (.refused (.notUniversalRegister name)) := by
  rw [isDag_of_outside h, Bool.false_or] at hdag
  obtain ⟨ty, n, rfl⟩ := isDag_iff.1 hdag
  rw [moveRegister_eq s (by simp [Ureg.isDag])]
  exact putNw_of_outside h _ _

/-- Settles O34. -/
theorem unknownRegisterIsRefused : Obligations.UnknownRegisterIsRefused := by
  intro i s u name hp hout
  have hout' : Outside (clearLatency s) u name := hout
  refine ⟨fun x v hs hx hspace ha hv => ?_, fun x hs hx hspace => ?_, ?_, ?_⟩
  · refine exec_of_move_error hs hp hspace (e := .refused (.notUniversalRegister name)) ?_
    exact (move_load_nw (s := clearLatency s) hx ha hv).trans (putNw_of_outside hout' _ _)
  · refine exec_of_move_error hs hp hspace (e := .refused (.notUniversalRegister name)) ?_
    simp only [move, hx, getNw_of_outside hout', Except.bind]
  · rintro v rfl
    rw [exec_of_passes hp]
    simp only [Instr.shape, effect, putNw_of_outside hout', Except.bind]
    rfl
  · rintro u' (rfl | rfl)
    · rw [exec_of_passes hp]
      simp only [Instr.shape, effect, moveRegister_of_outside_dest hout' (isDag_of_check_mov hp), Except.bind]
      rfl
    · rw [exec_of_passes hp]
      simp only [Instr.shape, effect, moveRegister_of_outside_source hout' (isDag_of_check_mov hp), Except.bind]
      rfl

end Sys2Proof.Machine
end

section
/-! The dual move (rules R140, R239): two loads and two index updates in one step. -/

namespace Sys2Proof.Machine

open Sys2Proof.Claims

/-! ### The loads of data registers -/

/-- A load of a data register, duplicated in a broadcast (R177, R183). -/
def dataLoad (s : State) (d : Dreg) (v : Word) (bc : Bool) : State :=
  if bc then dataWrite (dataWrite s d (toData v)) (comp d) (toData v) else dataWrite s d (toData v)

theorem putNw_data (s : State) (d : Dreg) (v : Word) (bc : Bool) : putNw s (.data d) v bc = .ok (dataLoad s d v bc) := rfl

/-- What a data register holds after a load of one. -/
theorem dataRead_dataLoad (s : State) (d d' : Dreg) (v : Word) (bc : Bool) : dataRead (dataLoad s d v bc) d' =
    if d' = d ∨ (bc = true ∧ d' = comp d) then toData v else dataRead s d' := by
  by_cases hd : d' = d
  · subst hd
    cases bc <;> simp [dataLoad, dataRead_dataWrite_other, (comp_ne d').symm]
  · cases bc
    · simp [dataLoad, hd, dataRead_dataWrite_other]
    · by_cases hc : d' = comp d
      · subst hc; simp [dataLoad]
      · simp [dataLoad, hd, hc, dataRead_dataWrite_other]

/-- A load of a data register changes the data registers alone. -/
theorem dataLoad_fields (s : State) (d : Dreg) (v : Word) (bc : Bool) :
    dataLoad s d v bc = { s with pex := (dataLoad s d v bc).pex, pey := (dataLoad s d v bc).pey } := by
  obtain ⟨pe, n⟩ := d
  cases pe <;> cases bc <;> rfl

theorem comp_num (d : Dreg) : (comp d).num = d.num := by
  obtain ⟨pe, n⟩ := d
  cases pe <;> rfl

/-- Two data registers with one number are one register or a pair (R33). -/
theorem eq_or_eq_comp {d d' : Dreg} (h : d.num = d'.num) : d = d' ∨ d = comp d' := by
  obtain ⟨pe, n⟩ := d
  obtain ⟨pe', n'⟩ := d'
  subst h
  cases pe <;> cases pe' <;> simp [comp]

/-! ### What the dual move does -/

/-- The state both loads of the dual move leave, the PM load written last (R140, log 18). -/
def dualLoads (r1 : Dreg) (a : RegNum) (v1 : Word) (r2 : Dreg) (c : RegNum) (v2 : Word) (s : State) : State :=
  dataLoad (dataLoad s r1 v1 (broadcasts s a)) r2 v2 (broadcasts s c)

theorem dualLoads_fields (r1 : Dreg) (a : RegNum) (v1 : Word) (r2 : Dreg) (c : RegNum) (v2 : Word) (s : State) :
    dualLoads r1 a v1 r2 c v2 s =
      { s with pex := (dualLoads r1 a v1 r2 c v2 s).pex, pey := (dualLoads r1 a v1 r2 c v2 s).pey } := by
  unfold dualLoads
  generalize broadcasts s a = ba
  generalize broadcasts s c = bc
  rw [dataLoad_fields (dataLoad s r1 v1 ba), dataLoad_fields s r1 v1 ba]

/-- What a data register holds after both loads. -/
theorem dataRead_dualLoads (r1 : Dreg) (a : RegNum) (v1 : Word) (r2 : Dreg) (c : RegNum) (v2 : Word) (s : State) (d : Dreg) :
    dataRead (dualLoads r1 a v1 r2 c v2 s) d =
      if d = r2 ∨ (broadcasts s c = true ∧ d = comp r2) then toData v2
      else if d = r1 ∨ (broadcasts s a = true ∧ d = comp r1) then toData v1 else dataRead s d := by
  rw [dualLoads, dataRead_dataLoad, dataRead_dataLoad]

/-- The state the dual move leaves: both loads, then both index updates (R140). -/
def dualNext (r1 : Dreg) (a : RegNum) (v1 : Word) (u1 : IndexUpdate) (r2 : Dreg) (c : RegNum) (v2 : Word) (u2 : IndexUpdate)
    (s : State) : State :=
  advance (applyUpdate c u2 (applyUpdate a u1 (dualLoads r1 a v1 r2 c v2 (clearLatency s))))

/-- The effect of the dual move: two reads and two updates computed from the state before it (R122, R140). -/
theorem effect_dual (r1 : Dreg) (a b : RegNum) (r2 : Dreg) (c d : RegNum) (s : State) :
    effect (.dual r1 a b r2 c d) (clearLatency s) =
      (memReadNw s .dm (postAddress s a)).bind fun v1 =>
        (memReadNw s .pm (postAddress s c)).bind fun v2 =>
          (indexUpdate s a (dagRead s .m b).toInt (s.mode1.getLsbD 24) .access).bind fun u1 =>
            (indexUpdate s c (dagRead s .m d).toInt (s.mode1.getLsbD 24) .access).bind fun u2 =>
              .ok (dualNext r1 a v1 u1 r2 c v2 u2 s) := by
  simp only [effect, dualMove, putNw_data, outAddr_eq]
  rfl

/-- What the dual move does when it answers a next state. -/
theorem exec_dual_next {r1 r2 : Dreg} {a b c d : Fin 8} {s t : State} (h : exec (.ldDual r1 a b r2 c d) s = .next t) :
    ∃ v1 v2 u1 u2,
      indexUpdate s (dag1 a) (dagRead s .m (dag1 b)).toInt (s.mode1.getLsbD 24) .access = .ok u1 ∧
      indexUpdate s (dag2 c) (dagRead s .m (dag2 d)).toInt (s.mode1.getLsbD 24) .access = .ok u2 ∧
      t = dualNext r1 (dag1 a) v1 u1 r2 (dag2 c) v2 u2 s := by
  obtain ⟨-, heffect⟩ := exec_eq_next.1 h
  rw [Instr.shape, effect_dual] at heffect
  obtain ⟨v1, -, heffect⟩ := bind_ok.1 heffect
  obtain ⟨v2, -, heffect⟩ := bind_ok.1 heffect
  obtain ⟨u1, hu1, heffect⟩ := bind_ok.1 heffect
  obtain ⟨u2, hu2, heffect⟩ := bind_ok.1 heffect
  exact ⟨v1, v2, u1, u2, hu1, hu2, (Except.ok.inj heffect).symm⟩

section DualNext

variable {r1 r2 : Dreg} {a c : RegNum} {v1 v2 : Word} {u1 u2 : IndexUpdate} {s : State}

/-- What a DAG register holds after the dual move. -/
theorem dagRead_dualNext (ty : DagType) (n : RegNum) : dagRead (dualNext r1 a v1 u1 r2 c v2 u2 s) ty n =
    if ty = .i ∧ n = c then u2.index else if ty = .i ∧ n = a then u1.index else dagRead s ty n := by
  rw [dualNext, dagRead_advance, dagRead_applyUpdate, dagRead_applyUpdate, dualLoads_fields]
  rfl

/-- What a data register holds after the dual move. -/
theorem dataRead_dualNext (d : Dreg) : dataRead (dualNext r1 a v1 u1 r2 c v2 u2 s) d =
    if d = r2 ∨ (broadcasts s c = true ∧ d = comp r2) then v2 ++ 0#8
    else if d = r1 ∨ (broadcasts s a = true ∧ d = comp r1) then v1 ++ 0#8 else dataRead s d :=
  (dataRead_congr (by simp [dualNext]) (by simp [dualNext]) d).trans (dataRead_dualLoads r1 a v1 r2 c v2 (clearLatency s) d)

/-- The dual move changes the DAG registers, the data registers and the overflow status alone. -/
theorem dualNext_kept : (dualNext r1 a v1 u1 r2 c v2 u2 s).mem = s.mem ∧ (dualNext r1 a v1 u1 r2 c v2 u2 s).others = s.others ∧
    ControlKept s (dualNext r1 a v1 u1 r2 c v2 u2 s) ∧ (dualNext r1 a v1 u1 r2 c v2 u2 s).pc = s.pc + 1 := by
  rw [dualNext, dualLoads_fields]
  simp [ControlKept]

/-- The copies that are not selected, after the dual move. -/
theorem dagHidden_dualNext (ty : DagType) (n : RegNum) :
    dagHidden (dualNext r1 a v1 u1 r2 c v2 u2 s) ty n = dagHidden s ty n := by
  have hquiet := (quiet_applyUpdate (dualLoads r1 a v1 r2 c v2 (clearLatency s)) a u1).trans (quiet_applyUpdate _ c u2)
  refine (hquiet.hidden ty n).trans ?_
  rw [dualLoads_fields]
  rfl

end DualNext

/-! ### How it completes and where it stops -/

/-- Settles O6: the index updates leave the data registers; each pair holds what the later load of one of its members wrote. -/
theorem dualMoveCompletes : Obligations.DualMoveCompletes := by
  intro r1 r2 a b c d s v1 v2 hp ha1 hv1 ha2 hv2 hup1 hup2
  obtain ⟨u1, hu1, hindex1⟩ := indexUpdate_of_updatable hup1 .access
  obtain ⟨u2, hu2, hindex2⟩ := indexUpdate_of_updatable hup2 .access
  have hexec : exec (.ldDual r1 a b r2 c d) s = .next (dualNext r1 (dag1 a) v1 u1 r2 (dag2 c) v2 u2 s) := by
    refine exec_eq_next.2 ⟨hp, ?_⟩
    simp only [Instr.shape, effect_dual, memReadNw_eq ha1 hv1, memReadNw_eq ha2 hv2, hu1, hu2, Except.bind]
  obtain ⟨-, -, -, hpc⟩ := dualNext_kept (r1 := r1) (a := dag1 a) (v1 := v1) (u1 := u1) (r2 := r2) (c := dag2 c) (v2 := v2)
    (u2 := u2) (s := s)
  refine ⟨_, hexec, fun hne => ?_, fun heq => ?_, ?_, ?_, hpc⟩
  · have hother {r r' : Dreg} (hr : r.num = r1.num) (hr' : r'.num = r2.num) : r ≠ r' := by
      rintro rfl
      exact hne (hr.symm.trans hr')
    have h12 := hother (r := r1) (r' := r2) rfl rfl
    have h1c := hother (r := r1) (r' := comp r2) rfl (comp_num r2)
    have hc2 := hother (r := comp r1) (r' := r2) (comp_num r1) rfl
    have hcc := hother (r := comp r1) (r' := comp r2) (comp_num r1) (comp_num r2)
    simp only [Loaded, dataRead_dualNext, ← broadcasts_iff]
    refine ⟨⟨?_, fun hb => ?_, fun hb => ?_⟩, ?_, fun hb => ?_, fun hb => ?_⟩
    · simp [h12, h1c]
    · simp [hc2, hcc, hb]
    · simp [hc2, hcc, hb, comp_ne]
    · simp
    · simp [hb]
    · simp [hb, comp_ne, h1c.symm, hcc.symm]
  · have hpair : r1 = comp r2 := by
      refine (eq_or_eq_comp heq).resolve_left fun h => ?_
      have hwf := check_wellFormed hp
      simp [Instr.shape, Shape.illFormed, h] at hwf
    simp only [dataRead_dualNext, ← broadcasts_iff]
    refine ⟨?_, fun hb => ?_, fun hb => ?_⟩
    · simp
    · simp [hpair, hb]
    · simp [hpair, hb, comp_ne]
  · rw [dagRead_dualNext, if_neg (fun h => dag1_ne_dag2 a c h.2), if_pos ⟨rfl, rfl⟩, hindex1]
  · rw [dagRead_dualNext, if_pos ⟨rfl, rfl⟩, hindex2]

theorem memReadNw_of_not_admitted {s : State} {bus : Bus} {a : Word} (h : ¬admitted s bus .nw a = true) :
    memReadNw s bus a = .error (.fault .notAdmitted) := if_neg h

theorem memReadNw_of_unwritten {s : State} {bus : Bus} {a : Word} (ha : admitted s bus .nw a = true)
    (h : ¬∃ v, cellRead s.mem a.toNat = some v) : memReadNw s bus a = .error (.fault .unwrittenMemory) := by
  have hnone : cellRead s.mem a.toNat = none := Option.eq_none_iff_forall_ne_some.2 fun v hv => h ⟨v, hv⟩
  simp only [memReadNw, ha, if_true, cell, hnone]

/-- Settles O33: the reads come before the updates, DM before PM (log 17). -/
theorem dualMoveStops : Obligations.DualMoveStops := by
  intro r1 r2 a b c d s hp ok1 ok2 written1 written2
  have hexec := exec_of_passes hp
  rw [Instr.shape, effect_dual] at hexec
  rw [hexec]
  refine ⟨fun ha1 => ?_, fun ha1 hw1 => ?_, ?_⟩
  · rw [memReadNw_of_not_admitted ha1]
    rfl
  · rw [memReadNw_of_unwritten ha1 hw1]
    rfl
  refine ⟨fun ha1 ⟨v1, hv1⟩ ha2 => ?_, fun ha1 ⟨v1, hv1⟩ ha2 hw2 => ?_, fun ha1 ⟨v1, hv1⟩ ha2 ⟨v2, hv2⟩ hbroken => ?_⟩
  · rw [memReadNw_eq ha1 hv1, memReadNw_of_not_admitted ha2]
    rfl
  · rw [memReadNw_eq ha1 hv1, memReadNw_of_unwritten ha2 hw2]
    rfl
  · rw [memReadNw_eq ha1 hv1, memReadNw_eq ha2 hv2]
    by_cases hup1 : Updatable s (dag1 a) (dagRead s .m (dag1 b)).toInt (s.mode1.getLsbD 24)
    · obtain ⟨u1, hu1, -⟩ := indexUpdate_of_updatable hup1 .access
      rw [hu1, indexUpdate_of_not_updatable (hbroken.resolve_left (not_not.2 hup1))]
      rfl
    · rw [indexUpdate_of_not_updatable hup1]
      rfl

/-! ### What it leaves unchanged, and its overflow status -/

theorem dag1_eq_seven {a : Fin 8} : dag1 a = 7 ↔ a = 7 := by revert a; decide

theorem dag1_ne_fifteen (a : Fin 8) : dag1 a ≠ 15 := by revert a; decide

theorem dag2_ne_seven (c : Fin 8) : dag2 c ≠ 7 := by revert c; decide

theorem dag2_eq_fifteen {c : Fin 8} : dag2 c = 15 ↔ c = 7 := by revert c; decide

/-- Both loads leave the overflow status to the index updates. -/
theorem dualLoads_sameStatus (r1 : Dreg) (a : RegNum) (v1 : Word) (r2 : Dreg) (c : RegNum) (v2 : Word) (s : State) :
    SameStatus s (dualLoads r1 a v1 r2 c v2 (clearLatency s)) := by
  rw [dualLoads_fields]
  exact ⟨rfl, rfl, rfl, rfl⟩

/-- Settles O23. -/
theorem dualMoveFrame : Obligations.DualMoveFrame := by
  intro r1 r2 a b c d s t h
  obtain ⟨v1, v2, u1, u2, -, -, rfl⟩ := exec_dual_next h
  obtain ⟨hmem, hothers, hcontrol, -⟩ := dualNext_kept (r1 := r1) (a := dag1 a) (v1 := v1) (u1 := u1) (r2 := r2) (c := dag2 c)
    (v2 := v2) (u2 := u2) (s := s)
  refine ⟨hmem, ?_, fun r hr => ?_, hothers, hcontrol, ?_⟩
  · rw [DagKept, asBefore_eq hcontrol.1]
    refine ⟨fun ty n hn => ?_, dagHidden_dualNext⟩
    rw [dagRead_dualNext, if_neg fun h => hn ⟨h.1, .inr h.2⟩, if_neg fun h => hn ⟨h.1, .inl h.2⟩]
  · simp only [not_or, ← broadcasts_iff] at hr
    obtain ⟨hr1, hr2, hc1, hc2⟩ := hr
    rw [dataRead_dualNext, if_neg (not_or.2 ⟨hr2, hc2⟩), if_neg (not_or.2 ⟨hr1, hc1⟩)]
  · have hbefore := dualLoads_sameStatus r1 (dag1 a) v1 r2 (dag2 c) v2 s
    obtain ⟨hflags1, h71, h151⟩ := hbefore.overflowOnly.1 (overflowOnly_applyUpdate _ (dag1 a) u1)
    obtain ⟨hflags2, h72, h152⟩ := overflowOnly_applyUpdate
      (applyUpdate (dag1 a) u1 (dualLoads r1 (dag1 a) v1 r2 (dag2 c) v2 (clearLatency s))) (dag2 c) u2
    rw [applyUpdate_plat, hbefore.2.2.2] at hflags2
    refine ⟨fun k h7 h15 => ?_, fun h7 => ?_, fun h15 => ?_⟩
    · refine (hflags2 k (fun _ => dag2_ne_seven c) fun hk => mt dag2_eq_fifteen.1 (h15 hk)).trans ?_
      exact hflags1 k (fun hk => mt dag1_eq_seven.1 (h7 hk)) fun _ => dag1_ne_fifteen a
    · exact (h72 (dag2_ne_seven c)).trans (h71 (mt dag1_eq_seven.1 h7))
    · exact (h152 (mt dag2_eq_fifteen.1 h15)).trans (h151 (dag1_ne_fifteen a))

/-- Of two updates, the first of a register of DAG1 and the second of one of DAG2, the first alone touches the part of I7 in the
overflow status and the second that of I15. -/
theorem status_of_two_updates {s t1 t : State} {a c : Fin 8} (hflags : s.plat.stkyCb7s ≠ s.plat.stkyCb15s)
    (hplat : t1.plat = s.plat) (h1 : OverflowOnly s t1 (dag1 a)) (h2 : OverflowOnly t1 t (dag2 c)) :
    (t.irqCb7 = t1.irqCb7 ∧ t.stkyx.getLsbD s.plat.stkyCb7s = t1.stkyx.getLsbD s.plat.stkyCb7s) ∧
      (t1.irqCb15 = s.irqCb15 ∧ t1.stkyx.getLsbD s.plat.stkyCb15s = s.stkyx.getLsbD s.plat.stkyCb15s) := by
  obtain ⟨hbits1, -, h15⟩ := h1
  obtain ⟨hbits2, h7, -⟩ := h2
  rw [hplat] at hbits2
  have hne : s.plat.stkyCb7s.val ≠ s.plat.stkyCb15s.val := fun h => hflags (Fin.ext h)
  exact ⟨⟨h7 (dag2_ne_seven c), hbits2 _ (fun _ => dag2_ne_seven c) fun hk => absurd hk hne⟩,
    ⟨h15 (dag1_ne_fifteen a), hbits1 _ (fun hk => absurd hk.symm hne) fun _ => dag1_ne_fifteen a⟩⟩

/-- Settles O26: the part of I7 is that of the first update, and the part of I15 that of the second. -/
theorem dualMoveOverflow : Obligations.DualMoveOverflow := by
  intro r1 r2 a b c d s t hflags h
  obtain ⟨v1, v2, u1, u2, hu1, hu2, rfl⟩ := exec_dual_next h
  have hbefore := dualLoads_sameStatus r1 (dag1 a) v1 r2 (dag2 c) v2 s
  obtain ⟨hoff1, hno1, hother1, hwrap1, hzero1⟩ :=
    applyUpdate_overflow hu1 (dualLoads r1 (dag1 a) v1 r2 (dag2 c) v2 (clearLatency s))
  have hplat : (applyUpdate (dag1 a) u1 (dualLoads r1 (dag1 a) v1 r2 (dag2 c) v2 (clearLatency s))).plat = s.plat := by
    rw [applyUpdate_plat, hbefore.2.2.2]
  have honly1 := hbefore.overflowOnly.1
    (overflowOnly_applyUpdate (dualLoads r1 (dag1 a) v1 r2 (dag2 c) v2 (clearLatency s)) (dag1 a) u1)
  rw [hbefore.overflowKept] at hoff1 hno1 hother1 hzero1
  rw [hbefore.raised7, hbefore.raised15] at hwrap1 hzero1
  unfold dualNext
  generalize applyUpdate (dag1 a) u1 (dualLoads r1 (dag1 a) v1 r2 (dag2 c) v2 (clearLatency s)) = t1 at *
  obtain ⟨hoff2, hno2, hother2, hwrap2, hzero2⟩ := applyUpdate_overflow hu2 t1
  obtain ⟨⟨hirq7, hbit7⟩, hirq15, hbit15⟩ := status_of_two_updates hflags hplat honly1 (overflowOnly_applyUpdate t1 (dag2 c) u2)
  generalize applyUpdate (dag2 c) u2 t1 = t at *
  intro w1 w2 kept7 kept15 set7 set15
  have hkept7 : OverflowKept s t1 → kept7 := fun ⟨hs, hi, _⟩ => ⟨hirq7.trans hi, hbit7.trans (by rw [hs])⟩
  have hset7 : Raised7 s t1 → set7 := fun ⟨hi, hb, _⟩ => ⟨hirq7.trans hi, hbit7.trans hb⟩
  have hkept15 : OverflowKept t1 t → kept15 := fun ⟨hs, _, hi⟩ =>
    ⟨hi.trans hirq15, (congrArg (·.getLsbD s.plat.stkyCb15s) hs).trans hbit15⟩
  have hset15 : Raised15 t1 t → set15 := fun ⟨hi, hb, _⟩ => ⟨hi, by rwa [hplat] at hb⟩
  refine ⟨?_, ?_, ?_, ?_, ?_, ?_⟩
  · rintro (hw | ha)
    · exact hkept7 ((not_and_or.1 hw).elim (fun hen => hoff1 (Bool.eq_false_iff.2 hen)) hno1)
    · exact hkept7 (hother1 (mt dag1_eq_seven.1 ha) (dag1_ne_fifteen a))
  · rintro (hw | hc)
    · exact hkept15 ((not_and_or.1 hw).elim (fun hen => hoff2 (Bool.eq_false_iff.2 hen)) hno2)
    · exact hkept15 (hother2 (dag2_ne_seven c) (mt dag2_eq_fifteen.1 hc))
  · rintro ⟨hen, hw⟩ rfl hl
    exact hset7 ((hwrap1 hen hw hl).1 rfl)
  · rintro ⟨hen, hw⟩ rfl hl
    exact hset15 ((hwrap2 hen hw hl).2 rfl)
  · rintro ⟨hen, hw⟩ rfl hl
    exact ((hzero1 hen hw hl).1 rfl).imp hkept7 hset7
  · rintro ⟨hen, hw⟩ rfl hl
    exact ((hzero2 hen hw hl).2 rfl).imp hkept15 hset15

end Sys2Proof.Machine
end

section
/-! Circular buffers keep their index (rules R113 to R117), a B register is written with its I (rules R24, R193), and the
copies that are not selected are not written (rule R23). -/

namespace Sys2Proof.Machine

open Sys2Proof.Claims

/-! ### An index stays in its buffer -/

/-- One correction by L brings an index of a buffer back into it: |M| is less than L (R115, R116). -/
theorem newIndex_range {i l b : Nat} {m : Int} (hreq : CircReq i l b m) (hlo : b ≤ i) (hhi : i < b + l) :
    (b : Int) ≤ newIndex i l b m true ∧ newIndex i l b m true < b + l := by
  obtain ⟨hl, -, hm, -⟩ := hreq
  have hl0 : l ≠ 0 := by omega
  rw [abs_lt] at hm
  simp only [newIndex, hl0, ne_eq, not_false_eq_true, and_self, if_true]
  split <;> split <;> omega

/-- An address of the address space is what its word holds. -/
theorem trunc32_toNat {a : Int} (hlo : 0 ≤ a) (hhi : a < 2 ^ 32) : ((trunc32 a).toNat : Int) = a := by
  rw [trunc32, BitVec.toNat_ofInt, Int.toNat_of_nonneg (Int.emod_nonneg _ (by decide))]
  exact Int.emod_eq_of_lt hlo hhi

/-- A circular update of an index inside its buffer is inside it, wherever B and L are as before. -/
theorem inBuffer_of_update {s t : State} {n : RegNum} {m : Int} {c : Cause} {u : IndexUpdate} (hl : dagRead s .l n ≠ 0#32)
    (hin : InBuffer s n) (hu : indexUpdate s n m true c = .ok u) (hindex : dagRead t .i n = u.index)
    (hbase : dagRead t .b n = dagRead s .b n) (hlen : dagRead t .l n = dagRead s .l n) : InBuffer t n := by
  obtain ⟨hlo, hhi⟩ := hin
  have hreq := updatable_of_indexUpdate hu rfl hl
  have hrange := newIndex_range hreq hlo hhi
  obtain ⟨-, -, -, -, -, hsum⟩ := hreq
  have hvalue := trunc32_toNat (a := newIndex (dagRead s .i n).toNat (dagRead s .l n).toNat (dagRead s .b n).toNat m true)
    (by omega) (by omega)
  rw [InBuffer, hindex, indexUpdate_index hu, hbase, hlen, nextIndex]
  omega

/-- What a memory access leaves of the DAG registers: all but those it loads and the index of a post-modify one. -/
theorem access_dagKept {i : Instr} {x : Access} {s t : State} (hs : i.shape = .access x) (h : exec i s = .next t) :
    DagKept s t fun ty n =>
      (x.order = .post ∧ ty = .i ∧ n = x.idx) ∨ ∃ u w, x.xfer = .load u w ∧ loadWritesDag u w ty n := by
  cases hx : x.xfer with
  | load u w =>
    obtain ⟨-, hdag, -⟩ := loadFrame i x u w s t hs hx h
    exact dagKept_mono hdag fun ty n => Or.imp_right fun hl => ⟨u, w, rfl, hl⟩
  | store u w =>
    obtain ⟨-, hdag, -⟩ := storeFrame i x s t hs (.inl ⟨u, w, hx⟩) h
    exact dagKept_mono hdag fun ty n => .inl
  | storeImm v =>
    obtain ⟨-, hdag, -⟩ := storeFrame i x s t hs (.inr ⟨v, hx⟩) h
    exact dagKept_mono hdag fun ty n => .inl

/-- A post-modify access changes no register with its index's number but the index (R186). -/
theorem post_access_buffer_kept {i : Instr} {x : Access} {s t : State} (hs : i.shape = .access x) (ho : x.order = .post)
    (h : exec i s = .next t) {ty : DagType} (hty : ty ≠ .i) : dagRead (asBefore s t) ty x.idx = dagRead s ty x.idx := by
  have hwf := check_wellFormed (exec_eq_next.1 h).1
  refine (access_dagKept hs h).1 ty x.idx ?_
  rintro (⟨-, hi, -⟩ | ⟨u, w, hx, ty', n', rfl, -, hn | ⟨-, hn⟩⟩)
  · exact hty hi
  · exact wellFormed_post_ne hs ho hx hwf hn.symm
  · exact wellFormed_post_partner_ne hs ho hx hwf hn.symm

/-- The dual move is one row. -/
theorem shape_dual {i : Instr} {r1 r2 : Dreg} {a b c d : RegNum} (h : i.shape = .dual r1 a b r2 c d) :
    ∃ a' b' c' d', i = .ldDual r1 a' b' r2 c' d' ∧ a = dag1 a' ∧ b = dag1 b' ∧ c = dag2 c' ∧ d = dag2 d' := by
  cases i
  case ldDual r1' a' b' r2' c' d' =>
    injection h with h1 h2 h3 h4 h5 h6
    exact ⟨a', b', c', d', by rw [h1, h4], h2.symm, h3.symm, h5.symm, h6.symm⟩
  all_goals nomatch h

/-- Settles O28. -/
theorem circularIndexStaysInBuffer : Obligations.CircularIndexStaysInBuffer := by
  rintro i n s t (⟨m, hs⟩ | ⟨hen, ⟨x, hs, ho, rfl⟩ | ⟨r1, a, b, r2, c, d, hs, hn⟩⟩) hl hin h
  · obtain ⟨u, hu, rfl⟩ := exec_modify_next hs h
    rw [asBefore_eq (by simp)]
    refine inBuffer_of_update hl hin hu ?_ ?_ ?_ <;> simp [dagRead_applyUpdate]
  · obtain ⟨-, s1, -, ⟨-, u, hu, rfl⟩ | ⟨hpre, -⟩⟩ := exec_access_next hs h
    · rw [show cbufen s = true from hen] at hu
      exact inBuffer_of_update hl hin hu (dagRead_asBefore_index s x.idx u s1) (post_access_buffer_kept hs ho h nofun)
        (post_access_buffer_kept hs ho h nofun)
    · exact absurd (ho.symm.trans hpre) nofun
  · obtain ⟨a, b, c, d, rfl, rfl, rfl, rfl, rfl⟩ := shape_dual hs
    obtain ⟨v1, v2, u1, u2, hu1, hu2, rfl⟩ := exec_dual_next h
    obtain ⟨-, -, hcontrol, -⟩ := dualNext_kept (r1 := r1) (a := dag1 a) (v1 := v1) (u1 := u1) (r2 := r2) (c := dag2 c)
      (v2 := v2) (u2 := u2) (s := s)
    rw [asBefore_eq hcontrol.1]
    rw [hen] at hu1 hu2
    rcases hn with rfl | rfl
    · refine inBuffer_of_update hl hin hu1 ?_ ?_ ?_ <;> simp [dagRead_dualNext, dag1_ne_dag2]
    · refine inBuffer_of_update hl hin hu2 ?_ ?_ ?_ <;> simp [dagRead_dualNext]

/-! ### B is written with I -/

/-- What an instruction leaves of the copies that are not selected: every one (R23). -/
theorem exec_hidden {i : Instr} {s t : State} (h : exec i s = .next t) (ty : DagType) (n : RegNum) :
    dagHidden (asBefore s t) ty n = dagHidden s ty n := by
  have hquiet {q : State} (hq : Quiet (clearLatency s) q) : dagHidden (asBefore s (advance q)) ty n = dagHidden s ty n := by
    rw [asBefore_eq (show (advance q).mode1 = s.mode1 from hq.mode1)]
    exact hq.hidden ty n
  rcases exec_next h with ⟨-, -, q, hq, rfl⟩ | ⟨r, v, q, -, ⟨-, hq, rfl⟩ | ⟨-, hq, rfl⟩⟩ | ⟨n', -, rfl⟩ | ⟨-, rfl⟩
  · exact hquiet hq
  · refine Eq.trans ?_ (hquiet hq)
    exact dagHidden_congr (by rfl) (by simp [asBefore]) (by simp [asBefore]) ty n
  · rw [asBefore_eq (by exact hq.mode1)]
    exact hq.hidden ty n
  · rfl
  · rfl

/-- What a statement that is one register write does. -/
theorem exec_ldi_next {u : Ureg} {v : Word} {s t : State} (h : exec (.ldiUreg u v) s = .next t) :
    ∃ t1, putNw (clearLatency s) u v false = .ok t1 ∧ t = advance t1 := by
  obtain ⟨-, heffect⟩ := exec_eq_next.1 h
  obtain ⟨t1, hput, ht⟩ := bind_ok.1 heffect
  exact ⟨t1, hput, (Except.ok.inj ht).symm⟩

/-- A load of B[n] leaves the value in I[n], and so does that of its partner's pair (R24, R178). -/
theorem move_base {x : Access} {a : Word} {s t : State} {n n' : RegNum} {w : Width} (hx : x.xfer = .load (.dag .b n') w)
    (hn : n = n' ∨ (w = .lw ∧ n = partner n')) (h : move x a s = .ok t) : dagRead t .i n = dagRead t .b n := by
  simp only [move, hx] at h
  cases w with
  | nw =>
    obtain rfl : n = n' := hn.resolve_right nofun
    obtain ⟨v, -, hput⟩ := bind_ok.1 h
    obtain ⟨hb, hi⟩ := loaded_putNw hput
    exact (hi rfl).trans hb.symm
  | lw =>
    obtain ⟨v, -, hput⟩ := bind_ok.1 h
    obtain ⟨ty, k, hd, rfl⟩ := putLw_ok hput
    cases hd
    rcases hn with rfl | ⟨-, rfl⟩
    · simp [dagRead_dagWrite, (partner_ne n).symm]
    · simp [dagRead_dagWrite]

/-- An instruction that writes B[n] leaves I[n] equal to it (R24, R193). -/
theorem index_eq_base {i : Instr} {s t : State} {n : RegNum} (h : exec i s = .next t) (hw : WritesBase i n) :
    t.mode1 = s.mode1 ∧ dagRead t .i n = dagRead t .b n := by
  have hput {v : Word} {bc : Bool} {t1 : State} (hput : putNw (clearLatency s) (.dag .b n) v bc = .ok t1) :
      (advance t1).mode1 = s.mode1 ∧ dagRead (advance t1) .i n = dagRead (advance t1) .b n := by
    obtain ⟨hb, hi⟩ := loaded_putNw hput
    exact ⟨((putNw_wroteOnly hput).mode1 nofun).1, (hi rfl).trans hb.symm⟩
  rcases hw with ⟨v, rfl⟩ | ⟨u, rfl⟩ | ⟨x, n', w, hs, hx, hn⟩
  · obtain ⟨t1, hw, rfl⟩ := exec_ldi_next h
    exact hput hw
  · obtain ⟨v, t1, -, hw, rfl⟩ := exec_mov_next h
    exact hput hw
  · obtain ⟨hc, s1, hmove, ⟨ho, u, -, rfl⟩ | ⟨-, rfl⟩⟩ := exec_access_next hs h
    all_goals
      have hbase := move_base hx hn hmove
      have hmode : s1.mode1 = s.mode1 := ((move_load_wroteOnly hx hmove).mode1 nofun).1
    · have hne : n ≠ x.idx := by
        rcases hn with rfl | ⟨-, rfl⟩
        · exact wellFormed_post_ne hs ho hx (check_wellFormed hc)
        · exact wellFormed_post_partner_ne hs ho hx (check_wellFormed hc)
      rw [underMode_applyUpdate hmode]
      exact ⟨by simpa using hmode, by simpa [dagRead_applyUpdate, hne] using hbase⟩
    · exact ⟨hmode, hbase⟩

/-- An instruction that does not write B[n] leaves it. -/
theorem base_kept {i : Instr} {s t : State} {n : RegNum} (h : exec i s = .next t) (hw : ¬WritesBase i n) :
    dagRead (asBefore s t) .b n = dagRead s .b n := by
  have hput {u : Ureg} {v : Word} {bc : Bool} {t1 : State} (hput : putNw (clearLatency s) u v bc = .ok t1)
      (hu : u ≠ .dag .b n) : dagRead (asBefore s (advance t1)) .b n = dagRead s .b n := by
    refine (putNw_wroteOnly hput).dag.1 .b n ?_
    rintro ⟨ty, k, rfl, hty, hk⟩
    obtain rfl : ty = .b := by rcases hty with rfl | ⟨-, hty⟩ <;> [rfl; nomatch hty]
    obtain rfl : n = k := hk.resolve_right nofun
    exact hu rfl
  obtain ⟨-, heffect⟩ := exec_eq_next.1 h
  generalize hs : i.shape = sh at heffect
  cases sh
  case access x =>
    refine (access_dagKept hs h).1 .b n ?_
    rintro (⟨-, hi, -⟩ | ⟨u, w, hx, ty, k, rfl, hty, hk⟩)
    · nomatch hi
    · obtain rfl : ty = .b := by rcases hty with rfl | ⟨-, hty⟩ <;> [rfl; nomatch hty]
      exact hw (.inr (.inr ⟨x, k, w, hs, hx, hk⟩))
  case dual r1 a b r2 c d =>
    obtain ⟨a, b, c, d, rfl, rfl, rfl, rfl, rfl⟩ := shape_dual hs
    obtain ⟨-, hdag, -⟩ := dualMoveFrame r1 r2 a b c d s t h
    exact hdag.1 .b n (fun hi => nomatch hi.1)
  case modify k m =>
    obtain ⟨-, hdag, -⟩ := modifyFrame i k m s t hs h
    exact hdag.1 .b n (fun hi => nomatch hi.1)
  case bitrev k v =>
    rw [exec_bitrev_next hs h]
    exact dagRead_dagPut_other (clearLatency s) .i .b k n _ fun hi => nomatch hi.1
  case ldi u v =>
    obtain rfl := shape_ldi hs
    obtain ⟨t1, hput1, rfl⟩ := exec_ldi_next h
    exact hput hput1 fun hu => hw (.inl ⟨v, by rw [hu]⟩)
  case mov u u' =>
    obtain rfl := shape_mov hs
    obtain ⟨v, t1, -, hput1, rfl⟩ := exec_mov_next h
    exact hput hput1 fun hu => hw (.inr (.inl ⟨u', by rw [hu]⟩))
  case doUntil => nomatch heffect
  all_goals
    cases heffect
    rfl

/-- Settles O50: the copy of B[n] that changed is the selected one, which only a write of B[n] changes. -/
theorem baseWritesIndex : Obligations.BaseWritesIndex := by
  intro i s t n h
  have hselected (hne : dagRead (asBefore s t) .b n ≠ dagRead s .b n) :
      dagRead (asBefore s t) .i n = dagRead (asBefore s t) .b n := by
    have hw : WritesBase i n := by
      by_contra hno
      exact hne (base_kept h hno)
    obtain ⟨hmode, heq⟩ := index_eq_base h hw
    rwa [asBefore_eq hmode]
  have hhidden := exec_hidden h .b n
  refine ⟨fun hw => (index_eq_base h hw).2, ?_⟩
  have hsel : altSelected (asBefore s t) n = altSelected s n := rfl
  simp only [dagRead, dagHidden, hsel] at hselected hhidden
  cases halt : altSelected s n
  · simp only [halt, Bool.false_eq_true, if_false] at hselected hhidden
    exact ⟨hselected, fun hne => absurd hhidden hne⟩
  · simp only [halt, if_true] at hselected hhidden
    exact ⟨fun hne => absurd hhidden hne, hselected⟩

end Sys2Proof.Machine
end

section
/-! What an instruction reads of the DAG registers and of MODE1: two states that read alike, and differ in hidden copies and in
MODE1 bits the instruction does not read, stop alike or go to states that read alike (rules R23, R160, R184). -/

namespace Sys2Proof.Machine

open Sys2Proof.Claims

/-! ### States that read alike -/

/-- The states have the modes `m` and `m'`, select the same copies, read the same DAG registers, and differ in nothing else but the
copies that are not selected. -/
structure Alike (m m' : Word) (s s' : State) : Prop where
  copies : ∀ n, m'.getLsbD (groupBit n) = m.getLsbD (groupBit n)
  mode : s.mode1 = m
  fields : ∃ prim alt, s' = { s with prim := prim, alt := alt, mode1 := m' }
  dag : ∀ ty n, dagRead s' ty n = dagRead s ty n

/-- What a statement leaves of two alike states: alike states, or, where it writes MODE1, alike states with one
word written there. -/
def After (writes : Prop) (m m' : Word) (t t' : State) : Prop :=
  (¬writes ∧ Alike m m' t t') ∨
    (writes ∧ ∃ q q' v, Alike m m' q q' ∧ t = writeMode1 q v ∧ t' = writeMode1 q' v)

/-- Two results stop alike or are related. -/
inductive SameResult {α : Type} (R : α → α → Prop) : Except Stop α → Except Stop α → Prop where
  | error (e : Stop) : SameResult R (.error e) (.error e)
  | ok {a a' : α} (h : R a a') : SameResult R (.ok a) (.ok a')

theorem SameResult.bind {α β : Type} {R : α → α → Prop} {S : β → β → Prop} {x x' : Except Stop α} {f f' : α → Except Stop β}
    (h : SameResult R x x') (hf : ∀ a a', R a a' → SameResult S (f a) (f' a')) : SameResult S (x.bind f) (x'.bind f') := by
  cases h with
  | error e => exact .error e
  | ok h => exact hf _ _ h

theorem SameResult.mono {α : Type} {R S : α → α → Prop} {x x' : Except Stop α} (h : SameResult R x x')
    (hle : ∀ a a', R a a' → S a a') : SameResult S x x' := by
  cases h with
  | error e => exact .error e
  | ok h => exact .ok (hle _ _ h)

/-- Two computations that go on from one result. -/
theorem sameResult_bind {α β : Type} {S : β → β → Prop} (x : Except Stop α) {f f' : α → Except Stop β}
    (hf : ∀ a, SameResult S (f a) (f' a)) : SameResult S (x.bind f) (x.bind f') := by
  cases x with
  | error e => exact .error e
  | ok a => exact hf a

section Alike

variable {m m' : Word} {s s' : State}

theorem Alike.mode' (h : Alike m m' s s') : s'.mode1 = m' := by
  obtain ⟨-, -, ⟨prim, alt, rfl⟩, -⟩ := h
  rfl

/-! ### What is read -/

section Reads

variable (h : Alike m m' s s')
include h

theorem modifierValue_alike (k : Modifier) : modifierValue s' k = modifierValue s k := by
  obtain ⟨-, -, ⟨prim, alt, rfl⟩, hdag⟩ := h
  cases k with
  | reg n => simp only [modifierValue, hdag]
  | imm6 _ => rfl
  | imm32 _ => rfl

theorem linearIndex_alike (n : RegNum) (k : Int) : linearIndex s' n k = linearIndex s n k := by
  simp only [linearIndex, h.dag]

theorem indexUpdate_alike (n : RegNum) (k : Int) (en : Bool) (c : Cause) : indexUpdate s' n k en c = indexUpdate s n k en c := by
  simp only [indexUpdate, h.dag, linearIndex_alike h]

theorem accessAddress_alike {x : Access} (hrev : bitReversed s' x.idx = bitReversed s x.idx) :
    accessAddress s' x = accessAddress s x := by
  simp only [accessAddress, outAddr, hrev, h.dag, linearIndex_alike h, modifierValue_alike h]

theorem sameSpace_alike (a b : Word) : sameSpace s' a b = sameSpace s a b := by
  obtain ⟨-, -, ⟨prim, alt, rfl⟩, -⟩ := h
  rfl

theorem memReadNw_alike (bus : Bus) (a : Word) : memReadNw s' bus a = memReadNw s bus a := by
  obtain ⟨-, -, ⟨prim, alt, rfl⟩, -⟩ := h
  rfl

theorem memReadLw_alike (bus : Bus) (a : Word) : memReadLw s' bus a = memReadLw s bus a := by
  obtain ⟨-, -, ⟨prim, alt, rfl⟩, -⟩ := h
  rfl

theorem isSystemUreg_alike (r : SystemReg) : isSystemUreg s' r = isSystemUreg s r := by
  obtain ⟨-, -, ⟨prim, alt, rfl⟩, -⟩ := h
  rfl

theorem otherRead_alike (nm : Ident) : otherRead s' nm = otherRead s nm := by
  obtain ⟨-, -, ⟨prim, alt, rfl⟩, -⟩ := h
  rfl

theorem dataRead_alike (d : Dreg) : dataRead s' d = dataRead s d := by
  obtain ⟨-, -, ⟨prim, alt, rfl⟩, -⟩ := h
  rfl

/-- A control register reads alike; MODE1 does where the modes are one word. -/
theorem systemRead_alike {r : SystemReg} (hr : r = .mode1 → s'.mode1 = s.mode1) : systemRead s' r = systemRead s r := by
  cases r
  case mode1 => exact hr rfl
  all_goals
    obtain ⟨-, -, ⟨prim, alt, rfl⟩, -⟩ := h
    rfl

theorem getNw_alike {u : Ureg} (hu : u = .system .mode1 → s'.mode1 = s.mode1) : getNw s' u = getNw s u := by
  cases u with
  | dag ty n => simp only [getNw, h.dag]
  | data d => simp only [getNw, dataRead_alike h]
  | system r => simp only [getNw, isSystemUreg_alike h, systemRead_alike h fun hr => hu (congrArg _ hr)]
  | other nm => simp only [getNw, otherRead_alike h]

theorem getLw_alike (u : Ureg) : getLw s' u = getLw s u := by
  cases u with
  | dag ty n => simp only [getLw, h.dag]
  | _ => rfl

theorem movedWord_alike {u : Ureg} (hpe : peyen s' = peyen s) (hu : u = .system .mode1 → s'.mode1 = s.mode1) :
    movedWord s' u = movedWord s u := by
  cases u with
  | data d =>
    have hsource : moveSource s' d = moveSource s d := by simp only [moveSource, hpe]
    rw [movedWord, movedWord, hsource]
    exact getNw_alike h nofun
  | _ => exact getNw_alike h hu

end Reads

/-! ### What is written -/

theorem clearLatency_alike (h : Alike m m' s s') : Alike m m' (clearLatency s) (clearLatency s') := by
  obtain ⟨hcopies, hmode, ⟨prim, alt, rfl⟩, hdag⟩ := h
  exact ⟨hcopies, hmode, ⟨prim, alt, rfl⟩, hdag⟩

theorem advance_alike (h : Alike m m' s s') : Alike m m' (advance s) (advance s') := by
  obtain ⟨hcopies, hmode, ⟨prim, alt, rfl⟩, hdag⟩ := h
  exact ⟨hcopies, hmode, ⟨prim, alt, rfl⟩, hdag⟩

theorem recordTest_alike (h : Alike m m' s s') (b : Bool) : Alike m m' (recordTest s b) (recordTest s' b) := by
  obtain ⟨hcopies, hmode, ⟨prim, alt, rfl⟩, hdag⟩ := h
  exact ⟨hcopies, hmode, ⟨prim, alt, rfl⟩, hdag⟩

theorem setCell_alike (h : Alike m m' s s') (a v : Word) : Alike m m' (setCell s a v) (setCell s' a v) := by
  obtain ⟨hcopies, hmode, ⟨prim, alt, rfl⟩, hdag⟩ := h
  exact ⟨hcopies, hmode, ⟨prim, alt, rfl⟩, hdag⟩

theorem dataWrite_alike (h : Alike m m' s s') (d : Dreg) (v : DataWord) : Alike m m' (dataWrite s d v) (dataWrite s' d v) := by
  obtain ⟨hcopies, hmode, ⟨prim, alt, rfl⟩, hdag⟩ := h
  obtain ⟨pe, n⟩ := d
  cases pe <;> exact ⟨hcopies, hmode, ⟨prim, alt, rfl⟩, hdag⟩

theorem otherWrite_alike (h : Alike m m' s s') (nm : Ident) (v : Word) : Alike m m' (otherWrite s nm v) (otherWrite s' nm v) := by
  obtain ⟨hcopies, hmode, ⟨prim, alt, rfl⟩, hdag⟩ := h
  exact ⟨hcopies, hmode, ⟨prim, alt, rfl⟩, hdag⟩

theorem applyOverflow_alike (h : Alike m m' s s') (n : RegNum) (k : OverflowKind) :
    Alike m m' (applyOverflow n k s) (applyOverflow n k s') := by
  obtain ⟨hcopies, hmode, ⟨prim, alt, rfl⟩, hdag⟩ := h
  cases k <;> exact ⟨hcopies, hmode, ⟨prim, alt, rfl⟩, hdag⟩

/-- A register write goes to the selected copy in both states. -/
theorem dagPut_alike (h : Alike m m' s s') (ty : DagType) (n : RegNum) (v : Word) :
    Alike m m' (dagPut s ty n v) (dagPut s' ty n v) := by
  obtain ⟨hcopies, hmode, ⟨prim, alt, rfl⟩, hdag⟩ := h
  refine ⟨hcopies, hmode, ⟨_, _, rfl⟩, fun ty' n' => ?_⟩
  by_cases hn : ty' = ty ∧ n' = n
  · obtain ⟨rfl, rfl⟩ := hn
    rw [dagRead_dagPut_same, dagRead_dagPut_same]
  · rw [dagRead_dagPut_other _ _ _ _ _ _ hn, dagRead_dagPut_other _ _ _ _ _ _ hn]
    exact hdag ty' n'

theorem dagWrite_alike (h : Alike m m' s s') (ty : DagType) (n : RegNum) (v : Word) :
    Alike m m' (dagWrite s ty n v) (dagWrite s' ty n v) := by
  cases ty
  case b => exact dagPut_alike (dagPut_alike h .b n v) .i n v
  all_goals exact dagPut_alike h _ n v

theorem applyUpdate_alike (h : Alike m m' s s') (n : RegNum) (u : IndexUpdate) :
    Alike m m' (applyUpdate n u s) (applyUpdate n u s') := applyOverflow_alike (dagPut_alike h .i n u.index) n u.overflow

theorem dataLoad_alike (h : Alike m m' s s') (d : Dreg) (v : Word) (bc : Bool) :
    Alike m m' (dataLoad s d v bc) (dataLoad s' d v bc) := by
  cases bc
  · exact dataWrite_alike h d _
  · exact dataWrite_alike (dataWrite_alike h d _) (comp d) _

/-- A control register is written alike, MODE1 last. -/
theorem systemWrite_alike (h : Alike m m' s s') (r : SystemReg) (v : Word) :
    After (r = .mode1) m m' (systemWrite s r v) (systemWrite s' r v) := by
  cases r
  case mode1 => exact .inr ⟨rfl, s, s', v, h, rfl, rfl⟩
  all_goals
    obtain ⟨hcopies, hmode, ⟨prim, alt, rfl⟩, hdag⟩ := h
    exact .inl ⟨nofun, hcopies, hmode, ⟨prim, alt, rfl⟩, hdag⟩

/-- A normal-word register write goes alike; only that of a data register looks at the broadcast. -/
theorem putNw_alike (h : Alike m m' s s') {u : Ureg} {bc bc' : Bool} (hbc : u.isData = true → bc' = bc) (v : Word) :
    SameResult (After (u = .system .mode1) m m') (putNw s u v bc) (putNw s' u v bc') := by
  cases u with
  | dag ty n => exact .ok (.inl ⟨nofun, dagWrite_alike h ty n v⟩)
  | data d =>
    obtain rfl := hbc rfl
    exact .ok (.inl ⟨nofun, dataLoad_alike h d v bc'⟩)
  | system r =>
    simp only [putNw, isSystemUreg_alike h]
    split
    · exact .ok (by simpa using systemWrite_alike h r v)
    · exact .error _
  | other nm =>
    simp only [putNw, otherRead_alike h]
    split
    · exact .ok (.inl ⟨nofun, otherWrite_alike h nm v⟩)
    · exact .error _

theorem putLw_alike (h : Alike m m' s s') (u : Ureg) (v : LongWord) :
    SameResult (After (u = .system .mode1) m m') (putLw s u v) (putLw s' u v) := by
  cases u with
  | dag ty n => exact .ok (.inl ⟨nofun, dagWrite_alike (dagWrite_alike h ty n _) ty (partner n) _⟩)
  | _ => exact .error _

theorem memWriteNw_alike (h : Alike m m' s s') (bus : Bus) (a v : Word) :
    SameResult (Alike m m') (memWriteNw s bus a v) (memWriteNw s' bus a v) := by
  have hadmitted : admitted s' bus .nw a = admitted s bus .nw a := by
    obtain ⟨-, -, ⟨prim, alt, rfl⟩, -⟩ := h
    rfl
  simp only [memWriteNw, hadmitted]
  split
  · exact .ok (setCell_alike h a v)
  · exact .error _

theorem memWriteLw_alike (h : Alike m m' s s') (bus : Bus) (a : Word) (v : LongWord) :
    SameResult (Alike m m') (memWriteLw s bus a v) (memWriteLw s' bus a v) := by
  obtain ⟨hadmitted, hcells⟩ : admitted s' bus .lw a = admitted s bus .lw a ∧ longWordCells s' a = longWordCells s a := by
    obtain ⟨-, -, ⟨prim, alt, rfl⟩, -⟩ := h
    exact ⟨rfl, rfl⟩
  simp only [memWriteLw, hadmitted, hcells]
  split
  · exact .ok (setCell_alike (setCell_alike h _ _) _ _)
  · exact .error _

/-! ### What follows a register write -/

theorem After.advance {W : Prop} {t t' : State} (h : After W m m' t t') : After W m m' (advance t) (advance t') := by
  rcases h with ⟨hw, h⟩ | ⟨hw, q, q', v, h, rfl, rfl⟩
  · exact .inl ⟨hw, advance_alike h⟩
  · exact .inr ⟨hw, Machine.advance q, Machine.advance q', v, advance_alike h, rfl, rfl⟩

/-- The index update after a load of MODE1 is that of the state before it (log 38). -/
theorem After.update {W : Prop} {t t' : State} (h : After W m m' t t') (n : RegNum) (u : IndexUpdate) :
    After W m m' (underMode m (applyUpdate n u) t) (underMode m' (applyUpdate n u) t') := by
  rcases h with ⟨hw, h⟩ | ⟨hw, q, q', v, h, rfl, rfl⟩
  · rw [underMode_applyUpdate h.mode, underMode_applyUpdate h.mode']
    exact .inl ⟨hw, applyUpdate_alike h n u⟩
  · refine .inr ⟨hw, _, _, v, applyUpdate_alike h n u, ?_, ?_⟩
    · rw [← h.mode]
      exact underMode_load_mode1 q n u v
    · rw [← h.mode']
      exact underMode_load_mode1 q' n u v

/-! ### What a statement does -/

/-- What the effect of a statement reads of MODE1 beside the bits that select copies. -/
def SameModes (sh : Shape) (s s' : State) : Prop :=
  match sh with
  | .access x =>
    cbufen s' = cbufen s ∧ bitReversed s' x.idx = bitReversed s x.idx ∧
      ((∃ d w, x.xfer = .load (.data d) w) → broadcasts s' x.idx = broadcasts s x.idx) ∧
      ((∃ w, x.xfer = .store (.system .mode1) w) → s'.mode1 = s.mode1)
  | .dual _ a _ _ c _ =>
    cbufen s' = cbufen s ∧ bitReversed s' a = bitReversed s a ∧ bitReversed s' c = bitReversed s c ∧
      broadcasts s' a = broadcasts s a ∧ broadcasts s' c = broadcasts s c
  | .mov _ u => peyen s' = peyen s ∧ (u = .system .mode1 → s'.mode1 = s.mode1)
  | .bitset _ => s'.mode1 = s.mode1
  | .pushSts => s'.mode1 = s.mode1
  | _ => True

theorem systemLoaded_eq_mode1 {x : Access} {u : Ureg} {w : Width} (hx : x.xfer = .load u w) :
    systemLoaded x = some .mode1 ↔ u = .system .mode1 := by
  rw [systemLoaded, hx]
  cases u <;> simp

/-- The data action of an access on alike states (R130 to R157). -/
theorem move_alike (h : Alike m m' s s') {x : Access} (hmodes : SameModes (.access x) s s') (a : Word) :
    SameResult (After (systemLoaded x = some .mode1) m m') (move x a s) (move x a s') := by
  obtain ⟨-, -, hbc, hmode1⟩ := hmodes
  cases hx : x.xfer with
  | load u w =>
    rw [systemLoaded_eq_mode1 hx]
    cases w with
    | nw =>
      simp only [move, hx, memReadNw_alike h]
      refine sameResult_bind _ fun v => putNw_alike h (fun hu => ?_) v
      obtain ⟨d, rfl⟩ := isData_iff.1 hu
      exact hbc ⟨d, .nw, hx⟩
    | lw =>
      simp only [move, hx, memReadLw_alike h]
      exact sameResult_bind _ fun v => putLw_alike h u v
  | store u w =>
    have hnone : ¬systemLoaded x = some .mode1 := by simp [systemLoaded, hx]
    cases w with
    | nw =>
      have hget := getNw_alike h (u := u) fun hu => hmode1 ⟨.nw, by rw [hx, hu]⟩
      simp only [move, hx, hget]
      exact sameResult_bind _ fun v => (memWriteNw_alike h x.bus a v).mono fun _ _ ht => .inl ⟨hnone, ht⟩
    | lw =>
      simp only [move, hx, getLw_alike h]
      exact sameResult_bind _ fun v => (memWriteLw_alike h x.bus a v).mono fun _ _ ht => .inl ⟨hnone, ht⟩
  | storeImm v =>
    have hnone : ¬systemLoaded x = some .mode1 := by simp [systemLoaded, hx]
    simp only [move, hx]
    exact (memWriteNw_alike h x.bus a v).mono fun _ _ ht => .inl ⟨hnone, ht⟩

theorem postAccess_alike (h : Alike m m' s s') {x : Access} (hmodes : SameModes (.access x) s s') :
    SameResult (After (systemLoaded x = some .mode1) m m') (postAccess x s) (postAccess x s') := by
  obtain ⟨hcb, hrev, -, -⟩ := id hmodes
  simp only [postAccess, accessAddress_alike h hrev, modifierValue_alike h, indexUpdate_alike h, hcb, h.mode, h.mode']
  exact (move_alike h hmodes _).bind fun t t' ht => sameResult_bind _ fun u => .ok (ht.update x.idx u).advance

theorem preAccess_alike (h : Alike m m' s s') {x : Access} (hmodes : SameModes (.access x) s s') :
    SameResult (After (systemLoaded x = some .mode1) m m') (preAccess x s) (preAccess x s') := by
  obtain ⟨-, hrev, -, -⟩ := id hmodes
  simp only [preAccess, accessAddress_alike h hrev, modifierValue_alike h, linearIndex_alike h, sameSpace_alike h, h.dag]
  split
  · exact (move_alike h hmodes _).bind fun t t' ht => .ok ht.advance
  · exact .error _

theorem dualMove_alike (h : Alike m m' s s') {r1 r2 : Dreg} {a b c d : RegNum} (hmodes : SameModes (.dual r1 a b r2 c d) s s') :
    SameResult (Alike m m') (dualMove r1 a b r2 c d s) (dualMove r1 a b r2 c d s') := by
  obtain ⟨hcb, hreva, hrevc, hbca, hbcc⟩ := hmodes
  simp only [dualMove, putNw_data, outAddr, hreva, hrevc, h.dag, memReadNw_alike h, modifierValue_alike h, indexUpdate_alike h, hcb,
    hbca, hbcc]
  refine sameResult_bind _ fun v1 => sameResult_bind _ fun v2 => ?_
  have hloads := dataLoad_alike (dataLoad_alike h r1 v1 (broadcasts s a)) r2 v2 (broadcasts s c)
  exact sameResult_bind _ fun u1 => sameResult_bind _ fun u2 =>
    .ok (advance_alike (applyUpdate_alike (applyUpdate_alike hloads a u1) c u2))

/-- The statement writes MODE1: as its Ureg, or as BIT SET MODE1 and PUSH STS do. -/
def WritesMode1 (sh : Shape) : Prop :=
  match sh with
  | .access x => systemLoaded x = some .mode1
  | .ldi u _ => u = .system .mode1
  | .mov u _ => u = .system .mode1
  | .bitset _ => True
  | .pushSts => True
  | _ => False

theorem modifyIndex_alike (h : Alike m m' s s') (n : RegNum) (k : Modifier) :
    SameResult (Alike m m') (modifyIndex n k s) (modifyIndex n k s') := by
  simp only [modifyIndex, modifierValue_alike h, indexUpdate_alike h]
  exact sameResult_bind _ fun u => .ok (advance_alike (applyUpdate_alike h n u))

theorem bitrevIndex_alike (h : Alike m m' s s') (n : RegNum) (v : Word) :
    SameResult (Alike m m') (bitrevIndex n v s) (bitrevIndex n v s') := by
  simp only [bitrevIndex, linearIndex_alike h]
  exact .ok (advance_alike (dagPut_alike h .i n _))

theorem moveRegister_alike (h : Alike m m' s s') {u u' : Ureg} (hdag : (u.isDag || u'.isDag) = true)
    (hmodes : SameModes (.mov u u') s s') :
    SameResult (After (u = .system .mode1) m m') (moveRegister u u' s) (moveRegister u u' s') := by
  obtain ⟨hpe, hu⟩ := hmodes
  simp only [moveRegister_eq _ hdag, movedWord_alike h hpe hu, hpe]
  exact sameResult_bind _ fun v => putNw_alike h (fun _ => rfl) v

theorem stkyxTest_alike (h : Alike m m' s s') (n : Word) : stkyxTest s' n = stkyxTest s n := by
  obtain ⟨-, -, ⟨prim, alt, rfl⟩, -⟩ := h
  rfl

theorem mode1Masked_alike (h : Alike m m' s s') (hmodes : s'.mode1 = s.mode1) : mode1Masked s' = mode1Masked s := by
  have hmmask : mmaskCbufen s' = mmaskCbufen s := by
    obtain ⟨-, -, ⟨prim, alt, rfl⟩, -⟩ := h
    rfl
  rw [mode1Masked, mode1Masked, hmmask, hmodes]

/-- BIT SET MODE1 and PUSH STS write one word in alike states. -/
theorem writeMode1_alike (h : Alike m m' s s') (v : Word) {W : Prop} (hw : W) :
    After W m m' (advance (writeMode1 s v)) (advance (writeMode1 s' v)) :=
  .inr ⟨hw, advance s, advance s', v, advance_alike h, rfl, rfl⟩

/-- A statement that writes no MODE1 leaves alike states. -/
theorem SameResult.kept {W : Prop} {r r' : Except Stop State} (h : SameResult (Alike m m') r r') (hw : ¬W) :
    SameResult (After W m m') r r' := h.mono fun _ _ ht => .inl ⟨hw, ht⟩

/-- The effect of a well-formed statement on alike states. -/
theorem effect_alike {sh : Shape} (hwf : sh.illFormed = none) (h : Alike m m' s s') (hmodes : SameModes sh s s') :
    SameResult (After (WritesMode1 sh) m m') (effect sh s) (effect sh s') := by
  cases sh with
  | access x =>
    simp only [effect]
    split
    · exact postAccess_alike h hmodes
    · exact preAccess_alike h hmodes
  | dual r1 a b r2 c d => exact (dualMove_alike h hmodes).kept id
  | modify n k => exact (modifyIndex_alike h n k).kept id
  | bitrev n v => exact (bitrevIndex_alike h n v).kept id
  | ldi u v =>
    exact (putNw_alike h (fun _ => rfl) v).bind fun t t' ht => .ok ht.advance
  | mov u u' =>
    have hdag : (u.isDag || u'.isDag) = true := by
      by_contra hno
      simp [Shape.illFormed, hno] at hwf
    exact (moveRegister_alike h hdag hmodes).bind fun t t' ht => .ok ht.advance
  | bitset n =>
    have hmodes : s'.mode1 = s.mode1 := hmodes
    simp only [effect, hmodes]
    exact .ok (writeMode1_alike h _ trivial)
  | nop => exact (SameResult.ok (advance_alike h)).kept id
  | bittst n =>
    simp only [effect, stkyxTest_alike h]
    exact (SameResult.ok (advance_alike (recordTest_alike h _))).kept id
  | pushSts =>
    simp only [effect, mode1Masked_alike h hmodes]
    exact .ok (writeMode1_alike h _ trivial)
  | doUntil => exact .error _

/-- An instruction on alike states stops alike or goes to alike states (R23, R184). -/
theorem exec_alike {i : Instr} (h : Alike m m' s s') (hsimd : simdRefused s' i.shape = simdRefused s i.shape)
    (hmodes : SameModes i.shape s s') :
    (∃ e, exec i s = halt e ∧ exec i s' = halt e) ∨
      ∃ t t', exec i s = .next t ∧ exec i s' = .next t' ∧ After (WritesMode1 i.shape) m m' t t' := by
  have hcheck : check i.shape s' = check i.shape s := by
    have hchanged : s'.mode1Changed = s.mode1Changed := by
      obtain ⟨-, -, ⟨prim, alt, rfl⟩, -⟩ := h
      rfl
    simp only [check, hsimd, hchanged]
  cases hc : check i.shape s with
  | some e => exact .inl ⟨e, exec_of_check hc, exec_of_check (hcheck.trans hc)⟩
  | none =>
    have hmodes : SameModes i.shape (clearLatency s) (clearLatency s') := hmodes
    have heffect := effect_alike (check_wellFormed hc) (clearLatency_alike h) hmodes
    rw [exec_of_passes (show Passes i s from hc), exec_of_passes (show Passes i s' from hcheck.trans hc)]
    generalize effect i.shape (clearLatency s) = r at heffect
    generalize effect i.shape (clearLatency s') = r' at heffect
    cases heffect with
    | error e => exact .inl ⟨e, rfl, rfl⟩
    | ok hafter => exact .inr ⟨_, _, rfl, rfl, hafter⟩

end Alike

end Sys2Proof.Machine
end

section
/-! Copies that are not selected are neither written nor read (rule R23), and what BDCST1, BDCST9 and PEYEN do not change (rules
R160, R184). -/

namespace Sys2Proof.Machine

open Sys2Proof.Claims

/-! ### Hidden copies -/

/-- Every statement reads one MODE1 word alike. -/
theorem sameModes_of_mode1 {s s' : State} (h : s'.mode1 = s.mode1) (sh : Shape) : SameModes sh s s' := by
  have hbit (k : Nat) : mode1Bit s' k = mode1Bit s k := by rw [mode1Bit, mode1Bit, h]
  have hrev (n : RegNum) : bitReversed s' n = bitReversed s n := by simp only [bitReversed, hbit]
  have hbc (n : RegNum) : broadcasts s' n = broadcasts s n := by simp only [broadcasts, hbit]
  cases sh with
  | access x => exact ⟨hbit _, hrev _, fun _ => hbc _, fun _ => h⟩
  | dual => exact ⟨hbit _, hrev _, hrev _, hbc _, hbc _⟩
  | mov => exact ⟨hbit _, fun _ => h⟩
  | bitset => exact h
  | pushSts => exact h
  | _ => trivial

theorem alike_of_sameButHidden {s s' : State} (h : SameButHidden s s') : Alike s.mode1 s.mode1 s s' := by
  obtain ⟨hdag, hfields⟩ := h
  exact ⟨fun _ => rfl, rfl, ⟨_, _, hfields⟩, hdag⟩

/-- A write of MODE1 changes no register of the copies selected before it. -/
theorem dagRead_asBefore_writeMode1 {s q : State} (h : q.mode1 = s.mode1) (v : Word) (ty : DagType) (n : RegNum) :
    dagRead (asBefore s (writeMode1 q v)) ty n = dagRead q ty n :=
  dagRead_congr (s := q) (s' := asBefore s (writeMode1 q v)) h.symm rfl rfl ty n

/-- States after one statement that were alike under one MODE1 differ in hidden copies alone. -/
theorem sameButHidden_of_after {W : Prop} {s t t' : State} (h : After W s.mode1 s.mode1 t t') :
    t'.mode1 = t.mode1 ∧ SameButHidden (asBefore s t) (asBefore s t') := by
  rcases h with ⟨-, h⟩ | ⟨-, q, q', v, h, rfl, rfl⟩
  · refine ⟨h.mode'.trans h.mode.symm, ?_⟩
    rw [asBefore_eq h.mode, asBefore_eq h.mode']
    obtain ⟨-, hmode, ⟨prim, alt, rfl⟩, hdag⟩ := h
    exact ⟨hdag, by rw [← hmode]⟩
  · refine ⟨rfl, fun ty n => ?_, ?_⟩
    · rw [dagRead_asBefore_writeMode1 h.mode, dagRead_asBefore_writeMode1 h.mode', h.dag]
    · obtain ⟨-, hmode, ⟨prim, alt, rfl⟩, -⟩ := h
      simp [asBefore, writeMode1, hmode]

theorem halt_ne_next (e : Stop) (t : State) : halt e ≠ .next t := by
  cases e <;> nofun

/-- Settles O47. -/
theorem hiddenCopiesAreInert : Obligations.HiddenCopiesAreInert := by
  refine ⟨fun i s t h => exec_hidden h, fun i s s' h => ?_⟩
  have halike := alike_of_sameButHidden h
  have hmode : s'.mode1 = s.mode1 := halike.mode'
  have hsimd : simdRefused s' i.shape = simdRefused s i.shape := by
    obtain ⟨-, hfields⟩ := h
    rw [hfields]
    rfl
  rcases exec_alike halike hsimd (sameModes_of_mode1 hmode i.shape) with ⟨e, he, he'⟩ | ⟨t, t', ht, ht', hafter⟩
  · rw [he, he']
    exact ⟨fun f hf => hf, fun r hr => hr, fun t ht => absurd ht (halt_ne_next e t)⟩
  · rw [ht, ht']
    refine ⟨nofun, nofun, fun t1 ht1 => ?_⟩
    cases ht1
    exact ⟨t', rfl, sameButHidden_of_after hafter⟩

/-! ### Another MODE1 -/

/-- A bank is its registers. -/
theorem bank_ext {k k' : DagBank} (h : ∀ ty n, bankRead k ty n = bankRead k' ty n) : k = k' := by
  obtain ⟨i, m, l, b⟩ := k
  obtain ⟨i', m', l', b'⟩ := k'
  congr
  · exact Vector.ext fun n hn => h .i ⟨n, hn⟩
  · exact Vector.ext fun n hn => h .m ⟨n, hn⟩
  · exact Vector.ext fun n hn => h .l ⟨n, hn⟩
  · exact Vector.ext fun n hn => h .b ⟨n, hn⟩

section OtherMode

variable {i : Instr} {s : State} {p : Word} (hsel : ∀ n, altSelected { s with mode1 := p } n = altSelected s n)
include hsel

theorem alike_of_altSelected : Alike s.mode1 p s { s with mode1 := p } :=
  ⟨hsel, rfl, ⟨s.prim, s.alt, rfl⟩, dagRead_of_altSelected hsel⟩

/-- Where the selected copies read alike after an instruction, the banks are alike: the other copies are as they were (R23). -/
theorem banks_eq {t t' : State} (h : exec i s = .next t) (h' : exec i { s with mode1 := p } = .next t')
    (hdag : ∀ ty n, dagRead { t' with mode1 := p } ty n = dagRead (asBefore s t) ty n) : t'.prim = t.prim ∧ t'.alt = t.alt := by
  have hhidden : ∀ ty n, dagHidden { t' with mode1 := p } ty n = dagHidden (asBefore s t) ty n := by
    intro ty n
    have hbefore : dagHidden { s with mode1 := p } ty n = dagHidden s ty n := by simp only [dagHidden, hsel]
    exact (exec_hidden h' ty n).trans (hbefore.trans (exec_hidden h ty n).symm)
  have hsel' : ∀ n, altSelected { t' with mode1 := p } n = altSelected s n := hsel
  have hsel0 : ∀ n, altSelected (asBefore s t) n = altSelected s n := fun _ => rfl
  simp only [dagRead, dagHidden, hsel', hsel0] at hdag hhidden
  refine ⟨bank_ext fun ty n => ?_, bank_ext fun ty n => ?_⟩
  all_goals
    have hd := hdag ty n
    have hh := hhidden ty n
    cases hn : altSelected s n <;> rw [hn] at hd hh
  · exact hd
  · exact hh
  · exact hh
  · exact hd

/-- An instruction that reads none of the MODE1 bits changed does what it did, and keeps or records them (R37). -/
theorem exec_of_otherMode (hsimd : simdRefused { s with mode1 := p } i.shape = simdRefused s i.shape)
    (hmodes : SameModes i.shape s { s with mode1 := p }) :
    (¬WritesMode1 i.shape → exec i { s with mode1 := p } = mapNext (fun t => { t with mode1 := p }) (exec i s)) ∧
      (WritesMode1 i.shape →
        exec i { s with mode1 := p } = mapNext (fun t => { t with mode1Changed := p ^^^ t.mode1 }) (exec i s)) := by
  rcases exec_alike (alike_of_altSelected hsel) hsimd hmodes with ⟨e, he, he'⟩ | ⟨t, t', ht, ht', hafter⟩
  · rw [he, he']
    cases e <;> exact ⟨fun _ => rfl, fun _ => rfl⟩
  · have hbanks := banks_eq hsel ht ht'
    rw [ht, ht']
    rcases hafter with ⟨hno, h⟩ | ⟨hw, q, q', v, h, rfl, rfl⟩
    · refine ⟨fun _ => ?_, fun hw => absurd hw hno⟩
      rw [asBefore_eq h.mode] at hbanks
      obtain ⟨-, -, ⟨prim, alt, rfl⟩, hdag⟩ := h
      obtain ⟨rfl, rfl⟩ := hbanks hdag
      rfl
    · refine ⟨fun hno => absurd hw hno, fun _ => ?_⟩
      simp only [dagRead_asBefore_writeMode1 h.mode] at hbanks
      obtain ⟨-, -, ⟨prim, alt, rfl⟩, hdag⟩ := h
      obtain ⟨rfl, rfl⟩ := hbanks hdag
      rfl

end OtherMode

theorem writesMode1_iff {i : Instr} (hb : ∀ n, i ≠ .bitsetMode1 n) (hp : i ≠ .pushSts) :
    WritesMode1 i.shape ↔ WritesSystem i .mode1 := by
  refine ⟨fun h => writesSystem_of_systemDest ?_, fun h => ?_⟩
  · generalize hs : i.shape = sh at h
    cases sh with
    | access x => exact h
    | ldi u v => cases h; rfl
    | mov u u' => cases h; rfl
    | bitset n => exact absurd (shape_bitset hs) (hb n)
    | pushSts => exact absurd (shape_pushSts hs) hp
    | _ => exact h.elim
  · rcases h with ⟨x, w, hs, hx⟩ | ⟨v, rfl⟩ | ⟨u, rfl⟩
    · rw [hs]
      exact (systemLoaded_eq_mode1 hx).2 rfl
    · rfl
    · rfl

/-- With one PEYEN, alike modes refuse a statement in SIMD mode alike (R176). -/
theorem simdRefused_of_sameModes {sh : Shape} {s s' : State} (hpe : peyen s' = peyen s) (h : SameModes sh s s') :
    simdRefused s' sh = simdRefused s sh := by
  cases sh with
  | access x =>
    obtain ⟨-, -, hbc, -⟩ := h
    have hopen : simdOpen s' x = simdOpen s x := by
      unfold simdOpen
      cases hx : x.xfer with
      | load u w =>
        cases u with
        | data d => simp only [hbc ⟨d, w, hx⟩]
        | _ => rfl
      | _ => rfl
    simp only [simdRefused, hpe, hopen]
  | dual r1 a b r2 c d =>
    obtain ⟨-, -, -, hbca, hbcc⟩ := h
    simp only [simdRefused, hpe, hbca, hbcc]
  | _ => simp only [simdRefused, hpe]

theorem broadcasts_of_agreeOutside {s : State} {p : Word} {bits : List Nat} (h : AgreeOutside bits p s.mode1)
    (h1 : bitBdcst1 ∉ bits) (h9 : bitBdcst9 ∉ bits) (n : RegNum) : broadcasts { s with mode1 := p } n = broadcasts s n := by
  rw [broadcasts, broadcasts, mode1Bit_of_agreeOutside h h1, mode1Bit_of_agreeOutside h h9]

/-- An index register that is neither I1 nor I9 has no broadcast loads (R183). -/
theorem broadcasts_of_ne {n : RegNum} (h1 : n ≠ 1) (h9 : n ≠ 9) (s : State) : broadcasts s n = false := by
  rw [Bool.eq_false_iff, ne_eq, broadcasts_iff]
  rintro (⟨h, -⟩ | ⟨h, -⟩)
  · exact h1 h
  · exact h9 h

theorem groupBit_cases (n : RegNum) : groupBit n = 3 ∨ groupBit n = 4 ∨ groupBit n = 5 ∨ groupBit n = 6 := by
  revert n; decide

/-- Settles O57. -/
theorem modifyAndBitrevIgnoreModes : Obligations.ModifyAndBitrevIgnoreModes := by
  intro i s p hshape hp
  have hsel (n : RegNum) : altSelected { s with mode1 := p } n = altSelected s n := hp _ (groupBit_cases n)
  have hplain : simdRefused { s with mode1 := p } i.shape = simdRefused s i.shape ∧
      SameModes i.shape s { s with mode1 := p } ∧ ¬WritesMode1 i.shape := by
    rcases hshape with ⟨n, m, hs⟩ | ⟨n, v, hs⟩
    all_goals
      rw [hs]
      exact ⟨by simp [simdRefused], trivial, id⟩
  obtain ⟨hsimd, hmodes, hno⟩ := hplain
  exact (exec_of_otherMode hsel hsimd hmodes).1 hno

/-- Where a statement loads no data register through I1 or I9 and does not read MODE1, it reads none of the broadcast bits
(R184). -/
theorem sameModes_of_agreeOutside_broadcast {i : Instr} {s : State} {p : Word} (hp : AgreeOutside [22, 23] p s.mode1)
    (h1 : ¬LoadsDataThrough i 1) (h9 : ¬LoadsDataThrough i 9) (hb : ∀ n, i ≠ .bitsetMode1 n) (hpush : i ≠ .pushSts)
    (hread : ¬ReadsSystem i .mode1) : SameModes i.shape s { s with mode1 := p } := by
  have hcb : cbufen { s with mode1 := p } = cbufen s := mode1Bit_of_agreeOutside hp (by decide)
  have hrev := bitReversed_of_agreeOutside hp (by decide) (by decide)
  have hbc {n : RegNum} (hn : LoadsDataThrough i n) : broadcasts { s with mode1 := p } n = broadcasts s n := by
    have hn1 : n ≠ 1 := fun h => h1 (h ▸ hn)
    have hn9 : n ≠ 9 := fun h => h9 (h ▸ hn)
    rw [broadcasts_of_ne hn1 hn9, broadcasts_of_ne hn1 hn9]
  generalize hs : i.shape = sh
  cases sh with
  | access x =>
    exact ⟨hcb, hrev _, fun ⟨d, w, hx⟩ => hbc (.inl ⟨x, d, w, hs, rfl, hx⟩), fun ⟨w, hx⟩ => absurd (.inl ⟨x, w, hs, hx⟩) hread⟩
  | dual r1 a b r2 c d =>
    exact ⟨hcb, hrev _, hrev _, hbc (.inr ⟨r1, a, b, r2, c, d, hs, .inl rfl⟩), hbc (.inr ⟨r1, a, b, r2, c, d, hs, .inr rfl⟩)⟩
  | mov u u' =>
    exact ⟨mode1Bit_of_agreeOutside hp (by decide), fun hu => absurd (.inr ⟨u, by rw [shape_mov hs, hu]⟩) hread⟩
  | bitset n => exact absurd (shape_bitset hs) (hb n)
  | pushSts => exact absurd (shape_pushSts hs) hpush
  | _ => trivial

/-- A load of data registers that are all broadcast is not refused in SIMD mode, reads no PEYEN and writes no MODE1 (R176, R183). -/
theorem broadcast_load_modes {i : Instr} {s : State} {p : Word} (hp : AgreeOutside [21] p s.mode1)
    (hload : (∃ x d w, i.shape = .access x ∧ x.xfer = .load (.data d) w ∧ Broadcast s x.idx) ∨
      ∃ r1 a b r2 c d, i.shape = .dual r1 a b r2 c d ∧ Broadcast s a ∧ Broadcast s c) :
    simdRefused { s with mode1 := p } i.shape = simdRefused s i.shape ∧ SameModes i.shape s { s with mode1 := p } ∧
      ¬WritesMode1 i.shape := by
  have hcb : cbufen { s with mode1 := p } = cbufen s := mode1Bit_of_agreeOutside hp (by decide)
  have hrev := bitReversed_of_agreeOutside hp (by decide) (by decide)
  have hbc := broadcasts_of_agreeOutside hp (by decide) (by decide)
  rcases hload with ⟨x, d, w, hs, hx, hx1⟩ | ⟨r1, a, b, r2, c, d, hs, ha, hc⟩ <;> rw [hs]
  · refine ⟨?_, ⟨hcb, hrev _, fun _ => hbc _, fun ⟨w', hx'⟩ => nomatch hx.symm.trans hx'⟩, fun hw => ?_⟩
    · simp [simdRefused, simdOpen, hx, hbc, broadcasts_iff.2 hx1]
    · nomatch (systemLoaded_eq_mode1 hx).1 hw
  · refine ⟨?_, ⟨hcb, hrev _, hrev _, hbc _, hbc _⟩, id⟩
    simp [simdRefused, hbc, broadcasts_iff.2 ha, broadcasts_iff.2 hc]

/-- Settles O56. -/
theorem broadcastChangesOnlyDataLoads : Obligations.BroadcastChangesOnlyDataLoads := by
  refine ⟨fun i s p hp h1 h9 hb hpush hread => ?_, fun i s p hp hload => ?_⟩
  · have hmodes := sameModes_of_agreeOutside_broadcast hp h1 h9 hb hpush hread
    have hpe : peyen { s with mode1 := p } = peyen s := mode1Bit_of_agreeOutside hp (by decide)
    rw [← writesMode1_iff hb hpush]
    exact exec_of_otherMode (altSelected_of_agreeOutside hp (by decide)) (simdRefused_of_sameModes hpe hmodes) hmodes
  · obtain ⟨hsimd, hmodes, hno⟩ := broadcast_load_modes hp hload
    exact (exec_of_otherMode (altSelected_of_agreeOutside hp (by decide)) hsimd hmodes).1 hno

end Sys2Proof.Machine
end
